-- ==== Sys2Proof/Word.lean ====
section
/-! DEFINITION. The word types of the block: what the spec treats as bits of a fixed width. -/

namespace Sys2Proof

/-- One byte lane of the data path (R86). -/
abbrev Byte := BitVec 8

/-- A 32-bit bus word: WDATA, RDATA, a register, a buffer element (R89, R111). -/
abbrev Word := BitVec 32

/-- A pattern of the storage format S, IEEE 754 binary32 (R140). -/
abbrev SBits := BitVec 32

/-- A pattern of the wide format W, IEEE 754 binary64 (R141). -/
abbrev WBits := BitVec 64

/-- A byte address of the host address space (R80). -/
abbrev Addr := BitVec 22

/-- The selector T = WE ++ ADDR of a host transaction (R111). -/
abbrev Selector := BitVec 23

end Sys2Proof
end

