-- ==== Sys2Proof/Config.lean ====
section
/-! DEFINITION. The build parameters of R7 to R9 and R156(e), and the one free value of the model (ATAN2 of a
build other than the default). -/

namespace Sys2Proof

/-- Which arctangent a build has (R9): the default of R157, or any other function that satisfies R156. -/
inductive Atan2Build where
  /-- The default build: correctly rounded (R157). -/
  | correctlyRounded
  /-- A build with an arctangent of its own; `id` only tells such builds apart. -/
  | other (id : Nat)
deriving DecidableEq, Repr

/-- The parameters fixed when the design is built (R7, R8, R9, R156). -/
structure Config where
  /-- LOG2N, the binary logarithm of the transform size (R7). -/
  log2n : Nat
  /-- EPS, the degenerate-phase threshold, a W pattern (R8). -/
  eps : WBits
  /-- ATAN2, the arctangent of the build (R9). -/
  atan2 : Atan2Build
  /-- ATAN2_ULPS, the error bound of ATAN2 in units in the last place (R156(e)). -/
  atan2Ulps : ℚ
deriving DecidableEq, Repr

/-- 1/2, ATAN2_ULPS of the default build (R157). -/
def halfUlp : ℚ := { num := 1, den := 2, den_nz := by decide, reduced := by decide }

/-- The default build: LOG2N = 11 (R7), EPS = RNE64(1e-8) (R8), ATAN2 correctly rounded and ATAN2_ULPS = 1/2
(R157). -/
def Config.default : Config :=
  { log2n := 11, eps := 0x3E45798EE2308C3A#64, atan2 := .correctlyRounded, atan2Ulps := halfUlp }

/-- N, the transform size (R7). -/
def Config.size (c : Config) : Nat := 2 ^ c.log2n

/-- The builds whose parameters are in range: 1 ≤ LOG2N ≤ 16 (R7, which rejects any other), EPS finite and
greater than zero (R8: its pattern lies strictly between those of +0 and +∞), ATAN2_ULPS ≥ 1/2
(93_implementation_defined.md section 2), by its numerator and denominator. That the last two are rejected
as the first is the model's choice (log 1). -/
def Config.valid (c : Config) : Bool :=
  decide (1 ≤ c.log2n) && decide (c.log2n ≤ 16) && decide (0 < c.eps.toNat)
    && decide (c.eps.toNat < 0x7FF0000000000000)
    && decide ((c.atan2Ulps.den : Int) ≤ 2 * c.atan2Ulps.num)

/-- FREE VALUE (log 5). The arctangent of a build other than the default (R155: "an uninterpreted
function"), and what ATAN2 of any build answers on operands for which R153 gives no definition. The
first argument tells builds apart. Nothing is known of its values: `atan2` (Machine/Atan2.lean) takes one
only where it meets R156. -/
opaque Config.freeAtan2 : Nat → WBits → WBits → WBits

end Sys2Proof
end

