-- ==== Sys2Proof/Syntax.lean ====
section
/-! DEFINITION. The two kinds of encoded input (R110) and the instructions: one constructor per row of
the opcode table, in the table's order. -/

namespace Sys2Proof

/-- What FFTPC decodes (R110): a host transaction, or a command word. -/
inductive Encoded where
  /-- A host transaction: the selector T = WE ++ ADDR and WDATA (R111). -/
  | hostbus (t : Selector) (wdata : Word)
  /-- A command word, the WDATA of a write to CTRL (R113). -/
  | cmd (word : Word)
deriving DecidableEq, Repr

/-- The rows of the opcode table. Operands: `we` is WE, `wordAddr` is ADDR[21:2], `addr` is ADDR,
`e` is the buffer element index ADDR[18:2], `n` the ROM entry index ADDR[17:2] (R116), `wdata` is
WDATA and `word` a command word (R113). -/
inductive Instr where
  /-- MISALIGNED, ADDR[1:0] = 01 (R304). -/
  | misaligned01 (we : Bool) (wordAddr : BitVec 20) (wdata : Word)
  /-- MISALIGNED, ADDR[1:0] = 10 (R304). -/
  | misaligned10 (we : Bool) (wordAddr : BitVec 20) (wdata : Word)
  /-- MISALIGNED, ADDR[1:0] = 11 (R304). -/
  | misaligned11 (we : Bool) (wordAddr : BitVec 20) (wdata : Word)
  /-- RD_CTRL (R281). -/
  | rdCtrl
  /-- WR_CTRL (R282). -/
  | wrCtrl (wdata : Word)
  /-- RD_STATUS (R285). -/
  | rdStatus
  /-- WR_STATUS (R286). -/
  | wrStatus (wdata : Word)
  /-- RD_IRQ_EN (R287). -/
  | rdIrqEn
  /-- WR_IRQ_EN (R288). -/
  | wrIrqEn (wdata : Word)
  /-- RD_CFG (R289). -/
  | rdCfg
  /-- WR_CFG (R290). -/
  | wrCfg (wdata : Word)
  /-- RD_BIN_K (R291). -/
  | rdBinK
  /-- WR_BIN_K (R292). -/
  | wrBinK (wdata : Word)
  /-- RD_CAL_LO (R293). -/
  | rdCalLo
  /-- WR_CAL_LO (R294). -/
  | wrCalLo (wdata : Word)
  /-- RD_CAL_HI (R295). -/
  | rdCalHi
  /-- WR_CAL_HI (R296). -/
  | wrCalHi (wdata : Word)
  /-- RD_PHASE_LO (R297). -/
  | rdPhaseLo
  /-- WR_PHASE_LO (R299). -/
  | wrPhaseLo (wdata : Word)
  /-- RD_PHASE_HI (R298). -/
  | rdPhaseHi
  /-- WR_PHASE_HI (R300). -/
  | wrPhaseHi (wdata : Word)
  /-- RD_BUF (R301). -/
  | rdBuf (e : BitVec 17)
  /-- WR_BUF (R302). -/
  | wrBuf (e : BitVec 17) (wdata : Word)
  /-- RD_WIN_FT (R186). -/
  | rdWinFt (n : BitVec 16)
  /-- WR_WIN on the Flat-Top bank (R190, row 12 of R112). -/
  | wrWinFt (n : BitVec 16) (wdata : Word)
  /-- RD_WIN_HN (R187). -/
  | rdWinHn (n : BitVec 16)
  /-- WR_WIN on the Hann bank (R190, row 13 of R112). -/
  | wrWinHn (n : BitVec 16) (wdata : Word)
  /-- UNMAPPED (R303). -/
  | unmapped (we : Bool) (addr : Addr) (wdata : Word)
  /-- The command word NOP (R283). -/
  | nop
  /-- The command word TRANSFORM (R200). -/
  | transform
  /-- The command word PHASE (R240). -/
  | phase
  /-- A reserved command word (R284). -/
  | reservedCmd (word : Word)
deriving DecidableEq, Repr

end Sys2Proof
end

