-- ==== Sys2Proof/WellFormed.lean ====
section
/-! DEFINITION. Which terms of `Instr` stand for an encoded input in a build with the given LOG2N. The
address map is read from R81 to R84 here, by address ranges, and from R112 in `Decode.lean`, by bits;
that the two agree is a statement about the model. -/

namespace Sys2Proof

/-- The register offsets of R82. -/
def registerOffset (a : Nat) : Bool :=
  a = 0x000 || a = 0x004 || a = 0x008 || a = 0x00C || a = 0x010
    || a = 0x018 || a = 0x01C || a = 0x020 || a = 0x024

/-- The address lies in one of the four regions of R81. -/
def mappedAddress (log2n a : Nat) : Bool :=
  registerOffset a
    || (decide (0x100000 ≤ a) && decide (a < 0x100000 + 8 * 2 ^ log2n))
    || (decide (0x200000 ≤ a) && decide (a < 0x200000 + 4 * 2 ^ log2n))
    || (decide (0x300000 ≤ a) && decide (a < 0x300000 + 4 * 2 ^ log2n))

/-- The operands have values that the row's encoding and its value condition admit: e < 2N for the
buffer (R83), n < N for the windows (R84), an aligned address outside every region for UNMAPPED
(R303), a word other than 0, 1 and 2 for a reserved command (R284). -/
def Instr.wellFormed (log2n : Nat) : Instr → Bool
  | .rdBuf e => decide (e.toNat < 2 * 2 ^ log2n)
  | .wrBuf e _ => decide (e.toNat < 2 * 2 ^ log2n)
  | .rdWinFt n => decide (n.toNat < 2 ^ log2n)
  | .wrWinFt n _ => decide (n.toNat < 2 ^ log2n)
  | .rdWinHn n => decide (n.toNat < 2 ^ log2n)
  | .wrWinHn n _ => decide (n.toNat < 2 ^ log2n)
  | .unmapped _ addr _ => decide (addr.toNat % 4 = 0) && !mappedAddress log2n addr.toNat
  | .reservedCmd word => decide (3 ≤ word.toNat)
  | .misaligned01 _ _ _ => true
  | .misaligned10 _ _ _ => true
  | .misaligned11 _ _ _ => true
  | .rdCtrl => true
  | .wrCtrl _ => true
  | .rdStatus => true
  | .wrStatus _ => true
  | .rdIrqEn => true
  | .wrIrqEn _ => true
  | .rdCfg => true
  | .wrCfg _ => true
  | .rdBinK => true
  | .wrBinK _ => true
  | .rdCalLo => true
  | .wrCalLo _ => true
  | .rdCalHi => true
  | .wrCalHi _ => true
  | .rdPhaseLo => true
  | .wrPhaseLo _ => true
  | .rdPhaseHi => true
  | .wrPhaseHi _ => true
  | .nop => true
  | .transform => true
  | .phase => true

end Sys2Proof
end

