-- ==== Sys2Proof/Decode.lean ====
section
/-! DEFINITION. The decoder, total on every input (R110 to R115), and the encoder, written from the
same table. No input is rejected: every selector matches a row of R112 (row 14 takes what is left) and
every command word a row of R114 or R115. -/

namespace Sys2Proof

/-- WE, bit 22 of the selector (R111). -/
def selectorWe (t : Selector) : Bool := t.msb

/-- ADDR, bits 21:0 of the selector (R111). -/
def selectorAddr (t : Selector) : Addr := t.setWidth 22

/-- The selector of WE and ADDR (R111). -/
def selector (we : Bool) (addr : Addr) : Selector := BitVec.cons we addr

/-- Rows 2 to 14 of R112, for an aligned address. -/
def decodeAligned (log2n : Nat) (we : Bool) (a : Addr) (d : Word) : Instr :=
  if a = 0x000000#22 then (if we then .wrCtrl d else .rdCtrl)
  else if a = 0x000004#22 then (if we then .wrStatus d else .rdStatus)
  else if a = 0x000008#22 then (if we then .wrIrqEn d else .rdIrqEn)
  else if a = 0x00000C#22 then (if we then .wrCfg d else .rdCfg)
  else if a = 0x000010#22 then (if we then .wrBinK d else .rdBinK)
  else if a = 0x000018#22 then (if we then .wrCalLo d else .rdCalLo)
  else if a = 0x00001C#22 then (if we then .wrCalHi d else .rdCalHi)
  else if a = 0x000020#22 then (if we then .wrPhaseLo d else .rdPhaseLo)
  else if a = 0x000024#22 then (if we then .wrPhaseHi d else .rdPhaseHi)
  else if a.extractLsb' 19 3 = 0b010#3 ∧ (a.extractLsb' 2 17).toNat < 2 * 2 ^ log2n then
    (if we then .wrBuf (a.extractLsb' 2 17) d else .rdBuf (a.extractLsb' 2 17))
  else if a.extractLsb' 18 4 = 0b1000#4 ∧ (a.extractLsb' 2 16).toNat < 2 ^ log2n then
    (if we then .wrWinFt (a.extractLsb' 2 16) d else .rdWinFt (a.extractLsb' 2 16))
  else if a.extractLsb' 18 4 = 0b1100#4 ∧ (a.extractLsb' 2 16).toNat < 2 ^ log2n then
    (if we then .wrWinHn (a.extractLsb' 2 16) d else .rdWinHn (a.extractLsb' 2 16))
  else .unmapped we a d

/-- The decode order of R112: row 1 (misaligned) first, for reads and writes alike. -/
def decodeHostbus (log2n : Nat) (t : Selector) (d : Word) : Instr :=
  let we := selectorWe t
  let a := selectorAddr t
  if a.extractLsb' 0 2 = 0b01#2 then .misaligned01 we (a.extractLsb' 2 20) d
  else if a.extractLsb' 0 2 = 0b10#2 then .misaligned10 we (a.extractLsb' 2 20) d
  else if a.extractLsb' 0 2 = 0b11#2 then .misaligned11 we (a.extractLsb' 2 20) d
  else decodeAligned log2n we a d

/-- The command words of R114; every other word is reserved (R115). -/
def decodeCmd (w : Word) : Instr :=
  if w = 0#32 then .nop
  else if w = 1#32 then .transform
  else if w = 2#32 then .phase
  else .reservedCmd w

/-- The decoder of both kinds of input (R110). -/
def decode (log2n : Nat) : Encoded → Instr
  | .hostbus t d => decodeHostbus log2n t d
  | .cmd w => decodeCmd w

/-- A read transaction; its WDATA is ignored (R111) and encoded as 0. -/
def encodeRead (a : Addr) : Encoded := .hostbus (selector false a) 0#32

/-- A write transaction. -/
def encodeWrite (a : Addr) (d : Word) : Encoded := .hostbus (selector true a) d

/-- The address of buffer element `e`, ADDR[21:19] = 010 (R112, row 11). -/
def bufAddr (e : BitVec 17) : Addr := 0b010#3 ++ e ++ 0b00#2

/-- The address of Flat-Top entry `n`, ADDR[21:18] = 1000 (R112, row 12). -/
def winFtAddr (n : BitVec 16) : Addr := 0b1000#4 ++ n ++ 0b00#2

/-- The address of Hann entry `n`, ADDR[21:18] = 1100 (R112, row 13). -/
def winHnAddr (n : BitVec 16) : Addr := 0b1100#4 ++ n ++ 0b00#2

/-- The encoded input of an instruction (R111 to R115). -/
def encode : Instr → Encoded
  | .misaligned01 we a d => .hostbus (selector we (a ++ 0b01#2)) d
  | .misaligned10 we a d => .hostbus (selector we (a ++ 0b10#2)) d
  | .misaligned11 we a d => .hostbus (selector we (a ++ 0b11#2)) d
  | .rdCtrl => encodeRead 0x000000#22
  | .wrCtrl d => encodeWrite 0x000000#22 d
  | .rdStatus => encodeRead 0x000004#22
  | .wrStatus d => encodeWrite 0x000004#22 d
  | .rdIrqEn => encodeRead 0x000008#22
  | .wrIrqEn d => encodeWrite 0x000008#22 d
  | .rdCfg => encodeRead 0x00000C#22
  | .wrCfg d => encodeWrite 0x00000C#22 d
  | .rdBinK => encodeRead 0x000010#22
  | .wrBinK d => encodeWrite 0x000010#22 d
  | .rdCalLo => encodeRead 0x000018#22
  | .wrCalLo d => encodeWrite 0x000018#22 d
  | .rdCalHi => encodeRead 0x00001C#22
  | .wrCalHi d => encodeWrite 0x00001C#22 d
  | .rdPhaseLo => encodeRead 0x000020#22
  | .wrPhaseLo d => encodeWrite 0x000020#22 d
  | .rdPhaseHi => encodeRead 0x000024#22
  | .wrPhaseHi d => encodeWrite 0x000024#22 d
  | .rdBuf e => encodeRead (bufAddr e)
  | .wrBuf e d => encodeWrite (bufAddr e) d
  | .rdWinFt n => encodeRead (winFtAddr n)
  | .wrWinFt n d => encodeWrite (winFtAddr n) d
  | .rdWinHn n => encodeRead (winHnAddr n)
  | .wrWinHn n d => encodeWrite (winHnAddr n) d
  | .unmapped we a d => .hostbus (selector we a) d
  | .nop => .cmd 0#32
  | .transform => .cmd 1#32
  | .phase => .cmd 2#32
  | .reservedCmd w => .cmd w

/-- The input that an opcode-table word of `nbits` bits stands for (log 3). Up to 24 bits it is a
HOSTBUS row's selector, with WDATA = 0; up to 32 bits a CMD row's command word; up to 56 bits a selector
in the first three bytes and WDATA in the four after them, each in little-endian byte order (R86). Bit 23
is no bit of a selector and must be 0. -/
def encodedOfTableWord (nbits w : Nat) : Option Encoded :=
  if 2 ^ nbits ≤ w then none
  else if nbits ≤ 24 then
    if w < 2 ^ 23 then some (.hostbus (BitVec.ofNat 23 w) 0#32) else none
  else if nbits ≤ 32 then some (.cmd (BitVec.ofNat 32 w))
  else if nbits ≤ 56 then
    if w % 2 ^ 24 < 2 ^ 23 then
      some (.hostbus (BitVec.ofNat 23 (w % 2 ^ 24)) (BitVec.ofNat 32 (w / 2 ^ 24)))
    else none
  else none

/-- The instruction the decoder reads from an opcode-table word, in the default build. -/
def decodeTableWord (nbits w : Nat) : Option Instr :=
  (encodedOfTableWord nbits w).map (decode Config.default.log2n)

end Sys2Proof
end

