-- ==== Sys2Proof/Machine/State.lean ====
section
/-! DEFINITION. The state of the machine as plain data, its reset value, and the reasons a step can stop. -/

namespace Sys2Proof.Machine

/-- The bytes of the RAM that have been written, by byte address of the host address space (R80, R83,
R86). An address that is not listed is unwritten (R51): it has no value. -/
abbrev Memory := List Host.Cell

/-- The canonical form: addresses strictly rising, so that equal memories are equal lists. An unlisted
address reads as no value, so no entry can equal what an unlisted address reads as. -/
abbrev Memory.wf (m : Memory) : Prop := m.Pairwise (fun x y => x.1 < y.1)

/-- CUR_OP, the command the engine runs (R54). -/
inductive Op where
  | transform
  | phase
deriving DecidableEq, Repr

/-- RESP, the response of a host transaction (R111). -/
inductive Resp where
  /-- OKAY = 0 -/
  | okay
  /-- ERROR = 1 -/
  | error
deriving DecidableEq, Repr

/-- What can happen next (log 1): a host transaction or command word (R280, R110), the engine's step
(R6), a reset (R350). -/
inductive Event where
  | host (e : Encoded)
  | engine
  | reset
deriving DecidableEq, Repr

/-- The FFTPC state: exactly the record of R30. -/
structure Block where
  /-- STATUS.BUSY (R36) -/
  busy : Bool
  /-- CUR_OP, latched at acceptance (R54) -/
  curOp : Op
  /-- LK, BIN_K latched at the acceptance of PHASE (R54) -/
  lk : Word
  /-- LCAL, CAL latched at the acceptance of PHASE (R54) -/
  lcal : WBits
  /-- STATUS.DONE (R37) -/
  done : Bool
  /-- STATUS.ERR_CMD (R38) -/
  errCmd : Bool
  /-- STATUS.ERR_BUSY (R39) -/
  errBusy : Bool
  /-- STATUS.ERR_ADDR (R40) -/
  errAddr : Bool
  /-- STATUS.OOR (R41) -/
  oor : Bool
  /-- STATUS.UND (R42) -/
  und : Bool
  /-- STATUS.NF (R43) -/
  nf : Bool
  /-- IRQ_EN.DONE_IE (R45) -/
  doneIe : Bool
  /-- IRQ_EN.ERR_IE (R45) -/
  errIe : Bool
  /-- BIN_K (R47) -/
  binK : Word
  /-- CAL = CAL_HI ++ CAL_LO (R48) -/
  cal : WBits
  /-- PHASE = PHASE_HI ++ PHASE_LO (R49) -/
  phase : WBits
  /-- BUF, the sample buffer RAM (R50, R51) -/
  buf : Memory
deriving DecidableEq, Repr

/-- What one step of the machine reads and answers: the state of FFTPC, which is `Block` (R30), and what
`step : State → …` has no other place for (log 1): the parameters of the step relation, the answer of the
last transaction, and the inputs to come. The step relation itself is `Block.step cfg`, over the record. -/
structure State extends Block where
  /-- The build parameters (R7 to R9, R156). No step writes them. -/
  cfg : Config
  /-- RESP of the last host transaction (R111, R280) -/
  resp : Resp
  /-- RDATA of the last host transaction (R111, R280) -/
  rdata : Word
  /-- What happens next, the first event first; data from outside the block -/
  events : List Event
deriving DecidableEq, Repr

/-- The state after reset of a build (R57, R350), with the events that come after it. The latches and
the port fields `resp` and `rdata` have no value in the spec (log 4). -/
def State.resetOf (cfg : Config) (events : List Event) : State where
  cfg := cfg
  busy := false
  curOp := .transform
  lk := 0#32
  lcal := 0#64
  done := false
  errCmd := false
  errBusy := false
  errAddr := false
  oor := false
  und := false
  nf := false
  doneIe := false
  errIe := false
  binK := 0#32
  cal := 0#64
  phase := 0#64
  buf := []
  resp := .okay
  rdata := 0#32
  events := events

/-- The machine right after reset, in the default build, with nothing pending. -/
def State.reset : State := State.resetOf Config.default []

/-- The model faults of R51: the step is undefined, and a proof must show that it does not happen. All
are safe: the hardware goes on with unspecified bits. -/
inductive Fault where
  /-- RD_BUF of an unwritten element while idle (R301). Safe. -/
  | unwrittenRead
  /-- The completion of TRANSFORM with any element unwritten (R216). Safe. -/
  | unwrittenTransform
  /-- The completion of PHASE whose bin elements are unwritten (R243). Safe. -/
  | unwrittenPhase
deriving DecidableEq, Repr

/-- Why a step has no meaning. -/
inductive Refusal where
  /-- The instruction has no meaning in the model yet; raised by no arm. Safe. -/
  | notModelled (mnemonic : String)
  /-- The build is rejected when the design is configured (R7, R189, R312 `InvalidArgument`, of LOG2N), or its
  EPS or ATAN2_ULPS is outside its range, which this model treats alike (log 1); raised by `step` in a state
  whose `cfg` is not valid. Safe: no such build exists. -/
  | invalidArgument
deriving DecidableEq, Repr

/-- The outcome of a step of this machine. -/
abbrev Out := Host.Outcome State Fault Refusal

end Sys2Proof.Machine
end

