-- ==== Sys2Proof/Machine/Flags.lean ====
section
/-! DEFINITION. The flag computations: the words that STATUS, IRQ_EN and CFG read as, the write-1-to-clear
of STATUS, the conditions and their flags, and the interrupt output. -/

namespace Sys2Proof.Machine

/-- The conditions that set a STATUS error flag (R311). The code of a condition is the number of its
STATUS bit. -/
inductive Condition where
  /-- CommandError, code 2, ERR_CMD -/
  | command
  /-- BusyError, code 3, ERR_BUSY -/
  | busy
  /-- AddressError, code 4, ERR_ADDR -/
  | address
deriving DecidableEq, Repr

/-- A flag in its place in a register word. -/
def flagAt (flag : Bool) (bit : Nat) : Word := BitVec.ofNat 32 (flag.toNat <<< bit)

/-- The STATUS word (R35, R285); the reserved bits read 0 (R44). -/
def statusWord (s : State) : Word :=
  flagAt s.busy 0 ||| flagAt s.done 1 ||| flagAt s.errCmd 2 ||| flagAt s.errBusy 3
    ||| flagAt s.errAddr 4 ||| flagAt s.oor 8 ||| flagAt s.und 9 ||| flagAt s.nf 10

/-- The IRQ_EN word (R45, R287); bits 31:2 read 0. -/
def irqEnWord (s : State) : Word := flagAt s.doneIe 0 ||| flagAt s.errIe 1

/-- The CFG word: LOG2N in bits 4:0, VERSION = 1 in bits 15:8 (R46, R289). -/
def cfgWord (s : State) : Word := BitVec.ofNat 32 (s.cfg.log2n % 2 ^ 5) ||| 0x00000100#32

/-- The write-1-to-clear of STATUS (R35, R286). -/
def clearStatus (d : Word) (s : State) : State :=
  { s with
    done := s.done && !d.getLsbD 1
    errCmd := s.errCmd && !d.getLsbD 2
    errBusy := s.errBusy && !d.getLsbD 3
    errAddr := s.errAddr && !d.getLsbD 4 }

/-- A condition sets its flag, whatever the old value (R313). -/
def setFlag (c : Condition) (s : State) : State :=
  match c with
  | .command => { s with errCmd := true }
  | .busy => { s with errBusy := true }
  | .address => { s with errAddr := true }

/-- The interrupt output, a level (R56, R320). -/
def irq (s : State) : Bool :=
  (s.done && s.doneIe) || ((s.errCmd || s.errBusy || s.errAddr) && s.errIe)

end Sys2Proof.Machine
end

