-- ==== Sys2Proof/Machine/Memory.lean ====
section
/-! DEFINITION. The buffer RAM, byte by byte: reading and writing one byte of the canonical list. -/

namespace Sys2Proof.Machine

/-- The byte at an address; `none` when it is unwritten (R51). -/
def readByte : Memory → Nat → Option Byte
  | [], _ => none
  | (key, value) :: rest, addr => if key = addr then some value else readByte rest addr

/-- Writes one byte, keeping the addresses strictly rising. -/
def writeByte : Memory → Nat → Byte → Memory
  | [], addr, byte => [(addr, byte)]
  | (key, value) :: rest, addr, byte =>
    if addr < key then (addr, byte) :: (key, value) :: rest
    else if addr = key then (addr, byte) :: rest
    else (key, value) :: writeByte rest addr byte

/-- The word at a byte address, byte lane j at address + j (R86); `none` unless all four bytes are
written. -/
def readWord (m : Memory) (addr : Nat) : Option Word :=
  match readByte m addr, readByte m (addr + 1), readByte m (addr + 2), readByte m (addr + 3) with
  | some b0, some b1, some b2, some b3 => some (b3 ++ b2 ++ b1 ++ b0)
  | _, _, _, _ => none

/-- Writes a word at a byte address, byte lane j carrying bits 8j+7 to 8j (R86). -/
def writeWord (m : Memory) (addr : Nat) (w : Word) : Memory :=
  writeByte
    (writeByte
      (writeByte (writeByte m addr (w.extractLsb' 0 8)) (addr + 1) (w.extractLsb' 8 8))
      (addr + 2) (w.extractLsb' 16 8))
    (addr + 3) (w.extractLsb' 24 8)

end Sys2Proof.Machine
end

