-- ==== Sys2Proof/Machine/Operands.lean ====
section
/-! DEFINITION. The operand forms (R116): buffer elements by index, complex pairs, the halves of the
64-bit registers. The fields ADDR[18:2] and ADDR[17:2] are taken out of the address in `Decode.lean`. -/

namespace Sys2Proof.Machine

/-- A complex value: (re, im), two consecutive buffer elements (R50, R158). -/
abbrev Pair := SBits × SBits

/-- The byte address of buffer element `e` (R81, R83). -/
def elementAddr (e : Nat) : Nat := 0x100000 + 4 * e

/-- BUF[e] (R50); `none` when the element is unwritten (R51). -/
def readElement (m : Memory) (e : Nat) : Option Word := readWord m (elementAddr e)

/-- BUF[e] <- w (R14) -/
def writeElement (m : Memory) (e : Nat) (w : Word) : Memory := writeWord m (elementAddr e) w

/-- Pair i: (BUF[2i], BUF[2i+1]) (R50); `none` when either is unwritten. -/
def readPair (m : Memory) (i : Nat) : Option Pair :=
  match readElement m (2 * i), readElement m (2 * i + 1) with
  | some re, some im => some (re, im)
  | _, _ => none

/-- `count` pairs from pair i on; `none` when any element of them is unwritten. -/
def readPairs (m : Memory) : Nat → Nat → Option (List Pair)
  | _, 0 => some []
  | i, count + 1 =>
    match readPair m i, readPairs m (i + 1) count with
    | some pair, some rest => some (pair :: rest)
    | _, _ => none

/-- Writes a list of pairs from pair i on. -/
def writePairs (m : Memory) : Nat → List Pair → Memory
  | _, [] => m
  | i, pair :: rest =>
    writePairs (writeElement (writeElement m (2 * i) pair.1) (2 * i + 1) pair.2) (i + 1) rest

/-- Bits 31:0 of a 64-bit register, at the lower address (R86). -/
def lowHalf (v : WBits) : Word := v.extractLsb' 0 32

/-- Bits 63:32 of a 64-bit register (R86). -/
def highHalf (v : WBits) : Word := v.extractLsb' 32 32

/-- A 64-bit register from its halves, HI ++ LO (R12). -/
def joinHalves (high low : Word) : WBits := high ++ low

end Sys2Proof.Machine
end

