-- ==== Sys2Proof/Machine/Ops.lean ====
section
/-! DEFINITION. The named operations that the meanings share: the response of a transaction, `raise`
(the one way a transaction reports an error; FFTPC has no trap and nothing to return from, R325), a
command word at CTRL, acceptance and completion of a command. -/

namespace Sys2Proof.Machine

/-- Returns (RESP, RDATA) to the host (R111, R280). -/
def respond (r : Resp) (d : Word) (s : State) : State := { s with resp := r, rdata := d }

/-- A read that succeeds: RDATA <- d, RESP <- OKAY; no flag and no other effect (R91). -/
def readOkay (d : Word) (s : State) : Out := .next (respond .okay d s)

/-- A write that succeeds: RESP <- OKAY, RDATA = 0 (R111). -/
def writeOkay (s : State) : Out := .next (respond .okay 0#32 s)

/-- `raise` for a bus transaction (R15): the condition's flag is set, the response is ERROR with read
data 0, and nothing else changes. The `info` of `raise` is recorded nowhere (R311). -/
def raise (c : Condition) (s : State) : Out := .next (respond .error 0#32 (setFlag c s))

/-- A CTRL write (R282): while BUSY the word is ignored and ERR_BUSY is set; otherwise the word has its
effect. The response is OKAY either way. -/
def ctrlWrite (effect : State → State) (s : State) : Out :=
  if s.busy then writeOkay (setFlag .busy s) else writeOkay (effect s)

/-- Acceptance of a command (R282, R54): CUR_OP is latched, and for PHASE also LK <- BIN_K and
LCAL <- CAL; then BUSY <- 1, DONE <- 0. -/
def accept (op : Op) (s : State) : State :=
  match op with
  | .transform => { s with curOp := .transform, busy := true, done := false }
  | .phase => { s with curOp := .phase, lk := s.binK, lcal := s.cal, busy := true, done := false }

/-- The effect of a command word written while idle (R282, R114, R115). -/
def commandEffect (w : Word) (s : State) : State :=
  if w = 0#32 then s
  else if w = 1#32 then accept .transform s
  else if w = 2#32 then accept .phase s
  else setFlag .command s

/-- The end of every completion step (R217, R250): BUSY <- 0, DONE <- 1. -/
def complete (s : State) : State := { s with busy := false, done := true }

end Sys2Proof.Machine
end

