-- ==== Sys2Proof/Machine/Command.lean ====
section
/-! DEFINITION. The meanings of the command words (30_encoding.md R114, R115): what delivering the word to
CTRL does. What an accepted command computes is its completion step, in `Transform.lean` and
`Phase.lean`. -/

namespace Sys2Proof.Machine

/-- NOP (R283): while idle, nothing. -/
def execNop (s : State) : Out := ctrlWrite (fun idle => idle) s

/-- TRANSFORM (R200, R282): while idle, acceptance; the result comes with `completeTransform`. -/
def execTransform (s : State) : Out := ctrlWrite (accept .transform) s

/-- PHASE (R240, R282): while idle, acceptance with the operands latched; the result comes with
`completePhase`. -/
def execPhase (s : State) : Out := ctrlWrite (accept .phase) s

/-- A reserved command word (R284): while idle, CommandError, a flag alone. -/
def execReservedCmd (_word : Word) (s : State) : Out := ctrlWrite (setFlag .command) s

end Sys2Proof.Machine
end

