-- ==== Sys2Proof/Machine/HostAccess.lean ====
section
/-! DEFINITION. The meanings of the host transactions on registers and the buffer, and of the address
errors (44_host_access.md R281 to R304), except those of the command words. -/

namespace Sys2Proof.Machine

/-- MISALIGNED, ADDR[1:0] = 01 (R304): AddressError; nothing is read or written. -/
def execMisaligned01 (_we : Bool) (_wordAddr : BitVec 20) (_wdata : Word) (s : State) : Out :=
  raise .address s

/-- MISALIGNED, ADDR[1:0] = 10 (R304). -/
def execMisaligned10 (_we : Bool) (_wordAddr : BitVec 20) (_wdata : Word) (s : State) : Out :=
  raise .address s

/-- MISALIGNED, ADDR[1:0] = 11 (R304). -/
def execMisaligned11 (_we : Bool) (_wordAddr : BitVec 20) (_wdata : Word) (s : State) : Out :=
  raise .address s

/-- RD_CTRL (R281): CTRL stores nothing and reads 0. -/
def execRdCtrl (s : State) : Out := readOkay 0#32 s

/-- WR_CTRL (R282). -/
def execWrCtrl (wdata : Word) (s : State) : Out := ctrlWrite (commandEffect wdata) s

/-- RD_STATUS (R285): a read clears nothing. -/
def execRdStatus (s : State) : Out := readOkay (statusWord s) s

/-- WR_STATUS (R286): write 1 to clear. -/
def execWrStatus (wdata : Word) (s : State) : Out := writeOkay (clearStatus wdata s)

/-- RD_IRQ_EN (R287). -/
def execRdIrqEn (s : State) : Out := readOkay (irqEnWord s) s

/-- WR_IRQ_EN (R288): bits 31:2 are ignored. -/
def execWrIrqEn (wdata : Word) (s : State) : Out :=
  writeOkay { s with doneIe := wdata.getLsbD 0, errIe := wdata.getLsbD 1 }

/-- RD_CFG (R289). -/
def execRdCfg (s : State) : Out := readOkay (cfgWord s) s

/-- WR_CFG (R290): a write to a read-only register. -/
def execWrCfg (_wdata : Word) (s : State) : Out := raise .address s

/-- RD_BIN_K (R291): the register, not the latch LK. -/
def execRdBinK (s : State) : Out := readOkay s.binK s

/-- WR_BIN_K (R292): allowed while BUSY; the running command keeps its latch. -/
def execWrBinK (wdata : Word) (s : State) : Out := writeOkay { s with binK := wdata }

/-- RD_CAL_LO (R293). -/
def execRdCalLo (s : State) : Out := readOkay (lowHalf s.cal) s

/-- WR_CAL_LO (R294): CAL[31:0] <- WDATA. -/
def execWrCalLo (wdata : Word) (s : State) : Out :=
  writeOkay { s with cal := joinHalves (highHalf s.cal) wdata }

/-- RD_CAL_HI (R295). -/
def execRdCalHi (s : State) : Out := readOkay (highHalf s.cal) s

/-- WR_CAL_HI (R296): CAL[63:32] <- WDATA. -/
def execWrCalHi (wdata : Word) (s : State) : Out :=
  writeOkay { s with cal := joinHalves wdata (lowHalf s.cal) }

/-- RD_PHASE_LO (R297): allowed while BUSY, with the previous result. -/
def execRdPhaseLo (s : State) : Out := readOkay (lowHalf s.phase) s

/-- WR_PHASE_LO (R299): a write to a read-only register. -/
def execWrPhaseLo (_wdata : Word) (s : State) : Out := raise .address s

/-- RD_PHASE_HI (R298): allowed while BUSY, with the previous result. -/
def execRdPhaseHi (s : State) : Out := readOkay (highHalf s.phase) s

/-- WR_PHASE_HI (R300): a write to a read-only register. -/
def execWrPhaseHi (_wdata : Word) (s : State) : Out := raise .address s

/-- RD_BUF (R301): BusyError while BUSY; a model fault when the element is unwritten (R51). -/
def execRdBuf (e : BitVec 17) (s : State) : Out :=
  if s.busy then raise .busy s
  else
    match readElement s.buf e.toNat with
    | none => .fault .unwrittenRead
    | some d => readOkay d s

/-- WR_BUF (R302): BusyError while BUSY; otherwise the pattern is stored as it is (R87). -/
def execWrBuf (e : BitVec 17) (wdata : Word) (s : State) : Out :=
  if s.busy then raise .busy s
  else writeOkay { s with buf := writeElement s.buf e.toNat wdata }

/-- UNMAPPED (R303): AddressError, also while BUSY. -/
def execUnmapped (_we : Bool) (_addr : Addr) (_wdata : Word) (s : State) : Out := raise .address s

end Sys2Proof.Machine
end

