-- ==== Sys2Proof/Machine/Numerics.lean ====
section
/-! DEFINITION. The number formats S and W and the arithmetic primitives on their patterns
(40_numerics.md R140 to R152). Every primitive computes exactly on integers and rounds once (R149). -/

namespace Sys2Proof.Machine

/-- The value classes of R140 and R141. `fin neg mant exp` is the real number
(−1)^neg · mant · 2^exp, where `fin neg 0 _` is the signed zero. -/
inductive Num where
  | nan
  | inf (neg : Bool)
  | fin (neg : Bool) (mant : Nat) (exp : Int)
deriving DecidableEq, Repr

/-- The real value of a finite number (R140, R141), used in statements; 0 for the others. -/
def Num.value : Num → ℚ
  | .fin neg mant exp => (if neg then -1 else 1) * mant * 2 ^ exp
  | _ => 0

/-- The pattern of +∞ in S, without its sign: E = 255, F = 0 (R140). -/
def infMagS : Nat := 255 * 2 ^ 23

/-- The pattern of +∞ in W, without its sign: E = 2047, F = 0 (R141). -/
def infMagW : Nat := 2047 * 2 ^ 52

/-- The canonical NaN of S (R142). -/
def nanS : SBits := 0x7FC00000#32

/-- The canonical NaN of W (R142). -/
def nanW : WBits := 0x7FF8000000000000#64

/-- The number an S pattern stands for (R140). -/
def numOfS (v : SBits) : Num :=
  let biased : Nat := v.toNat / 2 ^ 23 % 256
  let fraction : Nat := v.toNat % 2 ^ 23
  if biased = 255 then (if fraction = 0 then .inf v.msb else .nan)
  else if biased = 0 then .fin v.msb fraction (-149)
  else .fin v.msb (2 ^ 23 + fraction) ((biased : Int) - 150)

/-- The number a W pattern stands for (R141). -/
def numOfW (v : WBits) : Num :=
  let biased : Nat := v.toNat / 2 ^ 52 % 2048
  let fraction : Nat := v.toNat % 2 ^ 52
  if biased = 2047 then (if fraction = 0 then .inf v.msb else .nan)
  else if biased = 0 then .fin v.msb fraction (-1074)
  else .fin v.msb (2 ^ 52 + fraction) ((biased : Int) - 1075)

/-- mant / 2^k to the nearest integer, ties to even (R143). -/
def rneShift (mant k : Nat) : Nat :=
  let quotient := mant / 2 ^ k
  let rest := mant % 2 ^ k
  if 2 * rest < 2 ^ k then quotient
  else if 2 * rest = 2 ^ k then quotient + quotient % 2
  else quotient + 1

/-- The pattern, without its sign, of mant · 2^exp rounded to nearest, ties to even (R143, R146, R148),
in the format with `prec` significand bits and least exponent `least`. `quantum` is the exponent of the
last significand bit of the result. The significand is added to the exponent field, so that a carry out
of it enters the exponent, and a subnormal has field 0. A result that reaches the pattern of infinity is
infinity: that is the overflow threshold. -/
def roundMag (prec : Nat) (least : Int) (infMag mant : Nat) (exp : Int) : Nat :=
  if mant = 0 then 0
  else
    let quantum := max (exp + (Nat.log2 mant + 1 : Nat) - prec) least
    let significand :=
      if quantum ≤ exp then mant * 2 ^ (exp - quantum).toNat
      else rneShift mant (quantum - exp).toNat
    min ((quantum - least).toNat * 2 ^ (prec - 1) + significand) infMag

/-- The S pattern with the sign and the magnitude given. -/
def packS (neg : Bool) (mag : Nat) : SBits := BitVec.ofNat 32 ((if neg then 2 ^ 31 else 0) + mag)

/-- The W pattern with the sign and the magnitude given. -/
def packW (neg : Bool) (mag : Nat) : WBits := BitVec.ofNat 64 ((if neg then 2 ^ 63 else 0) + mag)

/-- The magnitude of RNE32 of mant · 2^exp (R146, R150). -/
def roundMagS (mant : Nat) (exp : Int) : Nat := roundMag 24 (-149) infMagS mant exp

/-- The magnitude of RNE64 of mant · 2^exp (R148, R150). -/
def roundMagW (mant : Nat) (exp : Int) : Nat := roundMag 53 (-1074) infMagW mant exp

/-- The S pattern of a number, rounded (R146); a result that rounds to zero keeps its sign. -/
def roundS : Num → SBits
  | .nan => nanS
  | .inf neg => packS neg infMagS
  | .fin neg mant exp => packS neg (roundMagS mant exp)

/-- The W pattern of a number, rounded (R148). -/
def roundW : Num → WBits
  | .nan => nanW
  | .inf neg => packW neg infMagW
  | .fin neg mant exp => packW neg (roundMagW mant exp)

/-- The number with the other sign. -/
def Num.negate : Num → Num
  | .nan => .nan
  | .inf neg => .inf !neg
  | .fin neg mant exp => .fin (!neg) mant exp

/-- The mantissa at the scale `scale` ≤ `exp`, with its sign. -/
def signedMant (neg : Bool) (mant : Nat) (exp scale : Int) : Int :=
  if neg then -((mant * 2 ^ (exp - scale).toNat : Nat) : Int)
  else ((mant * 2 ^ (exp - scale).toNat : Nat) : Int)

/-- The exact sum (R147). An exact zero is +0 unless both operands are −0. -/
def Num.add : Num → Num → Num
  | .nan, _ => .nan
  | _, .nan => .nan
  | .inf a, .inf b => if a = b then .inf a else .nan
  | .inf a, .fin _ _ _ => .inf a
  | .fin _ _ _, .inf b => .inf b
  | .fin a m e, .fin b n f =>
    let scale := min e f
    let sum := signedMant a m e scale + signedMant b n f scale
    if sum = 0 then .fin (a && b) 0 scale else .fin (decide (sum < 0)) sum.natAbs scale

/-- The exact product (R148); its sign is the exclusive or of the operands' signs. -/
def Num.mul : Num → Num → Num
  | .nan, _ => .nan
  | _, .nan => .nan
  | .inf a, .inf b => .inf (a ^^ b)
  | .inf a, .fin b n _ => if n = 0 then .nan else .inf (a ^^ b)
  | .fin a m _, .inf b => if m = 0 then .nan else .inf (a ^^ b)
  | .fin a m e, .fin b n f => .fin (a ^^ b) (m * n) (e + f)

/-- toW (R145) -/
def toW (s : SBits) : WBits := roundW (numOfS s)

/-- toS (R146) -/
def toS (w : WBits) : SBits := roundS (numOfW w)

/-- addS (R147) -/
def addS (a b : SBits) : SBits := roundS ((numOfS a).add (numOfS b))

/-- subS (R147) -/
def subS (a b : SBits) : SBits := roundS ((numOfS a).add (numOfS b).negate)

/-- addW (R148) -/
def addW (a b : WBits) : WBits := roundW ((numOfW a).add (numOfW b))

/-- subW (R148) -/
def subW (a b : WBits) : WBits := roundW ((numOfW a).add (numOfW b).negate)

/-- mulW (R148) -/
def mulW (a b : WBits) : WBits := roundW ((numOfW a).mul (numOfW b))

/-- isFinite (R151) -/
def Num.isFinite : Num → Bool
  | .fin _ _ _ => true
  | _ => false

/-- |x| < |y| on the real absolute values, exactly (R151): false when x is a NaN or an infinity. -/
def Num.magLt : Num → Num → Bool
  | .fin _ m e, .fin _ n f =>
    let scale := min e f
    decide (m * 2 ^ (e - scale).toNat < n * 2 ^ (f - scale).toNat)
  | _, _ => false

/-- The exact remainder of x by y, with the sign of x (R152), for finite x and finite non-zero y; a NaN
for the operands R152 does not define, which no command gives it (log 8). -/
def Num.fmod : Num → Num → Num
  | .fin a m e, .fin _ n f =>
    let scale := min e f
    if n = 0 then .nan
    else .fin a (m * 2 ^ (e - scale).toNat % (n * 2 ^ (f - scale).toNat)) scale
  | _, _ => .nan

/-- fmodW (R152): the remainder is representable, so this rounding changes nothing. -/
def fmodW (x y : WBits) : WBits := roundW ((numOfW x).fmod (numOfW y))

/-- x < 0 for a W value. -/
def isNegative (x : WBits) : Bool :=
  match numOfW x with
  | .fin neg mant _ => neg && decide (mant ≠ 0)
  | .inf neg => neg
  | .nan => false

/-- x = 0, of either sign, for a W value. -/
def isZero (x : WBits) : Bool :=
  match numOfW x with
  | .fin _ mant _ => decide (mant = 0)
  | _ => false

end Sys2Proof.Machine
end

