-- ==== Sys2Proof/Machine/Roms.lean ====
section
/-! DEFINITION. The read-only memories: the window banks WIN_FT and WIN_HN (41_window.md R180 to R184)
and the twiddle seeds SEED (42_transform.md R205). They are fixed by the build and are not state (R30). -/

namespace Sys2Proof.Machine

/-- ⌊π · 2^512⌋ (log 7). -/
def piFixed : Nat :=
  0x3243f6a8885a308d313198a2e03707344a4093822299f31d0082efa98ec4e6c89452821e638d01377be5466cf34e90c6cc0ac29b7c97c50dd3f84d5b5b5470917

/-- The fraction bits of the fixed-point cosine (log 7). -/
def windowBits : Nat := 192

/-- The alternating terms of the cosine series at the scale of `windowBits`: `square` is θ², `term` the
magnitude of the k-th term. -/
def cosSum (square : Nat) : Nat → Nat → Nat → Int → Int
  | 0, _, _, sum => sum
  | fuel + 1, k, term, sum =>
    if term = 0 then sum
    else
      cosSum square fuel (k + 1)
        (term * square / 2 ^ windowBits / ((2 * k + 1) * (2 * k + 2)))
        (if k % 2 = 0 then sum + term else sum - term)

/-- cos(2π · num/den) at the scale of `windowBits`, for 0 ≤ num/den ≤ 1/2. -/
def cosTurn (num den : Nat) : Int :=
  let angle := 2 * (piFixed / 2 ^ (512 - windowBits)) * num / den
  cosSum (angle * angle / 2 ^ windowBits) 80 0 (2 ^ windowBits) 0

/-- RNE32 of fixed / divisor at the scale of `windowBits` (R150, R184). -/
def roundFixedS (fixed : Int) (divisor : Nat) : SBits :=
  packS (decide (fixed < 0)) (roundMagS (fixed.natAbs / divisor) (-(windowBits : Int)))

/-- The index in the first half of the bank with the same coefficient: the cosines of θ(n) and of
θ(N−1−n) are equal (R185). -/
def windowIndex (log2n n : Nat) : Nat := min n (2 ^ log2n - 1 - n)

/-- WIN_FT[n] = RNE32(a0 − a1·cos θ + a2·cos 2θ − a3·cos 3θ + a4·cos 4θ), θ = 2πn/(N−1), with the exact
decimal constants of R182, here in thousandths (R180, R184); +0 where the exact value is 0. -/
def winFt (log2n n : Nat) : SBits :=
  let i := windowIndex log2n n
  if i = 0 then 0#32
  else
    let one : Int := 2 ^ windowBits
    let c := cosTurn i (2 ^ log2n - 1)
    let c2 := 2 * c * c / one - one
    let c3 := 4 * c * c / one * c / one - 3 * c
    let c4 := 2 * c2 * c2 / one - one
    roundFixedS (1000 * one - 1930 * c + 1290 * c2 - 388 * c3 + 28 * c4) 1000

/-- WIN_HN[n] = RNE32(0.5·(1 − cos θ)), θ = 2πn/(N−1) (R181, R184); +0 where the exact value is 0. -/
def winHn (log2n n : Nat) : SBits :=
  let i := windowIndex log2n n
  if i = 0 then 0#32
  else roundFixedS (2 ^ windowBits - cosTurn i (2 ^ log2n - 1)) 2

/-- A twiddle factor or a seed: a pair of W values (R158, R53). -/
abbrev Twiddle := WBits × WBits

/-- The table of R205, rows p = 0 to 15: (WPR[p], WPI[p]). -/
def seedTable : List Twiddle :=
  [ (0xC000000000000000#64, 0x0000000000000000#64),
    (0xBFF0000000000000#64, 0xBFF0000000000000#64),
    (0xBFD2BEC333018867#64, 0xBFE6A09E667F3BCD#64),
    (0xBFB37CA1866B95CF#64, 0xBFD87DE2A6AEA963#64),
    (0xBF93AD06011469FB#64, 0xBFC8F8B83C69A60B#64),
    (0xBF73B92E176D6D31#64, 0xBFB917A6BC29B42C#64),
    (0xBF53BC390D250439#64, 0xBFA91F65F10DD814#64),
    (0xBF33BCFBD9979A27#64, 0xBF992155F7A3667E#64) ]
  ++
  [ (0xBF13BD2C8DA49511#64, 0xBF8921D1FCDEC784#64),
    (0xBEF3BD38BAB6D94C#64, 0xBF7921F0FE670071#64),
    (0xBED3BD3BC5FC5AB4#64, 0xBF6921F8BECCA4BA#64),
    (0xBEB3BD3C88CDCA13#64, 0xBF5921FAAEE6472E#64),
    (0xBE93BD3CB98226DC#64, 0xBF4921FB2AECB360#64),
    (0xBE73BD3CC5AF3E1D#64, 0xBF3921FB49EE4EA6#64),
    (0xBE53BD3CC8BA83EE#64, 0xBF2921FB51AEB57C#64),
    (0xBE33BD3CC97D5562#64, 0xBF1921FB539ECF31#64) ]

/-- SEED[p] (R53). A build with LOG2N = L holds rows 0 to L − 1, and only these are read. -/
def seed (p : Nat) : Twiddle := seedTable.getD p (0#64, 0#64)

end Sys2Proof.Machine
end

