-- ==== Sys2Proof/Machine/Window.lean ====
section
/-! DEFINITION. The meanings of the window ROM transactions (41_window.md R186, R187, R190). -/

namespace Sys2Proof.Machine

/-- RD_WIN_FT (R186): allowed while BUSY. -/
def execRdWinFt (n : BitVec 16) (s : State) : Out := readOkay (winFt s.cfg.log2n n.toNat) s

/-- RD_WIN_HN (R187): allowed while BUSY. -/
def execRdWinHn (n : BitVec 16) (s : State) : Out := readOkay (winHn s.cfg.log2n n.toNat) s

/-- WR_WIN on the Flat-Top bank (R190): AddressError; the ROM is unchanged. -/
def execWrWinFt (_n : BitVec 16) (_wdata : Word) (s : State) : Out := raise .address s

/-- WR_WIN on the Hann bank (R190). -/
def execWrWinHn (_n : BitVec 16) (_wdata : Word) (s : State) : Out := raise .address s

end Sys2Proof.Machine
end

