-- ==== Sys2Proof/Machine/Dispatch.lean ====
section
/-! DEFINITION. One arm per instruction. -/

namespace Sys2Proof.Machine

def exec (i : Instr) (s : State) : Host.Outcome State Fault Refusal :=
  match i with
  | .misaligned01 we a d => Sys2Proof.Machine.execMisaligned01 we a d s
  | .misaligned10 we a d => Sys2Proof.Machine.execMisaligned10 we a d s
  | .misaligned11 we a d => Sys2Proof.Machine.execMisaligned11 we a d s
  | .rdCtrl => Sys2Proof.Machine.execRdCtrl s
  | .wrCtrl d => Sys2Proof.Machine.execWrCtrl d s
  | .rdStatus => Sys2Proof.Machine.execRdStatus s
  | .wrStatus d => Sys2Proof.Machine.execWrStatus d s
  | .rdIrqEn => Sys2Proof.Machine.execRdIrqEn s
  | .wrIrqEn d => Sys2Proof.Machine.execWrIrqEn d s
  | .rdCfg => Sys2Proof.Machine.execRdCfg s
  | .wrCfg d => Sys2Proof.Machine.execWrCfg d s
  | .rdBinK => Sys2Proof.Machine.execRdBinK s
  | .wrBinK d => Sys2Proof.Machine.execWrBinK d s
  | .rdCalLo => Sys2Proof.Machine.execRdCalLo s
  | .wrCalLo d => Sys2Proof.Machine.execWrCalLo d s
  | .rdCalHi => Sys2Proof.Machine.execRdCalHi s
  | .wrCalHi d => Sys2Proof.Machine.execWrCalHi d s
  | .rdPhaseLo => Sys2Proof.Machine.execRdPhaseLo s
  | .wrPhaseLo d => Sys2Proof.Machine.execWrPhaseLo d s
  | .rdPhaseHi => Sys2Proof.Machine.execRdPhaseHi s
  | .wrPhaseHi d => Sys2Proof.Machine.execWrPhaseHi d s
  | .rdBuf e => Sys2Proof.Machine.execRdBuf e s
  | .wrBuf e d => Sys2Proof.Machine.execWrBuf e d s
  | .rdWinFt n => Sys2Proof.Machine.execRdWinFt n s
  | .wrWinFt n d => Sys2Proof.Machine.execWrWinFt n d s
  | .rdWinHn n => Sys2Proof.Machine.execRdWinHn n s
  | .wrWinHn n d => Sys2Proof.Machine.execWrWinHn n d s
  | .unmapped we a d => Sys2Proof.Machine.execUnmapped we a d s
  | .nop => Sys2Proof.Machine.execNop s
  | .transform => Sys2Proof.Machine.execTransform s
  | .phase => Sys2Proof.Machine.execPhase s
  | .reservedCmd w => Sys2Proof.Machine.execReservedCmd w s

end Sys2Proof.Machine
end

