-- ==== Sys2Proof/Machine/Angle.lean ====
section
/-! DEFINITION. The angle of a point off the axes (R155): integer bounds of any precision, and how the value
of a step function at the angle is read from them. -/

namespace Sys2Proof.Machine

/-- A point off the axes with rational coordinates, up to its distance from the origin and its side of the
x axis: (den, num), or (−den, num) where `left`. Its angle (R155) lies in (0, π). -/
structure Ray where
  left : Bool
  num : Nat
  den : Nat
  num_pos : 0 < num
  den_pos : 0 < den

/-- Bounds of the sum of Euler's series of the arctangent from its term `n` on, each term ⌊·⌋ of the exact
recurrence t₀ = z/(1+z²), tₙ₊₁ = tₙ · (2n+2)/(2n+3) · z²/(1+z²). Here `top` is num², `bottom` is
num² + den² and `sum` is the sum of the first n terms, for z = num/den ≤ 1. A term is too small by less
than 2, and what follows a term is at most as much again (Arctan.lean). -/
def atanSum (top bottom : Nat) : Nat → Nat → Nat → Nat → Nat × Nat
  | 0, n, term, sum => (sum, sum + 2 * term + 2 * n + 4)
  | fuel + 1, n, term, sum =>
    if term = 0 then (sum, sum + 2 * n + 4)
    else atanSum top bottom fuel (n + 1) (term * (2 * (n + 1) * top) / ((2 * n + 3) * bottom)) (sum + term)

/-- Lower and upper bounds of arctan(num/den) · 2^bits for 0 < num ≤ den. -/
def atanBounds (bits num den : Nat) : Nat × Nat :=
  atanSum (num * num) (num * num + den * den) (bits + 1) 0
    (num * den * 2 ^ bits / (num * num + den * den)) 0

/-- Lower and upper bounds of the angle of the point, in units of 2^−bits: the angle to the nearest half
axis, with π/4 = arctan(1). -/
def Ray.bounds (r : Ray) (bits : Nat) : Nat × Nat :=
  let quarter := atanBounds bits 1 1
  let near := if r.num ≤ r.den then atanBounds bits r.num r.den else atanBounds bits r.den r.num
  if r.num ≤ r.den then
    if r.left then (4 * quarter.1 - near.2, 4 * quarter.2 - near.1) else near
  else if r.left then (2 * quarter.1 + near.1, 2 * quarter.2 + near.2)
  else (2 * quarter.1 - near.2, 2 * quarter.2 - near.1)

/-- `f mant exp` depends on the number mant · 2^exp, and changes only at finitely many rational numbers. -/
def IsStep {α : Type} (f : Nat → Int → α) : Prop :=
  ∃ cuts : Finset ℚ, ∀ (mant mant' : Nat) (exp : Int), mant ≤ mant' → f mant exp ≠ f mant' exp →
    ∃ c ∈ cuts, mant * 2 ^ exp ≤ c ∧ c ≤ mant' * 2 ^ exp

/-- The precision, in bits, of each try at the value of a step function. -/
def tryBits (k : Nat) : Nat := 320 * 2 ^ k

/-- A try at the value that a step function has at the angle: the value at both bounds, if it is one. -/
def Ray.settleAt {α : Type} [DecidableEq α] (r : Ray) (f : Nat → Int → α) (bits : Nat) : Option α :=
  let b := r.bounds bits
  let low := f b.1 (-(bits : Int))
  if low = f b.2 (-(bits : Int)) then some low else none

/-- The first of the next `fuel` tries, from try `k` on, that gives a value. -/
def Ray.settleUpTo {α : Type} [DecidableEq α] (r : Ray) (f : Nat → Int → α) : Nat → Nat → Option α
  | 0, _ => none
  | fuel + 1, k =>
    match r.settleAt f (tryBits k) with
    | some v => some v
    | none => r.settleUpTo f fuel (k + 1)

/-- The exponent of the unit in the last place of the positive number mant · 2^exp (R141): the distance of
the W values around it is 2 to that exponent. -/
def ulpExponent (mant : Nat) (exp : Int) : Int :=
  if mant = 0 then -1074 else min (max (exp + Nat.log2 mant - 52) (-1074)) 971

/-- How the number mant · 2^exp lies to `value`, with `ulps` units in the last place of the number (R156(e)):
the exponent of the unit; the number is not that far above `value`; it is not that far below. -/
def ulpTest (ulps value : ℚ) (mant : Nat) (exp : Int) : Int × Bool × Bool :=
  let ulp := ulpExponent mant exp
  (ulp, decide (mant * 2 ^ exp ≤ value + ulps * 2 ^ ulp), decide (value ≤ mant * 2 ^ exp + ulps * 2 ^ ulp))

end Sys2Proof.Machine
end

