-- ==== Sys2Proof/Machine/Arctan.lean ====
section
/-! DEFINITION. What the bounds of Angle.lean are worth: Euler's series, and the angle lies between the bounds,
which lie close together. -/

namespace Sys2Proof.Machine

/-- The coefficients of Euler's series: 1, 2/3, 2·4/(3·5), … -/
noncomputable def eulerCoeff : Nat → ℝ
  | 0 => 1
  | n + 1 => eulerCoeff n * (2 * (n + 1) / (2 * n + 3))

theorem eulerCoeff_pos (n : Nat) : 0 < eulerCoeff n := by
  induction n with
  | zero => simp [eulerCoeff]
  | succ n ih => unfold eulerCoeff; positivity

/-- The terms of Euler's series of the arctangent of `z`. -/
noncomputable def eulerTerm (z : ℝ) (n : Nat) : ℝ :=
  eulerCoeff n * z ^ (2 * n + 1) / (1 + z ^ 2) ^ (n + 1)

theorem eulerTerm_zero (z : ℝ) : eulerTerm z 0 = z / (1 + z ^ 2) := by simp [eulerTerm, eulerCoeff]

theorem eulerTerm_succ (z : ℝ) (n : Nat) :
    eulerTerm z (n + 1) = eulerTerm z n * (2 * (n + 1) / (2 * n + 3) * (z ^ 2 / (1 + z ^ 2))) := by
  have : (1 + z ^ 2) ≠ 0 := by positivity
  simp only [eulerTerm, eulerCoeff]
  field_simp
  ring

theorem eulerTerm_nonneg {z : ℝ} (hz : 0 ≤ z) (n : Nat) : 0 ≤ eulerTerm z n := by
  have := eulerCoeff_pos n
  unfold eulerTerm
  positivity

/-- What the first `n` terms leave over of the slope of the arctangent. -/
noncomputable def eulerSlope (z : ℝ) (n : Nat) : ℝ :=
  (2 * n + 1) * eulerCoeff n * z ^ (2 * n) / (1 + z ^ 2) ^ (n + 1)

theorem eulerTerm_deriv (n : Nat) (z : ℝ) :
    HasDerivAt (fun z => eulerTerm z n) (eulerSlope z n - eulerSlope z (n + 1)) z := by
  have hz : (1 + z ^ 2) ≠ 0 := by positivity
  have hden : HasDerivAt (fun z : ℝ => (1 + z ^ 2) ^ (n + 1))
      (((n + 1 : Nat) : ℝ) * (1 + z ^ 2) ^ n * (2 * z)) z := by
    simpa using ((hasDerivAt_pow 2 z).const_add 1).fun_pow (n + 1)
  refine (((hasDerivAt_pow (2 * n + 1) z).const_mul (eulerCoeff n)).div hden
    (pow_ne_zero _ hz)).congr_deriv ?_
  simp only [eulerSlope, eulerCoeff, Nat.add_sub_cancel]
  push_cast
  field_simp
  ring

/-- The arctangent without the first `n` terms has the slope that they leave over. -/
theorem arctan_sub_deriv (n : Nat) (z : ℝ) :
    HasDerivAt (fun z => Real.arctan z - ∑ i ∈ Finset.range n, eulerTerm z i) (eulerSlope z n) z := by
  induction n with
  | zero => simpa [eulerSlope, eulerCoeff] using Real.hasDerivAt_arctan z
  | succ n ih =>
    refine ((ih.sub (eulerTerm_deriv n z)).congr_deriv (by ring)).congr_of_eventuallyEq
      (Filter.Eventually.of_forall fun t => ?_)
    simp only [Finset.sum_range_succ, Pi.sub_apply]
    ring

theorem eulerSlope_nonneg (z : ℝ) (n : Nat) : 0 ≤ eulerSlope z n := by
  have := eulerCoeff_pos n
  unfold eulerSlope
  rw [pow_mul]
  positivity

theorem monotone_of_hasDerivAt {f f' : ℝ → ℝ} (h : ∀ z, HasDerivAt f (f' z) z) (h0 : ∀ z, 0 ≤ f' z) :
    Monotone f :=
  monotone_of_deriv_nonneg (fun z => (h z).differentiableAt) fun z => by rw [(h z).deriv]; exact h0 z

theorem sum_le_arctan {z : ℝ} (hz : 0 ≤ z) (n : Nat) :
    ∑ i ∈ Finset.range n, eulerTerm z i ≤ Real.arctan z := by
  have := monotone_of_hasDerivAt (arctan_sub_deriv n) (fun z => eulerSlope_nonneg z n) hz
  have h0 : ∑ i ∈ Finset.range n, eulerTerm 0 i = 0 :=
    Finset.sum_eq_zero fun i _ => by simp [eulerTerm]
  simp only [Real.arctan_zero, h0] at this
  linarith

/-- What is left over is at most (1 + z²) times the next term. -/
theorem arctan_le_sum {z : ℝ} (hz : 0 ≤ z) (n : Nat) :
    Real.arctan z ≤ (∑ i ∈ Finset.range n, eulerTerm z i) + (1 + z ^ 2) * eulerTerm z n := by
  have hd (z : ℝ) : HasDerivAt (fun z => (1 + z ^ 2) * eulerTerm z n)
      (2 * z * eulerTerm z n + (1 + z ^ 2) * (eulerSlope z n - eulerSlope z (n + 1))) z :=
    (((hasDerivAt_pow 2 z).const_add 1).mul (eulerTerm_deriv n z)).congr_deriv (by simp)
  have hslope (z : ℝ) : 0 ≤ 2 * z * eulerTerm z n + (1 + z ^ 2) * (eulerSlope z n - eulerSlope z (n + 1))
      - eulerSlope z n := by
    have hc := eulerCoeff_pos n
    have hz : (1 + z ^ 2) ≠ 0 := by positivity
    have : 2 * z * eulerTerm z n + (1 + z ^ 2) * (eulerSlope z n - eulerSlope z (n + 1))
        - eulerSlope z n = eulerCoeff n * (z ^ 2) ^ n * z ^ 2 / (1 + z ^ 2) ^ (n + 1) := by
      simp only [eulerSlope, eulerTerm, eulerCoeff, ← pow_mul]
      push_cast
      field_simp
      ring
    rw [this]
    positivity
  have := monotone_of_hasDerivAt (fun z => (hd z).sub (arctan_sub_deriv n z)) hslope hz
  have h0 : ∑ i ∈ Finset.range n, eulerTerm 0 i = 0 :=
    Finset.sum_eq_zero fun i _ => by simp [eulerTerm]
  simp only [Real.arctan_zero, Pi.sub_apply, h0] at this
  simp [eulerTerm] at this
  simp only [eulerTerm]
  linarith

/-! ### The integer bounds -/

/-- What `atanSum` knows when it is about to add term `n`: the term and the sum are too small by at most
2 and 2n, and the terms fall by halves. -/
structure SumInv (bits : Nat) (z : ℝ) (n term sum : Nat) : Prop where
  term_le : (term : ℝ) ≤ eulerTerm z n * 2 ^ bits
  term_ge : eulerTerm z n * 2 ^ bits ≤ term + 2
  sum_le : (sum : ℝ) ≤ (∑ i ∈ Finset.range n, eulerTerm z i) * 2 ^ bits
  sum_ge : (∑ i ∈ Finset.range n, eulerTerm z i) * 2 ^ bits ≤ sum + 2 * n
  small : term * 2 ^ n ≤ 2 ^ bits

/-- ⌊·⌋ of a quotient of naturals, in the reals. -/
theorem cast_div_bounds (a b : Nat) (hb : 0 < b) :
    ((a / b : Nat) : ℝ) ≤ a / b ∧ (a / b : ℝ) ≤ (a / b : Nat) + 1 := by
  refine ⟨Nat.cast_div_le, ?_⟩
  rw [div_le_iff₀ (by exact_mod_cast hb)]
  have : a ≤ (a / b + 1) * b := by
    have := Nat.lt_div_mul_add hb (a := a)
    rw [add_mul]; omega
  exact_mod_cast this

theorem SumInv.next {bits num den n term sum : Nat} (hnum : 0 < num) (hle : num ≤ den)
    (h : SumInv bits (num / den) n term sum) :
    SumInv bits (num / den) (n + 1)
      (term * (2 * (n + 1) * (num * num)) / ((2 * n + 3) * (num * num + den * den))) (sum + term) := by
  have hden : 0 < den := hnum.trans_le hle
  have hnum' : (0 : ℝ) < num := by exact_mod_cast hnum
  have hden' : (0 : ℝ) < den := by exact_mod_cast hden
  have hsq : (num : ℝ) ^ 2 ≤ den ^ 2 := by
    have : (num : ℝ) ≤ den := by exact_mod_cast hle
    gcongr
  -- the factor from one term to the next, at most a half
  let ratio : ℝ := 2 * (n + 1) / (2 * n + 3) * ((num / den : ℝ) ^ 2 / (1 + (num / den : ℝ) ^ 2))
  have hratio : ratio = 2 * (n + 1) * (num * num) / ((2 * n + 3) * (num * num + den * den)) := by
    simp only [ratio]; field_simp; ring
  have hratio0 : 0 ≤ ratio := by positivity
  have hhalf : ratio ≤ 1 / 2 := by
    rw [hratio, div_le_iff₀ (by positivity)]
    nlinarith [sq_nonneg (num : ℝ), mul_nonneg (Nat.cast_nonneg (α := ℝ) n) (sub_nonneg.2 hsq)]
  obtain ⟨hd1, hd2⟩ := cast_div_bounds (term * (2 * (n + 1) * (num * num)))
    ((2 * n + 3) * (num * num + den * den)) (by positivity)
  have hcast : ((term * (2 * (n + 1) * (num * num)) : Nat) : ℝ) /
      ((2 * n + 3) * (num * num + den * den) : Nat) = term * ratio := by
    rw [hratio]; push_cast; ring
  rw [hcast] at hd1 hd2
  have hnext : eulerTerm (num / den) (n + 1) * 2 ^ bits =
      eulerTerm (num / den) n * 2 ^ bits * ratio := by
    rw [eulerTerm_succ]; simp only [ratio]; ring
  refine ⟨?_, ?_, ?_, ?_, ?_⟩
  · rw [hnext]
    exact hd1.trans (mul_le_mul_of_nonneg_right h.term_le hratio0)
  · rw [hnext]
    have := mul_le_mul_of_nonneg_right h.term_ge hratio0
    nlinarith
  · rw [Finset.sum_range_succ, add_mul]
    push_cast
    linarith [h.sum_le, h.term_le]
  · rw [Finset.sum_range_succ, add_mul]
    push_cast
    linarith [h.sum_ge, h.term_ge]
  · have hs : (term : ℝ) * 2 ^ n ≤ 2 ^ bits := by exact_mod_cast h.small
    have : ((term * (2 * (n + 1) * (num * num)) / ((2 * n + 3) * (num * num + den * den)) : Nat) : ℝ) *
        2 ^ (n + 1) ≤ 2 ^ bits := by
      calc _ ≤ (term : ℝ) * ratio * 2 ^ (n + 1) := by gcongr
        _ ≤ (term : ℝ) * (1 / 2) * 2 ^ (n + 1) := by gcongr
        _ = (term : ℝ) * 2 ^ n := by ring
        _ ≤ _ := hs
    exact_mod_cast this

/-- The bounds of `atanSum` enclose the arctangent and lie close together. -/
theorem atanSum_spec {bits num den : Nat} (hnum : 0 < num) (hle : num ≤ den) :
    ∀ (fuel n term sum : Nat), n + fuel = bits + 1 → SumInv bits (num / den) n term sum →
      let b := atanSum (num * num) (num * num + den * den) fuel n term sum
      (b.1 : ℝ) ≤ Real.arctan (num / den) * 2 ^ bits ∧ Real.arctan (num / den) * 2 ^ bits ≤ b.2 ∧
        b.2 ≤ b.1 + 2 * bits + 6 := by
  have hz : (0 : ℝ) ≤ num / den := by positivity
  have hz1 : 1 + (num / den : ℝ) ^ 2 ≤ 2 := by
    have : (num / den : ℝ) ≤ 1 := div_le_one_of_le₀ (by exact_mod_cast hle) (by positivity)
    nlinarith
  have enclose {n term sum : Nat} (h : SumInv bits (num / den) n term sum) :
      (sum : ℝ) ≤ Real.arctan (num / den) * 2 ^ bits ∧
        Real.arctan (num / den) * 2 ^ bits ≤ (sum + 2 * term + 2 * n + 4 : Nat) := by
    have hp : (0 : ℝ) < 2 ^ bits := by positivity
    constructor
    · exact h.sum_le.trans (mul_le_mul_of_nonneg_right (sum_le_arctan hz n) hp.le)
    · have h1 := mul_le_mul_of_nonneg_right (arctan_le_sum hz n) hp.le
      have h2 : (1 + (num / den : ℝ) ^ 2) * eulerTerm (num / den) n * 2 ^ bits ≤ 2 * (term + 2) := by
        have := mul_nonneg (eulerTerm_nonneg hz n) hp.le
        nlinarith [h.term_ge]
      have := h.sum_ge
      rw [add_mul] at h1
      push_cast
      linarith
  intro fuel
  induction fuel with
  | zero =>
    intro n term sum hn h
    have hterm : term = 0 := by
      have := h.small
      by_contra hc
      have h1 : 2 ^ n ≤ term * 2 ^ n := Nat.le_mul_of_pos_left _ (Nat.pos_of_ne_zero hc)
      have h2 : 2 ^ bits < 2 ^ n := Nat.pow_lt_pow_right (by norm_num) (by omega)
      omega
    obtain ⟨h1, h2⟩ := enclose h
    simp only [atanSum]
    exact ⟨h1, h2, by omega⟩
  | succ fuel ih =>
    intro n term sum hn h
    unfold atanSum
    split
    · next h0 =>
      obtain ⟨h1, h2⟩ := enclose h
      subst h0
      exact ⟨h1, h2, by simp only; omega⟩
    · exact ih _ _ _ (by omega) (h.next hnum hle)

theorem atanBounds_spec (bits : Nat) {num den : Nat} (hnum : 0 < num) (hle : num ≤ den) :
    let b := atanBounds bits num den
    (b.1 : ℝ) ≤ Real.arctan (num / den) * 2 ^ bits ∧ Real.arctan (num / den) * 2 ^ bits ≤ b.2 ∧
      b.2 ≤ b.1 + 2 * bits + 6 := by
  have hden : 0 < den := hnum.trans_le hle
  have hden' : (den : ℝ) ≠ 0 := by exact_mod_cast hden.ne'
  refine atanSum_spec hnum hle _ _ _ _ (by omega) ?_
  obtain ⟨hd1, hd2⟩ := cast_div_bounds (num * den * 2 ^ bits) (num * num + den * den) (by positivity)
  have hfirst : ((num * den * 2 ^ bits : Nat) : ℝ) / (num * num + den * den : Nat) =
      eulerTerm (num / den) 0 * 2 ^ bits := by
    rw [eulerTerm_zero]; push_cast; field_simp; ring
  rw [hfirst] at hd1 hd2
  refine ⟨hd1, by linarith, by simp, by simp, ?_⟩
  rw [pow_zero, mul_one]
  refine Nat.div_le_of_le_mul (Nat.mul_le_mul_right _ ?_)
  nlinarith [Nat.mul_le_mul hle (le_refl den)]

/-- The angle of the point (R155), in (0, π). -/
noncomputable def rayAngle (r : Ray) : ℝ :=
  if r.left then Real.pi - Real.arctan (r.num / r.den) else Real.arctan (r.num / r.den)

/-- The bounds of a ray enclose its angle and lie close together. -/
theorem bounds_spec (r : Ray) (bits : Nat) :
    ((r.bounds bits).1 : ℝ) ≤ rayAngle r * 2 ^ bits ∧ rayAngle r * 2 ^ bits ≤ (r.bounds bits).2 ∧
      (r.bounds bits).2 ≤ (r.bounds bits).1 + 10 * bits + 30 := by
  have hp : (0 : ℝ) < 2 ^ bits := by positivity
  obtain ⟨q1, q2, q3⟩ := atanBounds_spec bits (num := 1) (den := 1) one_pos le_rfl
  have hpi : Real.arctan ((1 : Nat) / (1 : Nat) : ℝ) = Real.pi / 4 := by simp
  rw [hpi] at q1 q2
  have sub_low {a b : Nat} {x : ℝ} (h : (a : ℝ) - b ≤ x) (hx : 0 ≤ x) : ((a - b : Nat) : ℝ) ≤ x := by
    rcases le_total b a with h1 | h1
    · rwa [Nat.cast_sub h1]
    · rwa [Nat.sub_eq_zero_of_le h1, Nat.cast_zero]
  have sub_high {a b : Nat} {x : ℝ} (h : x ≤ (a : ℝ) - b) : x ≤ ((a - b : Nat) : ℝ) := by
    rcases le_total b a with h1 | h1
    · rwa [Nat.cast_sub h1]
    · have : (a : ℝ) ≤ b := by exact_mod_cast h1
      exact h.trans (by rw [Nat.sub_eq_zero_of_le h1, Nat.cast_zero]; linarith)
  have hquot : (0 : ℝ) < r.num / r.den :=
    div_pos (by exact_mod_cast r.num_pos) (by exact_mod_cast r.den_pos)
  have hA0 := (Real.arctan_pos.2 hquot).le
  have hA1 := (Real.arctan_lt_pi_div_two (r.num / r.den : ℝ)).le
  have hpi0 := Real.pi_pos
  simp only [Ray.bounds, rayAngle]
  by_cases hle : r.num ≤ r.den
  · obtain ⟨n1, n2, n3⟩ := atanBounds_spec bits r.num_pos hle
    simp only [hle, if_true]
    cases r.left
    · exact ⟨n1, n2, by simp; omega⟩
    · simp only [if_true]
      refine ⟨sub_low ?_ ?_, sub_high ?_, by omega⟩
      · push_cast; linarith
      · exact mul_nonneg (by linarith) hp.le
      · push_cast; linarith
  · have hlt : r.den ≤ r.num := by omega
    obtain ⟨n1, n2, n3⟩ := atanBounds_spec bits r.den_pos hlt
    have hinv : Real.arctan (r.den / r.num : ℝ) = Real.pi / 2 - Real.arctan (r.num / r.den) := by
      rw [← Real.arctan_inv_of_pos hquot, inv_div]
    rw [hinv] at n1 n2
    simp only [hle, if_false]
    cases r.left
    · refine ⟨sub_low ?_ ?_, sub_high ?_, by simp; omega⟩
      · push_cast; linarith
      · exact mul_nonneg (by simpa using hA0) hp.le
      · push_cast; linarith
    · refine ⟨?_, ?_, by simp; omega⟩ <;> simp only [if_true] <;> push_cast <;> linarith

end Sys2Proof.Machine
end

