-- ==== Sys2Proof/Machine/Lambert.lean ====
section
/-! DEFINITION. Lambert's theorem: an angle whose tangent is rational is irrational. It is why no angle of a
point off the axes is a boundary between two patterns of W, so that the arctangent's search for its result
(Atan2.lean) ends. -/

namespace Sys2Proof.Machine

open Filter

/-- Combinations of sine and cosine that vanish fast at 0, with integer coefficients in θ. -/
noncomputable def trigChain : Nat → ℝ → ℝ
  | 0, θ => 2 * Real.sin θ
  | 1, θ => 4 * Real.sin θ - 4 * θ * Real.cos θ
  | n + 2, θ => 2 * (2 * n + 3) * trigChain (n + 1) θ - 4 * θ ^ 2 * trigChain n θ

theorem trigChain_deriv (n : Nat) (θ : ℝ) :
    HasDerivAt (trigChain (n + 1)) (2 * θ * trigChain n θ) θ := by
  suffices h : HasDerivAt (trigChain (n + 1)) (2 * θ * trigChain n θ) θ ∧
      HasDerivAt (trigChain (n + 2)) (2 * θ * trigChain (n + 1) θ) θ from h.1
  induction n with
  | zero =>
    have h1 : HasDerivAt (trigChain 1) (2 * θ * trigChain 0 θ) θ := by
      have h := ((Real.hasDerivAt_sin θ).const_mul 4).sub
        (((hasDerivAt_id θ).const_mul 4).mul (Real.hasDerivAt_cos θ))
      refine h.congr_deriv ?_
      simp only [trigChain, id]
      ring
    refine ⟨h1, ?_⟩
    have h := (h1.const_mul (2 * (2 * (0 : ℝ) + 3))).sub
      (((hasDerivAt_pow 2 θ).const_mul 4).mul ((Real.hasDerivAt_sin θ).const_mul 2))
    refine (h.congr_deriv ?_).congr_of_eventuallyEq (Eventually.of_forall fun t => ?_)
    · simp only [trigChain]
      push_cast
      ring
    · simp [trigChain]
  | succ n ih =>
    refine ⟨ih.2, ?_⟩
    have h := (ih.2.const_mul (2 * (2 * ((n + 1 : Nat) : ℝ) + 3))).sub
      (((hasDerivAt_pow 2 θ).const_mul 4).mul ih.1)
    refine (h.congr_deriv ?_).congr_of_eventuallyEq (Eventually.of_forall fun t => ?_)
    · simp only [trigChain]
      push_cast
      ring
    · simp [trigChain]

theorem trigChain_zero (n : Nat) : trigChain n 0 = 0 := by
  induction n using Nat.strong_induction_on with
  | _ n ih =>
    match n with
    | 0 => simp [trigChain]
    | 1 => simp [trigChain]
    | n + 2 => simp [trigChain, ih (n + 1) (by omega)]

/-- Each link of the chain is smaller than the one before it. -/
theorem abs_trigChain_le (n : Nat) {θ : ℝ} (hθ : 0 ≤ θ) :
    |trigChain n θ| ≤ 2 * θ ^ (2 * n + 1) / n.factorial := by
  induction n generalizing θ with
  | zero =>
    have := Real.abs_sin_le_abs (x := θ)
    simp only [trigChain, abs_mul, abs_of_nonneg hθ, abs_two] at *
    simpa using this
  | succ n ih =>
    let bound : ℝ → ℝ := fun t => 2 * t ^ (2 * (n + 1) + 1) / (n + 1).factorial
    have hbound (t : ℝ) : HasDerivAt bound
        (2 * (2 * n + 3) * t ^ (2 * n + 2) / (n + 1).factorial) t := by
      refine ((((hasDerivAt_pow (2 * (n + 1) + 1) t).const_mul 2).div_const _)).congr_deriv ?_
      rw [show 2 * (n + 1) + 1 - 1 = 2 * n + 2 by omega]
      push_cast
      ring
    have hslope (t : ℝ) (ht : 0 ≤ t) : |2 * t * trigChain n t| ≤
        2 * (2 * n + 3) * t ^ (2 * n + 2) / (n + 1).factorial := by
      have hf : (0 : ℝ) < n.factorial := by positivity
      rw [abs_mul, abs_of_nonneg (by positivity)]
      calc 2 * t * |trigChain n t| ≤ 2 * t * (2 * t ^ (2 * n + 1) / n.factorial) :=
            mul_le_mul_of_nonneg_left (ih ht) (by positivity)
        _ = 2 * (2 * n + 2) * t ^ (2 * n + 2) / (n + 1).factorial := by
            rw [Nat.factorial_succ]; push_cast; field_simp; ring
        _ ≤ _ := by gcongr; norm_num
    have hmono (s : ℝ) (hs : |s| = 1) : s * trigChain (n + 1) θ ≤ bound θ := by
      have hd (t : ℝ) : HasDerivAt (fun t => bound t - s * trigChain (n + 1) t)
          (2 * (2 * n + 3) * t ^ (2 * n + 2) / (n + 1).factorial - s * (2 * t * trigChain n t)) t :=
        (hbound t).sub ((trigChain_deriv n t).const_mul s)
      have hm : MonotoneOn (fun t => bound t - s * trigChain (n + 1) t) (Set.Ici 0) := by
        refine monotoneOn_of_deriv_nonneg (convex_Ici 0)
          (fun t _ => (hd t).continuousAt.continuousWithinAt)
          (fun t _ => (hd t).differentiableAt.differentiableWithinAt) fun t ht => ?_
        rw [interior_Ici] at ht
        rw [(hd t).deriv, sub_nonneg]
        refine (le_abs_self _).trans ?_
        rw [abs_mul, hs, one_mul]
        exact hslope t (le_of_lt ht)
      have := hm Set.self_mem_Ici (Set.mem_Ici.2 hθ) hθ
      simpa [bound, trigChain_zero] using this
    refine abs_le.2 ⟨?_, ?_⟩
    · have := hmono (-1) (by simp)
      linarith
    · have := hmono 1 (by simp)
      linarith

/-- Lambert's theorem. -/
theorem irrational_of_tan_rational {θ : ℝ} (hθ : 0 < θ) (hcos : Real.cos θ ≠ 0) {p q : ℤ} (hq : q ≠ 0)
    (h : Real.sin θ * q = Real.cos θ * p) : Irrational θ := by
  rintro ⟨r, hr⟩
  obtain ⟨a, b, hb, hab⟩ : ∃ a b : ℤ, b ≠ 0 ∧ θ * b = a :=
    ⟨r.num, r.den, by exact_mod_cast r.den_nz, by rw [← hr]; exact_mod_cast Rat.mul_den_eq_num r⟩
  have hb' : (b : ℝ) ≠ 0 := by exact_mod_cast hb
  have hq' : (q : ℝ) ≠ 0 := by exact_mod_cast hq
  -- the chain, scaled to integers
  let scaled : Nat → ℝ := fun n => b ^ (2 * n + 1) * q / Real.cos θ * trigChain n θ
  have h0 : scaled 0 = (2 * b * p : ℤ) := by
    simp only [scaled, trigChain]
    push_cast
    field_simp
    linear_combination h
  have h1 : scaled 1 = (4 * b ^ 2 * (b * p - a * q) : ℤ) := by
    simp only [scaled, trigChain]
    push_cast
    rw [← hab]
    field_simp
    linear_combination h
  have hstep (n : Nat) : scaled (n + 2) =
      2 * (2 * n + 3) * b ^ 2 * scaled (n + 1) - 4 * a ^ 2 * b ^ 2 * scaled n := by
    simp only [scaled, trigChain, ← hab]
    ring
  have hint (n : Nat) : (∃ z : ℤ, scaled n = z) ∧ ∃ z : ℤ, scaled (n + 1) = z := by
    induction n with
    | zero => exact ⟨⟨_, h0⟩, ⟨_, h1⟩⟩
    | succ n ih =>
      obtain ⟨⟨z, hz⟩, ⟨w, hw⟩⟩ := ih
      refine ⟨⟨w, hw⟩, 2 * (2 * n + 3) * b ^ 2 * w - 4 * a ^ 2 * b ^ 2 * z, ?_⟩
      rw [hstep, hz, hw]
      push_cast
      ring
  -- integers that tend to zero are zero from some point on
  have htend : Tendsto scaled atTop (nhds 0) := by
    have hlim : Tendsto (fun n : Nat =>
        |q / Real.cos θ * (b * θ) * 2| * (((b * θ) ^ 2) ^ n / n.factorial)) atTop (nhds 0) := by
      simpa using (FloorSemiring.tendsto_pow_div_factorial_atTop (((b : ℝ) * θ) ^ 2)).const_mul
        |q / Real.cos θ * (b * θ) * 2|
    refine squeeze_zero_norm (fun n => ?_) hlim
    have := abs_trigChain_le n hθ.le
    calc ‖scaled n‖ = |(b : ℝ) ^ (2 * n + 1) * q / Real.cos θ| * |trigChain n θ| := by
          rw [Real.norm_eq_abs, abs_mul]
      _ ≤ |(b : ℝ) ^ (2 * n + 1) * q / Real.cos θ| * (2 * θ ^ (2 * n + 1) / n.factorial) := by gcongr
      _ = |(b : ℝ) ^ (2 * n + 1) * q / Real.cos θ * (2 * θ ^ (2 * n + 1) / n.factorial)| := by
          rw [abs_mul, abs_of_nonneg (a := 2 * θ ^ (2 * n + 1) / n.factorial) (by positivity)]
      _ = |q / Real.cos θ * (b * θ) * 2 * (((b * θ) ^ 2) ^ n / n.factorial)| := by
          congr 1; ring
      _ = _ := by
          rw [abs_mul, abs_of_nonneg (a := ((b * θ) ^ 2) ^ n / (n.factorial : ℝ)) (by positivity)]
  obtain ⟨N, hN⟩ := (Metric.tendsto_atTop.1 htend) 1 one_pos
  have hlate (n : Nat) (hn : N ≤ n) : scaled n = 0 := by
    obtain ⟨z, hz⟩ := (hint n).1
    have := hN n hn
    rw [Real.dist_eq, sub_zero, hz] at this
    have hlt : |z| < 1 := by exact_mod_cast this
    rw [hz, Int.abs_lt_one_iff.1 hlt, Int.cast_zero]
  -- and the recurrence carries the zeros back to the start
  have ha : (a : ℝ) ≠ 0 := by rw [← hab]; exact mul_ne_zero hθ.ne' hb'
  have hback (n : Nat) (h1 : scaled (n + 1) = 0) (h2 : scaled (n + 2) = 0) : scaled n = 0 := by
    rw [hstep, h1, mul_zero, zero_sub, neg_eq_zero] at h2
    have : (4 * a ^ 2 * b ^ 2 : ℝ) ≠ 0 := by positivity
    exact (mul_eq_zero.1 h2).resolve_left this
  have hall (k : Nat) : ∀ n, N ≤ n + k → scaled n = 0 := by
    induction k with
    | zero => exact fun n hn => hlate n hn
    | succ k ih => exact fun n hn => hback n (ih _ (by omega)) (ih _ (by omega))
  have z0 : (2 * b * p : ℤ) = 0 := by exact_mod_cast h0.symm.trans (hall N 0 (by omega))
  have z1 : (4 * b ^ 2 * (b * p - a * q) : ℤ) = 0 := by
    exact_mod_cast h1.symm.trans (hall N 1 (by omega))
  have hp : p = 0 := (mul_eq_zero.1 z0).resolve_left (by omega)
  have haz : a ≠ 0 := by exact_mod_cast ha
  rw [hp, mul_zero, zero_sub] at z1
  simp [hb, haz, hq] at z1

end Sys2Proof.Machine
end

