-- ==== Sys2Proof/Machine/Rounding.lean ====
section
/-! DEFINITION. What `roundMag` answers (R143, R146, R148): the pattern nearest to the exact value. It stands
beside the definitions because the arctangent's search for its result (Atan2.lean) ends by it. -/

namespace Sys2Proof.Machine

/-- The real value of the pattern `mag`, without its sign, in a format with `p` fraction bits and least
exponent `least` (R140, R141). -/
def magValue (p : Nat) (least : Int) (mag : Nat) : ℚ :=
  if mag / 2 ^ p = 0 then (mag : ℚ) * 2 ^ least
  else ((2 ^ p + mag % 2 ^ p : Nat) : ℚ) * 2 ^ (least + (mag / 2 ^ p : Nat) - 1)

theorem two_zpow_pos (e : Int) : (0 : ℚ) < 2 ^ e := zpow_pos (by norm_num) e

/-- An exponent field and a significand, added, stand for their product. -/
theorem magValue_add (p : Nat) (least : Int) (q sig : Nat) (hs : sig ≤ 2 * 2 ^ p)
    (hq : q = 0 ∨ 2 ^ p ≤ sig) :
    magValue p least (q * 2 ^ p + sig) = sig * 2 ^ (least + q) := by
  have hP : 0 < 2 ^ p := Nat.two_pow_pos p
  unfold magValue
  rcases Nat.lt_or_ge sig (2 ^ p) with h | h
  · obtain rfl : q = 0 := by omega
    simp [Nat.div_eq_of_lt h]
  rcases Nat.lt_or_ge sig (2 * 2 ^ p) with h2 | h2
  · obtain ⟨f, rfl⟩ := Nat.exists_eq_add_of_le h
    have e1 : q * 2 ^ p + (2 ^ p + f) = f + 2 ^ p * (q + 1) := by ring
    rw [e1, Nat.add_mul_div_left _ _ hP, Nat.add_mul_mod_self_left, Nat.div_eq_of_lt (by omega),
      Nat.mod_eq_of_lt (by omega)]
    simp [← add_assoc]
  · obtain rfl : sig = 2 * 2 ^ p := by omega
    have e1 : q * 2 ^ p + 2 * 2 ^ p = 0 + 2 ^ p * (q + 2) := by ring
    rw [e1, Nat.add_mul_div_left _ _ hP, Nat.add_mul_mod_self_left]
    have e2 : least + ((0 / 2 ^ p + (q + 2) : Nat) : Int) - 1 = least + q + 1 := by simp; ring
    rw [if_neg (by omega), e2, zpow_add_one₀ (by norm_num)]
    simp; ring

/-- Every pattern has a significand below 2^(p+1) at an exponent from `least` on. -/
theorem magValue_form (p : Nat) (least : Int) (mag : Nat) :
    ∃ f b : Nat, f < 2 * 2 ^ p ∧ (b = 0 ∨ 2 ^ p ≤ f) ∧ mag = b * 2 ^ p + f ∧
      magValue p least mag = f * 2 ^ (least + b) := by
  have hP : 0 < 2 ^ p := Nat.two_pow_pos p
  have hm := Nat.mod_lt mag hP
  have hd := Nat.div_add_mod mag (2 ^ p)
  rcases Nat.eq_zero_or_pos (mag / 2 ^ p) with h | h
  · refine ⟨mag, 0, ?_, .inl rfl, by simp, by simp [magValue, h]⟩
    rw [h] at hd; omega
  · obtain ⟨b, hb⟩ := Nat.exists_eq_add_of_lt h
    rw [hb] at hd
    have hmag : mag = b * 2 ^ p + (2 ^ p + mag % 2 ^ p) := by
      conv_lhs => rw [← hd]
      ring
    refine ⟨2 ^ p + mag % 2 ^ p, b, by omega, .inr (by omega), hmag, ?_⟩
    conv_lhs => rw [hmag]
    exact magValue_add p least b _ (by omega) (.inr (by omega))

theorem magValue_nonneg (p : Nat) (least : Int) (mag : Nat) : 0 ≤ magValue p least mag := by
  obtain ⟨f, b, -, -, -, h⟩ := magValue_form p least mag
  rw [h]
  exact mul_nonneg (Nat.cast_nonneg _) (two_zpow_pos _).le

theorem magValue_lt_succ (p : Nat) (least : Int) (mag : Nat) :
    magValue p least mag < magValue p least (mag + 1) := by
  obtain ⟨f, b, hf, hb, hm, h⟩ := magValue_form p least mag
  have h1 : mag + 1 = b * 2 ^ p + (f + 1) := by omega
  rw [h, h1, magValue_add p least b (f + 1) (by omega) (hb.imp id (by omega))]
  have := two_zpow_pos (least + b)
  push_cast
  nlinarith

/-- The patterns rise with the values. -/
theorem magValue_strictMono (p : Nat) (least : Int) : StrictMono (magValue p least) :=
  strictMono_nat_of_lt_succ (magValue_lt_succ p least)

/-! ### Rounding an integer quotient -/

/-- `rneShift` is the nearest integer, and even at a tie. -/
theorem rneShift_nearest (mant k : Nat) :
    |(rneShift mant k : ℚ) - mant / 2 ^ k| ≤ 1 / 2 ∧
      (|(rneShift mant k : ℚ) - mant / 2 ^ k| = 1 / 2 → rneShift mant k % 2 = 0) := by
  have hK : 0 < 2 ^ k := Nat.two_pow_pos k
  have hKq : (0 : ℚ) < ((2 ^ k : Nat) : ℚ) := by exact_mod_cast hK
  have hm := Nat.mod_lt mant hK
  have hd : (mant : ℚ) = ((2 ^ k : Nat) : ℚ) * (mant / 2 ^ k : Nat) + (mant % 2 ^ k : Nat) := by
    exact_mod_cast (Nat.div_add_mod mant (2 ^ k)).symm
  have hx : (mant : ℚ) / 2 ^ k = (mant / 2 ^ k : Nat) + ((mant % 2 ^ k : Nat) : ℚ) / ((2 ^ k : Nat) : ℚ) := by
    rw [show ((2 : ℚ) ^ k) = ((2 ^ k : Nat) : ℚ) by push_cast; rfl]
    field_simp
    linarith
  have hfrac : ∀ c : ℚ, ((mant % 2 ^ k : Nat) : ℚ) / ((2 ^ k : Nat) : ℚ) < c ↔
      ((mant % 2 ^ k : Nat) : ℚ) < c * ((2 ^ k : Nat) : ℚ) := fun c => div_lt_iff₀ hKq
  have h0 : (0 : ℚ) ≤ ((mant % 2 ^ k : Nat) : ℚ) / ((2 ^ k : Nat) : ℚ) := by positivity
  have h1 : ((mant % 2 ^ k : Nat) : ℚ) / ((2 ^ k : Nat) : ℚ) < 1 := by
    rw [hfrac, one_mul]; exact_mod_cast hm
  rw [hx]
  generalize hr : ((mant % 2 ^ k : Nat) : ℚ) / ((2 ^ k : Nat) : ℚ) = r at *
  simp only [rneShift]
  split
  · next h =>
    have : r < 1 / 2 := by rw [hfrac]; have : (2 * (mant % 2 ^ k : Nat) : ℚ) < ((2 ^ k : Nat) : ℚ) := by exact_mod_cast h
                           linarith
    rw [show ((mant / 2 ^ k : Nat) : ℚ) - ((mant / 2 ^ k : Nat) + r) = -r by ring, abs_neg, abs_of_nonneg h0]
    exact ⟨this.le, fun e => absurd e this.ne⟩
  split
  · next h1 h =>
    have hr2 : r = 1 / 2 := by
      rw [← hr, div_eq_iff hKq.ne']
      have : (2 * (mant % 2 ^ k : Nat) : ℚ) = ((2 ^ k : Nat) : ℚ) := by exact_mod_cast h
      linarith
    subst hr2
    rcases Nat.mod_two_eq_zero_or_one (mant / 2 ^ k) with he | he
    · rw [he]
      refine ⟨?_, fun _ => by omega⟩
      rw [show ((mant / 2 ^ k + 0 : Nat) : ℚ) - ((mant / 2 ^ k : Nat) + 1 / 2) = -(1 / 2) by push_cast; ring, abs_neg,
        abs_of_pos]
      norm_num
    · rw [he]
      refine ⟨?_, fun _ => by omega⟩
      rw [show ((mant / 2 ^ k + 1 : Nat) : ℚ) - ((mant / 2 ^ k : Nat) + 1 / 2) = 1 / 2 by push_cast; ring,
        abs_of_pos]
      norm_num
  · next h1' h2' =>
    have : 1 / 2 < r := by
      rw [← hr, lt_div_iff₀ hKq]
      have : ((2 ^ k : Nat) : ℚ) < (2 * (mant % 2 ^ k : Nat) : ℚ) := by
        have : 2 ^ k < 2 * (mant % 2 ^ k) := by omega
        exact_mod_cast this
      linarith
    rw [show ((mant / 2 ^ k + 1 : Nat) : ℚ) - ((mant / 2 ^ k : Nat) + r) = 1 - r by push_cast; ring,
      abs_of_pos (by linarith)]
    exact ⟨by linarith, fun e => by linarith⟩

/-- An integer within 1/2 of `y` is at least as near to `y` as any other, and strictly nearer unless at a
tie. -/
theorem nearest_integer {y : ℚ} {n z : Int} (h : |(n : ℚ) - y| ≤ 1 / 2) (hz : z ≠ n) :
    1 / 2 ≤ |(z : ℚ) - y| := by
  have : (1 : ℚ) ≤ |(z : ℚ) - n| := by
    have := Int.one_le_abs (sub_ne_zero.2 hz)
    exact_mod_cast this
  have h3 : |(z : ℚ) - n| ≤ |(z : ℚ) - y| + |(n : ℚ) - y| := by
    have := abs_sub_le (z : ℚ) y n
    rwa [abs_sub_comm y] at this
  linarith

/-- The significand and the exponent field that `roundMag` finds for a positive number: the significand
is the integer nearest to the number in units of the quantum, even at a tie. -/
theorem roundMag_significand (p : Nat) (least : Int) (infMag mant : Nat) (exp : Int) (hm : mant ≠ 0) :
    ∃ q sig : Nat, roundMag (p + 1) least infMag mant exp = min (q * 2 ^ p + sig) infMag ∧
      |(sig : ℚ) - mant * 2 ^ exp / 2 ^ (least + q)| ≤ 1 / 2 ∧
      (|(sig : ℚ) - mant * 2 ^ exp / 2 ^ (least + q)| = 1 / 2 → sig % 2 = 0) ∧
      (mant : ℚ) * 2 ^ exp / 2 ^ (least + q) < 2 * 2 ^ p ∧
      (q = 0 ∨ (2 : ℚ) ^ p ≤ mant * 2 ^ exp / 2 ^ (least + q)) ∧
      (least ≤ exp → mant < 2 * 2 ^ p → (sig : ℚ) * 2 ^ (least + q) = mant * 2 ^ exp) := by
  set lg := Nat.log2 mant with hlg
  have hlo : 2 ^ lg ≤ mant := Nat.log2_self_le hm
  have hhi : mant < 2 ^ (lg + 1) := Nat.lt_log2_self
  have hloq : ((2 : ℚ) ^ lg) ≤ mant := by exact_mod_cast hlo
  have hhiq : (mant : ℚ) < (2 : ℚ) ^ (lg + 1) := by exact_mod_cast hhi
  set quantum := max (exp + (lg + 1 : Nat) - (p + 1 : Nat)) least with hquantum
  obtain ⟨q, hq⟩ : ∃ q : Nat, quantum = least + q := Int.exists_add_of_le (le_max_right _ _)
  have hne : (2 : ℚ) ≠ 0 := by norm_num
  have hdiv : (mant : ℚ) * 2 ^ exp / 2 ^ quantum = mant * 2 ^ (exp - quantum) := by
    rw [zpow_sub₀ hne, mul_div_assoc]
  refine ⟨q, if quantum ≤ exp then mant * 2 ^ (exp - quantum).toNat else rneShift mant (quantum - exp).toNat,
    ?_, ?_⟩
  · simp only [roundMag, hm, if_false, ← hlg, ← hquantum]
    rw [show (quantum - least).toNat = q by omega, Nat.add_sub_cancel]
  rw [← hq, hdiv]
  have hup : (mant : ℚ) * 2 ^ (exp - quantum) < 2 * 2 ^ p := by
    have h1 : (mant : ℚ) * 2 ^ (exp - quantum) < 2 ^ ((lg + 1 : Nat) : Int) * 2 ^ (exp - quantum) := by
      apply mul_lt_mul_of_pos_right _ (two_zpow_pos _)
      exact_mod_cast hhiq
    rw [← zpow_add₀ hne] at h1
    refine h1.trans_le ?_
    rw [← pow_succ', ← zpow_natCast]
    apply zpow_le_zpow_right₀ (by norm_num)
    have := le_max_left (exp + (lg + 1 : Nat) - (p + 1 : Nat)) least
    push_cast at *; omega
  have hdown : q = 0 ∨ (2 : ℚ) ^ p ≤ mant * 2 ^ (exp - quantum) := by
    rcases Nat.eq_zero_or_pos q with h | h
    · exact .inl h
    right
    have hqe : quantum = exp + (lg + 1 : Nat) - (p + 1 : Nat) := by omega
    have h1 : (2 : ℚ) ^ (lg : Int) * 2 ^ (exp - quantum) ≤ mant * 2 ^ (exp - quantum) := by
      apply mul_le_mul_of_nonneg_right _ (two_zpow_pos _).le
      exact_mod_cast hloq
    rw [← zpow_add₀ hne] at h1
    refine le_trans (le_of_eq ?_) h1
    rw [← zpow_natCast]
    congr 1
    push_cast at hqe
    omega
  refine ⟨?_, ?_, hup, hdown, ?_⟩
  · split
    · next h =>
      have : ((mant * 2 ^ (exp - quantum).toNat : Nat) : ℚ) = mant * 2 ^ (exp - quantum) := by
        push_cast
        rw [← zpow_natCast, Int.toNat_of_nonneg (by omega)]
      rw [this]; simp
    · next h =>
      have := (rneShift_nearest mant (quantum - exp).toNat).1
      rwa [← zpow_natCast, Int.toNat_of_nonneg (by omega), div_eq_mul_inv, ← zpow_neg, neg_sub] at this
  · split
    · next h =>
      have : ((mant * 2 ^ (exp - quantum).toNat : Nat) : ℚ) = mant * 2 ^ (exp - quantum) := by
        push_cast
        rw [← zpow_natCast, Int.toNat_of_nonneg (by omega)]
      rw [this]; norm_num
    · next h =>
      have := (rneShift_nearest mant (quantum - exp).toNat).2
      rwa [← zpow_natCast, Int.toNat_of_nonneg (by omega), div_eq_mul_inv, ← zpow_neg, neg_sub] at this
  · intro hle hsmall
    have hlg2 : lg + 1 ≤ p + 1 := by
      by_contra hc
      have : 2 ^ (p + 1) ≤ 2 ^ lg := Nat.pow_le_pow_right (by norm_num) (by omega)
      rw [pow_succ] at this
      omega
    have hqe : quantum ≤ exp := by omega
    rw [if_pos hqe]
    push_cast
    rw [← zpow_natCast, Int.toNat_of_nonneg (by omega), mul_assoc, ← zpow_add₀ hne]
    congr 2; ring

/-- No pattern is nearer to the number than the rounded one, and where another value is as near the
significand is even. -/
theorem significand_nearest (p : Nat) (least : Int) (q sig : Nat) (x : ℚ)
    (h : |(sig : ℚ) - x / 2 ^ (least + q)| ≤ 1 / 2)
    (he : |(sig : ℚ) - x / 2 ^ (least + q)| = 1 / 2 → sig % 2 = 0)
    (hq : q = 0 ∨ (2 : ℚ) ^ p ≤ x / 2 ^ (least + q)) (mag : Nat) :
    |(sig : ℚ) * 2 ^ (least + q) - x| ≤ |magValue p least mag - x| ∧
      (|(sig : ℚ) * 2 ^ (least + q) - x| = |magValue p least mag - x| →
        magValue p least mag = (sig : ℚ) * 2 ^ (least + q) ∨ sig % 2 = 0) := by
  have hQ := two_zpow_pos (least + q)
  set Q : ℚ := 2 ^ (least + q) with hQdef
  set y := x / Q with hy
  have hx : x = y * Q := by rw [hy]; field_simp
  obtain ⟨f, b, hf, hb, hm, hv⟩ := magValue_form p least mag
  have hne : (2 : ℚ) ≠ 0 := by norm_num
  -- the pattern's value in units of the quantum
  obtain ⟨u, hu⟩ : ∃ u : ℚ, magValue p least mag = u * Q := ⟨magValue p least mag / Q, by field_simp⟩
  have hs : ∀ v : ℚ, |v * Q - x| = |v - y| * Q := fun v => by
    rw [hx, ← sub_mul, abs_mul, abs_of_pos hQ]
  rw [hu, hs, hs]
  -- either the pattern is an integer number of quanta, or it lies below the number's binade
  have hcases : (∃ z : Int, u = z) ∨ (u < 2 ^ p ∧ (2 : ℚ) ^ p ≤ y) := by
    rcases Nat.lt_or_ge b q with hbq | hbq
    · right
      refine ⟨?_, hq.resolve_left (by omega)⟩
      have h1 : u * Q < 2 ^ p * Q := by
        rw [← hu, hv]
        obtain ⟨d, hd⟩ := Nat.exists_eq_add_of_lt hbq
        have hfq : (f : ℚ) < 2 * 2 ^ p := by exact_mod_cast hf
        have h2 : (2 : ℚ) ^ (least + b) * 2 ≤ Q := by
          rw [hQdef, ← zpow_add_one₀ hne]
          exact zpow_le_zpow_right₀ (by norm_num) (by omega)
        have h3 := two_zpow_pos (least + b)
        have h4 : (0 : ℚ) < 2 ^ p := by positivity
        nlinarith
      exact lt_of_mul_lt_mul_right h1 hQ.le
    · left
      obtain ⟨d, rfl⟩ := Nat.exists_eq_add_of_le hbq
      refine ⟨((f * 2 ^ d : Nat) : Int), ?_⟩
      have : u * Q = ((f * 2 ^ d : Nat) : ℚ) * Q := by
        rw [← hu, hv, hQdef]
        push_cast
        rw [mul_assoc, ← zpow_natCast (2 : ℚ) d, ← zpow_add₀ hne]
        congr 2
        ring
      exact_mod_cast mul_right_cancel₀ hQ.ne' this
  have h' : |(((sig : Int) : ℚ)) - y| ≤ 1 / 2 := by simpa using h
  rcases hcases with ⟨z, rfl⟩ | ⟨hlt, hle⟩
  · by_cases hz : z = sig
    · subst hz
      exact ⟨le_refl _, fun _ => .inl (by simp)⟩
    · have h1 := nearest_integer h' hz
      refine ⟨mul_le_mul_of_nonneg_right (h.trans h1) hQ.le, fun e => .inr (he ?_)⟩
      have := mul_right_cancel₀ hQ.ne' e
      linarith
  · have h1 : |(sig : ℚ) - y| ≤ y - 2 ^ p := by
      by_cases hz : ((2 ^ p : Nat) : Int) = sig
      · have : (sig : ℚ) = 2 ^ p := by
          have := congrArg (fun i : Int => (i : ℚ)) hz
          push_cast at this; exact this.symm
        rw [this, abs_sub_comm, abs_of_nonneg (by linarith)]
      · have := nearest_integer h' hz
        push_cast at this
        rw [abs_sub_comm, abs_of_nonneg (by linarith)] at this
        linarith
    have h2 : |u - y| = y - u := by rw [abs_sub_comm, abs_of_nonneg (by linarith)]
    have h3 : |(sig : ℚ) - y| < |u - y| := by rw [h2]; linarith
    exact ⟨(mul_lt_mul_of_pos_right h3 hQ).le, fun e => absurd (mul_right_cancel₀ hQ.ne' e) h3.ne⟩

/-- The overflow threshold: the rounded significand reaches the pattern of infinity exactly when the
number is at least the midpoint above the greatest finite value. -/
theorem significand_overflow (p : Nat) (least : Int) (top q sig : Nat) (x : ℚ) (hp : 1 ≤ p) (htop : 2 ≤ top)
    (h : |(sig : ℚ) - x / 2 ^ (least + q)| ≤ 1 / 2)
    (he : |(sig : ℚ) - x / 2 ^ (least + q)| = 1 / 2 → sig % 2 = 0)
    (hup : x / 2 ^ (least + q) < 2 * 2 ^ p)
    (hq : q = 0 ∨ (2 : ℚ) ^ p ≤ x / 2 ^ (least + q)) :
    q * 2 ^ p + sig < top * 2 ^ p ↔ x < (2 * 2 ^ p - 1 / 2) * 2 ^ (least + (top - 2 : Nat)) := by
  have hQ := two_zpow_pos (least + q)
  set Q : ℚ := 2 ^ (least + q) with hQdef
  set y := x / Q with hy
  have hx : x = y * Q := by rw [hy]; field_simp
  have hne : (2 : ℚ) ≠ 0 := by norm_num
  have hP2 : (2 : ℚ) ≤ 2 ^ p := by
    calc (2 : ℚ) = 2 ^ 1 := by norm_num
      _ ≤ 2 ^ p := pow_le_pow_right₀ (by norm_num) hp
  have hP : 0 < 2 ^ p := Nat.two_pow_pos p
  obtain ⟨hl, hr⟩ := abs_le.1 h
  have hsig_up : sig ≤ 2 * 2 ^ p := by
    by_contra hc
    have : (2 * 2 ^ p + 1 : ℚ) ≤ sig := by
      have : 2 * 2 ^ p + 1 ≤ sig := by omega
      exact_mod_cast this
    linarith
  have hsig_low : q = 0 ∨ 2 ^ p ≤ sig := by
    refine hq.imp id fun hq => ?_
    by_contra hc
    have : (sig + 1 : ℚ) ≤ 2 ^ p := by
      have : sig + 1 ≤ 2 ^ p := by omega
      exact_mod_cast this
    linarith
  set T : ℚ := 2 ^ (least + (top - 2 : Nat)) with hT
  have hTpos : 0 < T := two_zpow_pos _
  rcases lt_trichotomy q (top - 2) with hlt | heq | hgt
  · -- below the last binade
    have h1 : q * 2 ^ p + sig < top * 2 ^ p := by
      have h0 : (q + 3) * 2 ^ p ≤ top * 2 ^ p := Nat.mul_le_mul_right _ (by omega)
      have : (q + 3) * 2 ^ p = q * 2 ^ p + 3 * 2 ^ p := by ring
      omega
    refine iff_of_true h1 ?_
    have h2 : Q * 2 ≤ T := by
      rw [hQdef, hT, ← zpow_add_one₀ hne]
      exact zpow_le_zpow_right₀ (by norm_num) (by omega)
    rw [hx]
    nlinarith
  · have hTQ : T = Q := by rw [hT, hQdef, heq]
    have htop' : top = q + 2 := by omega
    have h1 : q * 2 ^ p + sig < top * 2 ^ p ↔ sig < 2 * 2 ^ p := by
      have : top * 2 ^ p = q * 2 ^ p + 2 * 2 ^ p := by rw [htop']; ring
      omega
    rw [h1, hTQ, hx, mul_lt_mul_iff_left₀ hQ]
    constructor
    · intro hs
      have hs' : (sig : ℚ) ≤ 2 * 2 ^ p - 1 := by
        have : sig + 1 ≤ 2 * 2 ^ p := hs
        have : ((sig + 1 : Nat) : ℚ) ≤ ((2 * 2 ^ p : Nat) : ℚ) := by exact_mod_cast this
        push_cast at this; linarith
      by_contra hc
      have h3 : |(sig : ℚ) - y| = 1 / 2 := by
        refine le_antisymm h ?_
        rw [abs_sub_comm, abs_of_nonneg (by linarith)]; linarith
      have h4 := he h3
      have h5 : sig = 2 * 2 ^ p - 1 := by
        have h7 : (2 * 2 ^ p : ℚ) ≤ sig + 1 := by linarith
        have : 2 * 2 ^ p ≤ sig + 1 := by exact_mod_cast h7
        omega
      omega
    · intro hy2
      by_contra hc
      have : (2 * 2 ^ p : ℚ) ≤ sig := by
        have : 2 * 2 ^ p ≤ sig := by omega
        exact_mod_cast this
      linarith
  · have hq0 : q ≠ 0 := by omega
    have hs := hsig_low.resolve_left hq0
    have hy2 := hq.resolve_left hq0
    refine iff_of_false ?_ ?_
    · have h0 : top * 2 ^ p ≤ (q + 1) * 2 ^ p := Nat.mul_le_mul_right _ (by omega)
      have : (q + 1) * 2 ^ p = q * 2 ^ p + 2 ^ p := by ring
      omega
    · have h2 : T * 2 ≤ Q := by
        rw [hQdef, hT, ← zpow_add_one₀ hne]
        exact zpow_le_zpow_right₀ (by norm_num) (by omega)
      rw [hx, not_lt]
      nlinarith

/-- `roundMag` answers the pattern of infinity exactly from the overflow threshold on; below it, it
answers the pattern of the nearest value, and where another value is as near the pattern is even. -/
theorem roundMag_spec (p : Nat) (least : Int) (top mant : Nat) (exp : Int) (hp : 1 ≤ p) (htop : 2 ≤ top) :
    let mag := roundMag (p + 1) least (top * 2 ^ p) mant exp
    let x : ℚ := mant * 2 ^ exp
    if x < (2 * 2 ^ p - 1 / 2) * 2 ^ (least + (top - 2 : Nat)) then
      mag < top * 2 ^ p ∧
      (∀ other, |magValue p least mag - x| ≤ |magValue p least other - x| ∧
        (|magValue p least mag - x| = |magValue p least other - x| →
          magValue p least other = magValue p least mag ∨ mag % 2 = 0)) ∧
      (least ≤ exp → mant < 2 * 2 ^ p → magValue p least mag = x)
    else mag = top * 2 ^ p := by
  intro mag x
  have hP2 : (2 : ℚ) ≤ 2 ^ p := by
    calc (2 : ℚ) = 2 ^ 1 := by norm_num
      _ ≤ 2 ^ p := pow_le_pow_right₀ (by norm_num) hp
  have hP : 0 < 2 ^ p := Nat.two_pow_pos p
  by_cases hm : mant = 0
  · have hx : x = 0 := by simp [x, hm]
    have hmag : mag = 0 := by simp [mag, roundMag, hm]
    have hv : magValue p least 0 = 0 := by simp [magValue]
    rw [hmag, hx, hv, if_pos (mul_pos (by linarith) (two_zpow_pos _))]
    exact ⟨Nat.mul_pos (by omega) hP, fun other => ⟨by simp, fun _ => .inr rfl⟩, fun _ _ => rfl⟩
  · obtain ⟨q, sig, hmag, h, he, hup, hq, hexact⟩ :=
      roundMag_significand p least (top * 2 ^ p) mant exp hm
    have hover := significand_overflow p least top q sig x hp htop h he hup hq
    have hmag' : mag = min (q * 2 ^ p + sig) (top * 2 ^ p) := hmag
    obtain ⟨hl, hr⟩ := abs_le.1 h
    have hsig_up : sig ≤ 2 * 2 ^ p := by
      by_contra hc
      have : (2 * 2 ^ p + 1 : ℚ) ≤ sig := by
        have : 2 * 2 ^ p + 1 ≤ sig := by omega
        exact_mod_cast this
      linarith
    have hsig_low : q = 0 ∨ 2 ^ p ≤ sig := by
      refine hq.imp id fun hq => ?_
      by_contra hc
      have : (sig + 1 : ℚ) ≤ 2 ^ p := by
        have : sig + 1 ≤ 2 ^ p := by omega
        exact_mod_cast this
      linarith
    split
    · next hx =>
      have hlt := hover.2 hx
      have hmagq : mag = q * 2 ^ p + sig := by rw [hmag']; exact min_eq_left hlt.le
      have hv : magValue p least mag = sig * 2 ^ (least + q) := by
        rw [hmagq]; exact magValue_add p least q sig hsig_up hsig_low
      have heven : mag % 2 = sig % 2 := by
        obtain ⟨k, rfl⟩ := Nat.exists_eq_add_of_le' hp
        rw [hmagq, pow_succ, ← mul_assoc, Nat.mul_add_mod']
      refine ⟨hmagq ▸ hlt, fun other => ?_, fun h1 h2 => by rw [hv]; exact hexact h1 h2⟩
      rw [hv, heven]
      exact significand_nearest p least q sig x h he hq other
    · next hx =>
      rw [hmag']
      exact min_eq_right (not_lt.1 fun hlt => hx (hover.1 hlt))

end Sys2Proof.Machine
end

