-- ==== Sys2Proof/Machine/AngleSearch.lean ====
section
/-! DEFINITION. Why the value of a step function at an angle off the axes is found by tries of rising
precision (R157): no such angle is rational, so a try whose bounds lie close enough has no cut between them. -/

namespace Sys2Proof.Machine

/-! ### Rounding and the distance in units in the last place are step functions -/

/-- The number half way between the value of the W pattern `mag` and that of the next one. -/
def middleW (mag : Nat) : ℚ := (magValue 52 (-1074) mag + magValue 52 (-1074) (mag + 1)) / 2

theorem middleW_mono : Monotone middleW := fun a b h => by
  have h1 := (magValue_strictMono 52 (-1074)).monotone h
  have h2 := (magValue_strictMono 52 (-1074)).monotone (Nat.add_le_add_right h 1)
  unfold middleW
  linarith

/-- A number rounds to the pattern whose two middles it lies between; from the last one on, to infinity. -/
theorem roundMagW_middles (mant : Nat) (exp : Int) :
    roundMagW mant exp ≤ infMagW ∧
    (roundMagW mant exp < infMagW → (mant : ℚ) * 2 ^ exp ≤ middleW (roundMagW mant exp)) ∧
    (0 < roundMagW mant exp → middleW (roundMagW mant exp - 1) ≤ (mant : ℚ) * 2 ^ exp) := by
  have h := roundMag_spec 52 (-1074) 2047 mant exp (by norm_num) (by norm_num)
  rw [show roundMag (52 + 1) (-1074) (2047 * 2 ^ 52) mant exp = roundMagW mant exp from rfl,
    show 2047 * 2 ^ 52 = infMagW from rfl] at h
  have hmono := magValue_strictMono 52 (-1074)
  generalize roundMagW mant exp = mag at *
  generalize (mant : ℚ) * 2 ^ exp = x at *
  have hlast : middleW (infMagW - 1) = (2 * 2 ^ 52 - 1 / 2) * 2 ^ ((-1074 : Int) + (2047 - 2 : Nat)) := by
    have h1 : magValue 52 (-1074) (infMagW - 1) = (2 * 2 ^ 52 - 1) * 2 ^ (971 : Int) := by
      norm_num [magValue, infMagW]
    have h2 : magValue 52 (-1074) (infMagW - 1 + 1) = 2 * 2 ^ 52 * 2 ^ (971 : Int) := by
      rw [show infMagW - 1 + 1 = 2045 * 2 ^ 52 + 2 * 2 ^ 52 by decide,
        magValue_add 52 (-1074) 2045 (2 * 2 ^ 52) le_rfl (.inr (by norm_num))]
      norm_num
    rw [middleW, h1, h2, show (-1074 : Int) + (2047 - 2 : Nat) = 971 by norm_num]
    ring
  rw [← hlast] at h
  simp only at h
  split at h
  · next hx =>
    obtain ⟨hlt, hnear, -⟩ := h
    refine ⟨hlt.le, fun _ => ?_, fun h0 => ?_⟩
    · have h1 := (hnear (mag + 1)).1
      have h2 := hmono (Nat.lt_succ_self mag)
      unfold middleW
      by_contra hc
      rw [abs_of_neg (by linarith)] at h1
      rcases abs_cases (magValue 52 (-1074) (mag + 1) - x) with ⟨e, -⟩ | ⟨e, -⟩ <;> rw [e] at h1 <;> linarith
    · have h1 := (hnear (mag - 1)).1
      have h2 := hmono (Nat.sub_lt h0 one_pos)
      unfold middleW
      rw [Nat.sub_add_cancel h0]
      by_contra hc
      rw [abs_of_pos (by linarith)] at h1
      rcases abs_cases (magValue 52 (-1074) (mag - 1) - x) with ⟨e, -⟩ | ⟨e, -⟩ <;> rw [e] at h1 <;> linarith
  · next hx =>
    exact ⟨h.le, fun hlt => absurd h hlt.ne, fun _ => by rw [h]; exact not_lt.1 hx⟩

theorem isStep_roundMagW : IsStep roundMagW := by
  refine ⟨(Finset.range infMagW).image middleW, fun m m' e hle hne => ?_⟩
  obtain ⟨a1, a2, a3⟩ := roundMagW_middles m e
  obtain ⟨b1, b2, b3⟩ := roundMagW_middles m' e
  have hx : (m : ℚ) * 2 ^ e ≤ m' * 2 ^ e :=
    mul_le_mul_of_nonneg_right (by exact_mod_cast hle) (two_zpow_pos e).le
  generalize roundMagW m e = g at *
  generalize roundMagW m' e = g' at *
  rcases Nat.lt_or_gt_of_ne hne with h | h
  · refine ⟨middleW g, Finset.mem_image_of_mem _ (Finset.mem_range.2 (by omega)), a2 (by omega), ?_⟩
    exact (middleW_mono (by omega)).trans (b3 (by omega))
  · have h1 := b2 (by omega)
    have h2 := a3 (by omega)
    have h3 : middleW g' ≤ middleW (g - 1) := middleW_mono (by omega)
    exact ⟨middleW g', Finset.mem_image_of_mem _ (Finset.mem_range.2 (by omega)), by linarith, by linarith⟩

/-- Where the unit in the last place puts the number. -/
theorem ulpExponent_spec (mant : Nat) (exp : Int) :
    -1074 ≤ ulpExponent mant exp ∧ ulpExponent mant exp ≤ 971 ∧
    (ulpExponent mant exp = -1074 ∨ (2 : ℚ) ^ (ulpExponent mant exp + 52) ≤ mant * 2 ^ exp) ∧
    (ulpExponent mant exp = 971 ∨ (mant : ℚ) * 2 ^ exp < 2 ^ (ulpExponent mant exp + 53)) := by
  unfold ulpExponent
  split
  · next h => exact ⟨le_rfl, by norm_num, .inl rfl, .inr (by subst h; simp)⟩
  · next h =>
    have h1 : ((2 : ℚ) ^ (Nat.log2 mant : Int)) ≤ mant := by
      rw [zpow_natCast]; exact_mod_cast Nat.log2_self_le h
    have h2 : (mant : ℚ) < 2 ^ ((Nat.log2 mant : Int) + 1) := by
      rw [show (Nat.log2 mant : Int) + 1 = ((Nat.log2 mant + 1 : Nat) : Int) by push_cast; rfl, zpow_natCast]
      exact_mod_cast Nat.lt_log2_self
    have hp := two_zpow_pos exp
    have h1' : (2 : ℚ) ^ (exp + Nat.log2 mant) ≤ mant * 2 ^ exp := by
      rw [add_comm, zpow_add₀ (by norm_num)]; gcongr
    have h2' : (mant : ℚ) * 2 ^ exp < 2 ^ (exp + Nat.log2 mant + 1) := by
      rw [show exp + Nat.log2 mant + 1 = (Nat.log2 mant + 1) + exp by ring, zpow_add₀ (by norm_num)]; gcongr
    have mono {a b : Int} (hab : a ≤ b) : (2 : ℚ) ^ a ≤ 2 ^ b := zpow_le_zpow_right₀ (by norm_num) hab
    generalize (Nat.log2 mant : Int) = l at *
    refine ⟨by omega, by omega, ?_, ?_⟩
    · rcases le_total (exp + l - 52) (-1074) with hc | hc
      · exact .inl (by omega)
      · exact .inr ((mono (by omega)).trans h1')
    · rcases le_total 971 (max (exp + l - 52) (-1074)) with hc | hc
      · exact .inl (by omega)
      · exact .inr (h2'.trans_le (mono (by omega)))

theorem isStep_ulpTest (ulps value : ℚ) : IsStep (ulpTest ulps value) := by
  let exponents : Finset Int := Finset.Icc (-1074) 971
  refine ⟨exponents.image (fun q => 2 ^ (q + 53)) ∪ exponents.image (fun q => value + ulps * 2 ^ q) ∪
    exponents.image (fun q => value - ulps * 2 ^ q), fun m m' e hle hne => ?_⟩
  have hx : (m : ℚ) * 2 ^ e ≤ m' * 2 ^ e :=
    mul_le_mul_of_nonneg_right (by exact_mod_cast hle) (two_zpow_pos e).le
  obtain ⟨a1, a2, a3, a4⟩ := ulpExponent_spec m e
  obtain ⟨b1, b2, b3, b4⟩ := ulpExponent_spec m' e
  have mono {a b : Int} (hab : a ≤ b) : (2 : ℚ) ^ a ≤ 2 ^ b := zpow_le_zpow_right₀ (by norm_num) hab
  unfold ulpTest at hne
  generalize ulpExponent m e = q at *
  generalize ulpExponent m' e = q' at *
  generalize (m : ℚ) * 2 ^ e = x at *
  generalize (m' : ℚ) * 2 ^ e = x' at *
  have hq : q ∈ exponents := Finset.mem_Icc.2 ⟨a1, a2⟩
  rcases lt_trichotomy q q' with h | rfl | h
  · refine ⟨2 ^ (q + 53), ?_, (a4.resolve_left (by omega)).le, ?_⟩
    · exact Finset.mem_union_left _ (Finset.mem_union_left _ (Finset.mem_image_of_mem _ hq))
    · exact (mono (by omega)).trans (b3.resolve_left (by omega))
  · by_cases h1 : x ≤ value + ulps * 2 ^ q ∧ ¬ x' ≤ value + ulps * 2 ^ q
    · refine ⟨value + ulps * 2 ^ q, ?_, h1.1, (not_le.1 h1.2).le⟩
      exact Finset.mem_union_left _ (Finset.mem_union_right _
        (Finset.mem_image_of_mem (fun q : Int => value + ulps * 2 ^ q) hq))
    · by_cases h2 : ¬ value ≤ x + ulps * 2 ^ q ∧ value ≤ x' + ulps * 2 ^ q
      · refine ⟨value - ulps * 2 ^ q, ?_, by linarith [not_le.1 h2.1], by linarith [h2.2]⟩
        exact Finset.mem_union_right _
          (Finset.mem_image_of_mem (fun q : Int => value - ulps * 2 ^ q) hq)
      · refine absurd ?_ hne
        have e1 : (x ≤ value + ulps * 2 ^ q) = (x' ≤ value + ulps * 2 ^ q) :=
          propext ⟨fun h => by_contra fun h' => h1 ⟨h, h'⟩, fun h => hx.trans h⟩
        have e2 : (value ≤ x + ulps * 2 ^ q) = (value ≤ x' + ulps * 2 ^ q) :=
          propext ⟨fun h => by linarith, fun h => by_contra fun h' => h2 ⟨h', h⟩⟩
        simp only [e1, e2]
  · have h1 := b4.resolve_left (by omega)
    have h2 := a3.resolve_left (by omega)
    have h3 : (2 : ℚ) ^ (q' + 53) ≤ 2 ^ (q + 52) := mono (by omega)
    linarith

/-! ### The tries end -/

/-- No angle off the axes is rational. -/
theorem irrational_rayAngle (r : Ray) : Irrational (rayAngle r) := by
  have hn : (0 : ℝ) < r.num := by exact_mod_cast r.num_pos
  have hd : (0 : ℝ) < r.den := by exact_mod_cast r.den_pos
  have hpos := Real.arctan_pos.2 (div_pos hn hd)
  have hlt := Real.arctan_lt_pi_div_two (r.num / r.den : ℝ)
  have hcos := (Real.cos_arctan_pos (r.num / r.den : ℝ)).ne'
  have htan : Real.sin (Real.arctan (r.num / r.den)) * r.den = Real.cos (Real.arctan (r.num / r.den)) * r.num := by
    have := Real.tan_arctan (r.num / r.den : ℝ)
    rw [Real.tan_eq_sin_div_cos, div_eq_div_iff hcos hd.ne'] at this
    linear_combination this
  have hd0 : (r.den : ℤ) ≠ 0 := by exact_mod_cast r.den_pos.ne'
  unfold rayAngle
  split
  · refine irrational_of_tan_rational (by linarith [Real.pi_pos]) (by simpa using hcos) hd0 (p := -r.num) ?_
    rw [Real.sin_pi_sub, Real.cos_pi_sub]
    push_cast
    linear_combination htan
  · exact irrational_of_tan_rational hpos hcos hd0 (p := r.num) (by exact_mod_cast htan)

/-- An irrational number keeps a distance from finitely many rational ones. -/
theorem exists_distance {θ : ℝ} (hθ : Irrational θ) (cuts : Finset ℚ) :
    ∃ δ > 0, ∀ c ∈ cuts, δ ≤ |θ - c| := by
  induction cuts using Finset.induction_on with
  | empty => exact ⟨1, one_pos, by simp⟩
  | insert c cuts _ ih =>
    obtain ⟨δ, hδ, h⟩ := ih
    have hc : 0 < |θ - c| := abs_pos.2 (sub_ne_zero.2 (hθ.ne_rat c))
    refine ⟨min δ |θ - c|, lt_min hδ hc, fun d hd => ?_⟩
    rcases Finset.mem_insert.1 hd with rfl | hd
    · exact min_le_right _ _
    · exact (min_le_left _ _).trans (h d hd)

/-- The bounds come as close as wanted. -/
theorem exists_try {δ : ℝ} (hδ : 0 < δ) : ∃ k, (10 * tryBits k + 30 : ℝ) / 2 ^ tryBits k < δ := by
  have h1 := tendsto_pow_const_div_const_pow_of_one_lt 1 (r := (2 : ℝ)) (by norm_num)
  have h0 := tendsto_pow_const_div_const_pow_of_one_lt 0 (r := (2 : ℝ)) (by norm_num)
  have h : Filter.Tendsto (fun n : Nat => (10 * n + 30 : ℝ) / 2 ^ n) Filter.atTop (nhds 0) := by
    have := (h1.const_mul 10).add (h0.const_mul 30)
    simp only [mul_zero, add_zero] at this
    refine this.congr fun n => ?_
    ring
  have hbits : Filter.Tendsto tryBits Filter.atTop Filter.atTop :=
    Filter.tendsto_atTop_mono (fun k => by
      have := k.lt_two_pow_self
      unfold tryBits
      simp only [id]
      omega) Filter.tendsto_id
  exact ((h.comp hbits).eventually_lt_const hδ).exists

/-- Some try gives the value of a step function at the angle. -/
theorem settles {α : Type} [DecidableEq α] {f : Nat → Int → α} (hf : IsStep f) (r : Ray) :
    ∃ k, (r.settleAt f (tryBits k)).isSome = true := by
  obtain ⟨cuts, hcuts⟩ := hf
  obtain ⟨δ, hδ, hfar⟩ := exists_distance (irrational_rayAngle r) cuts
  obtain ⟨k, hk⟩ := exists_try hδ
  refine ⟨k, ?_⟩
  generalize tryBits k = bits at *
  obtain ⟨h1, h2, h3⟩ := bounds_spec r bits
  have hp : (0 : ℝ) < 2 ^ bits := by positivity
  have hle : (r.bounds bits).1 ≤ (r.bounds bits).2 := by exact_mod_cast h1.trans h2
  simp only [Ray.settleAt]
  split
  · rfl
  · next hne =>
    obtain ⟨c, hc, l1, l2⟩ := hcuts _ _ _ hle hne
    have hfar := hfar c hc
    have cast (m : Nat) : (((m : ℚ) * 2 ^ (-(bits : Int)) : ℚ) : ℝ) = m / 2 ^ bits := by
      push_cast
      rw [zpow_neg, zpow_natCast, div_eq_mul_inv]
    have l1' : ((r.bounds bits).1 : ℝ) / 2 ^ bits ≤ c := by rw [← cast]; exact_mod_cast l1
    have l2' : (c : ℝ) ≤ (r.bounds bits).2 / 2 ^ bits := by rw [← cast]; exact_mod_cast l2
    have a1 : ((r.bounds bits).1 : ℝ) / 2 ^ bits ≤ rayAngle r := by rwa [div_le_iff₀ hp]
    have a2 : rayAngle r ≤ (r.bounds bits).2 / 2 ^ bits := by rwa [le_div_iff₀ hp]
    have hw : ((r.bounds bits).2 : ℝ) / 2 ^ bits - (r.bounds bits).1 / 2 ^ bits ≤
        (10 * bits + 30) / 2 ^ bits := by
      rw [← sub_div]
      gcongr
      have : ((r.bounds bits).2 : ℝ) ≤ (r.bounds bits).1 + 10 * bits + 30 := by exact_mod_cast h3
      linarith
    have : |rayAngle r - c| ≤ (10 * bits + 30) / 2 ^ bits := abs_le.2 ⟨by linarith, by linarith⟩
    linarith

end Sys2Proof.Machine
end

