-- ==== Sys2Proof/Machine/Atan2.lean ====
section
/-! DEFINITION. The build parameter ATAN2 (40_numerics.md R153 to R157): the default build's correctly
rounded arctangent, and R156 for every build. -/

namespace Sys2Proof.Machine

/-- PI64 = RNE64(π) (R154) -/
def pi64 : Nat := 0x400921FB54442D18

/-- HALFPI64 = RNE64(π/2) (R154) -/
def halfPi64 : Nat := 0x3FF921FB54442D18

/-- The value of a step function at the angle: the first try that gives one (log 6). Eight tries reach
40,960 bits; that some try gives it is proved in AngleSearch.lean. -/
def Ray.settle {α : Type} [DecidableEq α] (r : Ray) (f : Nat → Int → α) (hf : IsStep f) : α :=
  match r.settleUpTo f 8 0 with
  | some v => v
  | none => (r.settleAt f (tryBits (Nat.find (settles hf r)))).get (Nat.find_spec (settles hf r))

/-- RNE64 of the angle (R157), a magnitude. -/
def Ray.rounded (r : Ray) : Nat := r.settle roundMagW isStep_roundMagW

/-- The magnitude `mag` is within `ulps` units in the last place of the angle (R156(e)). -/
def Ray.within (r : Ray) (ulps : ℚ) (mag : Nat) : Bool :=
  let place := r.settle (ulpTest ulps (numOfW (packW false mag)).value) (isStep_ulpTest _ _)
  place.2.1 && place.2.2

/-- The magnitude part of a W pattern. -/
def magW (v : WBits) : Nat := v.toNat % 2 ^ 63

/-- The magnitude of ATAN2 of a build off the axes (R9): the default rounds the angle correctly (R157);
another build answers any value that R156(b) and (e) allow, a free value where it meets them (log 5). -/
def Ray.magOf (r : Ray) (cfg : Config) (y x : WBits) : Nat :=
  match cfg.atan2 with
  | .correctlyRounded => r.rounded
  | .other id =>
    let mag := magW (Config.freeAtan2 (id + 1) y x)
    if decide (mag ≤ pi64) && r.within cfg.atan2Ulps mag then mag else r.rounded

/-- The ray to the point (±n · 2^f, m · 2^e), off the axes. -/
def rayOf (left : Bool) (m n : Nat) (e f : Int) (hm : m ≠ 0) (hn : n ≠ 0) : Ray where
  left := left
  num := m * 2 ^ (e - min e f).toNat
  den := n * 2 ^ (f - min e f).toNat
  num_pos := Nat.mul_pos (Nat.pos_of_ne_zero hm) (Nat.two_pow_pos _)
  den_pos := Nat.mul_pos (Nat.pos_of_ne_zero hn) (Nat.two_pow_pos _)

/-- ATAN2 of a build (R9, R156). On the axes it is what R156(c) says; off them its sign is the sign of y
(R156(d)). R153 gives no definition for operands that are not finite or both zero: there the value is
free (log 5). -/
def atan2 (cfg : Config) (y x : WBits) : WBits :=
  match numOfW y, numOfW x with
  | .fin negY m e, .fin negX n f =>
    if hm : m = 0 then
      if n = 0 then Config.freeAtan2 0 y x
      else if negX then packW negY pi64 else packW negY 0
    else if hn : n = 0 then packW negY halfPi64
    else packW negY ((rayOf negX m n e f hm hn).magOf cfg y x)
  | _, _ => Config.freeAtan2 0 y x

end Sys2Proof.Machine
end

