-- ==== Sys2Proof/Machine/Phase.lean ====
section
/-! DEFINITION. The PHASE command's completion step (43_phase.md R240 to R253). -/

namespace Sys2Proof.Machine

/-- RAD2DEG = RNE64(180/π) (R247) -/
def rad2deg : WBits := 0x404CA5DC1A63C1F8#64

/-- 360.0 in W -/
def w360 : WBits := 0x4076800000000000#64

/-- Normalise(x) for finite x (R249): the exact remainder by 360, 360 added when it is negative, and the
two fix-ups that give [+0, 360). -/
def normalise (x : WBits) : WBits :=
  let r := fmodW x w360
  let r := if isNegative r then addW r w360 else r
  let r := if r = w360 then 0#64 else r
  if isZero r then 0#64 else r

/-- The degenerate-phase test of R244: |re| < EPS and |im| < EPS, exact and strict (R151). -/
def phaseUndefined (eps : WBits) (bin : Pair) : Bool :=
  (numOfS bin.1).magLt (numOfW eps) && (numOfS bin.2).magLt (numOfW eps)

/-- The finiteness test of R245. -/
def phaseFinite (cal : WBits) (bin : Pair) : Bool :=
  (numOfS bin.1).isFinite && (numOfS bin.2).isFinite && (numOfW cal).isFinite

/-- The measurement of R246 to R249: the angle of the bin in degrees, the offset added, normalised. -/
def measure (cfg : Config) (cal : WBits) (bin : Pair) : WBits :=
  normalise (addW (mulW (atan2 cfg (toW bin.2) (toW bin.1)) rad2deg) cal)

/-- What a PHASE completion writes: PHASE and the three result flags (R240). -/
structure PhaseResult where
  value : WBits
  oor : Bool
  und : Bool
  nf : Bool
deriving DecidableEq, Repr

/-- The result for a bin in range, in the order of the checks (R240, R253). -/
def phaseOfBin (cfg : Config) (cal : WBits) (bin : Pair) : PhaseResult :=
  if phaseUndefined cfg.eps bin then { value := 0#64, oor := false, und := true, nf := false }
  else if phaseFinite cal bin then
    { value := measure cfg cal bin, oor := false, und := false, nf := false }
  else { value := 0#64, oor := false, und := false, nf := true }

/-- The completion step of PHASE (R240, R250): out of range when k ≥ N/2, and then no element is read
(R242); a model fault when an element of the bin is unwritten (R243). -/
def phaseResult (s : State) : Option PhaseResult :=
  if s.cfg.size / 2 ≤ s.lk.toNat then
    some { value := 0#64, oor := true, und := false, nf := false }
  else (readPair s.buf s.lk.toNat).map (phaseOfBin s.cfg s.lcal)

/-- The completion step of PHASE, applied atomically (R250). -/
def completePhase (s : State) : Out :=
  match phaseResult s with
  | none => .fault .unwrittenPhase
  | some r => .next (complete { s with phase := r.value, oor := r.oor, und := r.und, nf := r.nf })

end Sys2Proof.Machine
end

