-- ==== Sys2Proof/Machine/Transform.lean ====
section
/-! DEFINITION. The TRANSFORM command's completion step (42_transform.md R200 to R219): the bit-reversal
permutation and the butterfly passes, in the order and with the roundings of the spec. -/

namespace Sys2Proof.Machine

/-- rev_L(i): the L-bit binary expansion of i reversed (R13). -/
def bitReverse : Nat → Nat → Nat
  | 0, _ => 0
  | bits + 1, i => i % 2 * 2 ^ bits + bitReverse bits (i / 2)

/-- X[i], for i inside the list. -/
def pairAt (x : List Pair) (i : Nat) : Pair := x.getD i (0#32, 0#32)

/-- swap X[i] and X[r]: both elements of a pair move together, with no arithmetic (R202). -/
def swapPairs (x : List Pair) (i r : Nat) : List Pair := (x.set i (pairAt x r)).set r (pairAt x i)

/-- BitReverse(X), the procedure of R202: for i from 0 to N−1, swap with r = rev_L(i) if r > i. -/
def bitReversePairs (log2n : Nat) (x : List Pair) : List Pair :=
  (List.range (2 ^ log2n)).foldl
    (fun x i => if i < bitReverse log2n i then swapPairs x i (bitReverse log2n i) else x) x

/-- The inner loop of R203: while m ≥ 1 and j ≥ m, j <- j − m and m <- m/2; then j <- j + m. It starts
with m = N/2 = 2^(L−1), and m = 2^k while k+1 halvings are left. -/
def incrementReversed : Nat → Nat → Nat
  | 0, j => j
  | k + 1, j => if 2 ^ k ≤ j then incrementReversed k (j - 2 ^ k) else j + 2 ^ k

/-- The incremental technique of R203, which a builder may use instead: the pairs and the index j after
the first `count` iterations. -/
def incrementalReversal (log2n : Nat) (x : List Pair) (count : Nat) : List Pair × Nat :=
  (List.range count).foldl
    (fun acc i =>
      (if i < acc.2 then swapPairs acc.1 i acc.2 else acc.1, incrementReversed log2n acc.2))
    (x, 0)

/-- w_0 = (1.0, +0.0) (R204) -/
def twiddleOne : Twiddle := (0x3FF0000000000000#64, 0#64)

/-- Rec: the recurrence step, every operation in W and rounded once, in this order (R207). -/
def twiddleStep (w seed : Twiddle) : Twiddle :=
  (addW (subW (mulW w.1 seed.1) (mulW w.2 seed.2)) w.1,
    addW (addW (mulW w.2 seed.1) (mulW w.1 seed.2)) w.2)

/-- w_t of pass p (R206). -/
def twiddle (p t : Nat) : Twiddle := (fun w => twiddleStep w (seed p))^[t] twiddleOne

/-- tr and ti: the twiddle product of the far pair, formed in W and rounded once to S (R208). -/
def twiddleProduct (far : Pair) (w : Twiddle) : Pair :=
  let xr := toW far.1
  let xi := toW far.2
  (toS (subW (mulW w.1 xr) (mulW w.2 xi)), toS (addW (mulW w.1 xi) (mulW w.2 xr)))

/-- Butterfly(X, a, c, w): all four results come from the old values of pairs a and c (R208). -/
def butterfly (x : List Pair) (a c : Nat) (w : Twiddle) : List Pair :=
  let near := pairAt x a
  let t := twiddleProduct (pairAt x c) w
  (x.set c (subS near.1 t.1, subS near.2 t.2)).set a (addS near.1 t.1, addS near.2 t.2)

/-- The butterflies of index t in pass p, for the block starts b = 0, 2h, …, N − 2h (R204). -/
def passBlocks (log2n p t : Nat) (w : Twiddle) (x : List Pair) : List Pair :=
  (List.range (2 ^ log2n / (2 * 2 ^ p))).foldl
    (fun x block => butterfly x (2 * 2 ^ p * block + t) (2 * 2 ^ p * block + t + 2 ^ p) w) x

/-- Pass(X, p): for t from 0 to h−1, the butterflies of index t and then the recurrence; the value w_h is
discarded (R204). -/
def pass (log2n p : Nat) (x : List Pair) : List Pair :=
  ((List.range (2 ^ p)).foldl
    (fun acc t => (passBlocks log2n p t acc.2 acc.1, twiddleStep acc.2 (seed p)))
    (x, twiddleOne)).1

/-- The transform of N pairs: BitReverse, then the passes p = 0 to L−1 (R200). -/
def transformPairs (log2n : Nat) (x : List Pair) : List Pair :=
  (List.range log2n).foldl (fun x p => pass log2n p x) (bitReversePairs log2n x)

/-- The completion step of TRANSFORM, applied atomically (R200, R217); a model fault when any element is
unwritten (R216). -/
def completeTransform (s : State) : Out :=
  match readPairs s.buf 0 s.cfg.size with
  | none => .fault .unwrittenTransform
  | some x => .next (complete { s with buf := writePairs s.buf 0 (transformPairs s.cfg.log2n x) })

end Sys2Proof.Machine
end

