-- ==== Sys2Proof/Machine/Engine.lean ====
section
/-! DEFINITION. The engine's one step (R6), and what happens when no event is pending. -/

namespace Sys2Proof.Machine

/-- The engine's step (R6, R55): while BUSY, the completion of the current command; while idle the engine
has no step, and its turn passes (log 1). -/
def engineStep (s : State) : Out :=
  if s.busy then
    match s.curOp with
    | .transform => completeTransform s
    | .phase => completePhase s
  else .next s

/-- A reset event (R350, R351): the state of R57, whatever ran before; the build and the events that
follow stay. -/
def resetStep (s : State) : Out := .next (State.resetOf s.cfg s.events)

end Sys2Proof.Machine
end

