-- ==== Sys2Proof/Machine/BlockStep.lean ====
section
/-! DEFINITION. The step relation of FFTPC as R30 has it: over the record `Block` alone, with the build as its
parameter. What the machine's `step` does to a state is this relation, put into the state. -/

namespace Sys2Proof.Machine

/-- The record in a build, as a meaning takes it: no input pending, and an answer that no meaning reads. -/
def Block.inBuild (b : Block) (cfg : Config) : State where
  toBlock := b
  cfg := cfg
  resp := .okay
  rdata := 0#32
  events := []

/-- What an event leaves: the record after it, and what stands at the host's port where the event writes it,
(RESP, RDATA). -/
abbrev BlockOut := Host.Outcome (Block × Option (Resp × Word)) Fault Refusal

/-- The block's part of an outcome; `answers` says that the event writes the host's port. -/
def blockOut (answers : Bool) : Out → BlockOut
  | .next s => .next (s.toBlock, if answers then some (s.resp, s.rdata) else none)
  | .fault f => .fault f
  | .refused r => .refused r

/-- The step relation of the build `cfg` (R30): a host input is decoded and its instruction executed, as one
atomic step (R280); the engine's turn (R6); a reset (R350), which also clears the port (log 4). -/
def Block.step (cfg : Config) (event : Event) (b : Block) : BlockOut :=
  match event with
  | .host e => blockOut true (exec (decode cfg.log2n e) (b.inBuild cfg))
  | .engine => blockOut false (engineStep (b.inBuild cfg))
  | .reset => blockOut true (resetStep (b.inBuild cfg))

/-- What an event does, put into the state: the record and the answer at the host's port. The build and the
events to come stay. -/
def State.put (s : State) : BlockOut → Out
  | .next (b, some (r, d)) => .next { s with toBlock := b, resp := r, rdata := d }
  | .next (b, none) => .next { s with toBlock := b }
  | .fault f => .fault f
  | .refused r => .refused r

/-- The effect of an event on a state (log 1): the step relation of the build, over the record (R30). -/
def eventStep (event : Event) (s : State) : Out := s.put (Block.step s.cfg event s.toBlock)

end Sys2Proof.Machine
end

