-- ==== Sys2Proof/Machine/Step.lean ====
section
/-! DEFINITION. One step of the machine: the next event is taken and has its effect. -/

namespace Sys2Proof.Machine

/-- One step. A build that is rejected when it is configured has none (R7). With no event pending the
engine completes the command it runs (R363), and an idle block waits (R353). -/
def step (s : State) : Host.Outcome State Fault Refusal :=
  if s.cfg.valid then
    match s.events with
    | [] => eventStep .engine s
    | event :: rest => eventStep event { s with events := rest }
  else .refused .invalidArgument

/-- The opcode-table word as the next event (log 3). -/
def State.withFetchWord (s : State) (nbits w : Nat) : State :=
  match encodedOfTableWord nbits w with
  | some e => { s with events := .host e :: s.events }
  | none => s

end Sys2Proof.Machine
end

