-- ==== Sys2Proof/Machine/HostNotation.lean ====
section
/-! DEFINITION. The host program notation (30_encoding.md R119, R120): each line or pseudo-instruction as
the encoded inputs it stands for. The host's control flow (`if`, labels, `expect`) is outside the block. -/

namespace Sys2Proof.Machine

/-- `wr <addr>, <word>` (R119) -/
def lineWr (addr : Addr) (word : Word) : Encoded := encodeWrite addr word

/-- `rd <addr> -> <var>` (R119) -/
def lineRd (addr : Addr) : Encoded := encodeRead addr

/-- `nop`, `transform`, `phase` (R120): the command word is written to CTRL. -/
def lineCommand (word : Word) : Encoded := lineWr 0x000000#22 word

/-- `setk <k>` (R120) -/
def lineSetK (k : Word) : Encoded := lineWr 0x000010#22 k

/-- `setcal <d>` (R120): the low half, then the high half, of the pattern of d. -/
def linesSetCal (d : WBits) : List Encoded :=
  [lineWr 0x000018#22 (d.extractLsb' 0 32), lineWr 0x00001C#22 (d.extractLsb' 32 32)]

/-- `getphase -> <v>` (R120) -/
def linesGetPhase : List Encoded := [lineRd 0x000020#22, lineRd 0x000024#22]

/-- `ldbuf <e>, <word>` (R120) -/
def lineLdBuf (e : BitVec 17) (word : Word) : Encoded := lineWr (bufAddr e) word

/-- `rdbuf <e> -> <v>` (R120) -/
def lineRdBuf (e : BitVec 17) : Encoded := lineRd (bufAddr e)

/-- `clr <mask>` (R120) -/
def lineClr (mask : Word) : Encoded := lineWr 0x000004#22 mask

/-- One turn of `wait` (R120): a read of STATUS. -/
def lineWait : Encoded := lineRd 0x000004#22

/-- `rdwin FT, <n>` (R120) -/
def lineRdWinFt (n : BitVec 16) : Encoded := lineRd (winFtAddr n)

/-- `rdwin HN, <n>` (R120) -/
def lineRdWinHn (n : BitVec 16) : Encoded := lineRd (winHnAddr n)

/-- A host program with no engine turn or reset between its lines. -/
def program (lines : List Encoded) : List Event := lines.map Event.host

end Sys2Proof.Machine
end

