-- ==== Sys2Proof/Safety.lean ====
section
/-! DEFINITION. The terms in which claims about runs are made: the invariant of the machine, when a step
cannot fault, and when two states look the same from outside. -/

namespace Sys2Proof.Machine

/-- Every listed address lies in the BUF region of the build (R81). -/
def Memory.inRegion (log2n : Nat) (m : Memory) : Prop :=
  ∀ c ∈ m, 0x100000 ≤ c.1 ∧ c.1 < 0x100000 + 8 * 2 ^ log2n

/-- Every element is a whole pattern or unwritten (R51): no byte of an element is written without the
others. -/
def Memory.wholeElements (m : Memory) : Prop :=
  ∀ c ∈ m, ∀ lane < 4, (readByte m (c.1 - c.1 % 4 + lane)).isSome

/-- The invariant of the machine: what every step keeps from every state that has it. -/
structure Inv (s : State) : Prop where
  /-- The memory has its canonical form. -/
  canonical : s.buf.wf
  /-- Only the buffer is memory (R81). -/
  region : s.buf.inRegion s.cfg.log2n
  /-- Each element is a pattern or unwritten (R51). -/
  whole : s.buf.wholeElements
  /-- PHASE is a W pattern in [+0, 360.0) (R49, R251): the patterns of the non-negative W values rise
  with the values. -/
  phaseRange : s.phase.toNat < w360.toNat
  /-- At most one of OOR, UND, NF is 1 (R43, R253). -/
  oneSentinel : (s.oor && s.und) = false ∧ (s.oor && s.nf) = false ∧ (s.und && s.nf) = false
  /-- A running command has not completed: acceptance clears DONE and completion clears BUSY (R36, R37). -/
  busyNotDone : (s.busy && s.done) = false

/-- Every element of the buffer is written (R216). -/
def bufferFull (s : State) : Prop := ∀ e < 2 * s.cfg.size, (readElement s.buf e).isSome

/-- Two states that the host cannot tell apart: they differ at most in the latches, and there only where
the latches mean nothing (R57: while idle; R54: LK and LCAL belong to PHASE). -/
structure SameVisible (s t : State) : Prop where
  rest : s = { t with curOp := s.curOp, lk := s.lk, lcal := s.lcal }
  command : s.busy = true → s.curOp = t.curOp
  operands : s.busy = true → s.curOp = .phase → s.lk = t.lk ∧ s.lcal = t.lcal

/-- The engine moves in this step: the head of the events is its turn, or nothing is pending. -/
def engineMoves (s : State) : Prop := s.events = [] ∨ ∃ rest, s.events = .engine :: rest

/-- The machine is reset in this step. -/
def resets (s : State) : Prop := ∃ rest, s.events = .reset :: rest

/-- `v` is the S value nearest to the real `r`, ties to an even fraction, or the infinity of `r`'s sign at
and beyond the overflow threshold (R146). -/
def RoundsToS (r : ℚ) (v : SBits) : Prop :=
  if |r| < (2 ^ 24 - 1 / 2) * 2 ^ 104 then
    (numOfS v).isFinite = true ∧
      ∀ u : SBits, (numOfS u).isFinite = true →
        |(numOfS v).value - r| ≤ |(numOfS u).value - r| ∧
          (|(numOfS v).value - r| = |(numOfS u).value - r| →
            (numOfS u).value = (numOfS v).value ∨ v.getLsbD 0 = false)
  else v = packS (decide (r < 0)) infMagS

/-- `v` is the W value nearest to the real `r`, ties to an even fraction, or the infinity of `r`'s sign at
and beyond the overflow threshold (R148). -/
def RoundsToW (r : ℚ) (v : WBits) : Prop :=
  if |r| < (2 ^ 53 - 1 / 2) * 2 ^ 971 then
    (numOfW v).isFinite = true ∧
      ∀ u : WBits, (numOfW u).isFinite = true →
        |(numOfW v).value - r| ≤ |(numOfW u).value - r| ∧
          (|(numOfW v).value - r| = |(numOfW u).value - r| →
            (numOfW u).value = (numOfW v).value ∨ v.getLsbD 0 = false)
  else v = packW (decide (r < 0)) infMagW

/-- The real angle that ATAN2 stands for, in (−π, π] (R155: atan2_R). -/
noncomputable def atan2R (y x : WBits) : ℝ := Complex.arg ⟨(numOfW x).value, (numOfW y).value⟩

/-- `v` is RNE64 of the real `r` (R148) below the overflow threshold: the finite W value nearest to `r`, with
an even fraction where another value is as near. -/
def NearestW (r : ℝ) (v : WBits) : Prop :=
  (numOfW v).isFinite = true ∧
    ∀ u : WBits, (numOfW u).isFinite = true →
      |((numOfW v).value : ℝ) - r| ≤ |((numOfW u).value : ℝ) - r| ∧
        (|((numOfW v).value : ℝ) - r| = |((numOfW u).value : ℝ) - r| →
          (numOfW u).value = (numOfW v).value ∨ v.getLsbD 0 = false)

/-- `v` is within `ulps` units in the last place of the real `r` (R156(e)). The unit is the distance of the W
values around `r`, which is 2^ulp where 2^(ulp+52) ≤ |r| < 2^(ulp+53), and 2^−1074 below that (log 5). -/
def WithinUlps (ulps : ℚ) (r : ℝ) (v : WBits) : Prop :=
  ∃ ulp : Int, -1074 ≤ ulp ∧ (ulp = -1074 ∨ 2 ^ (ulp + 52) ≤ |r|) ∧ |r| < 2 ^ (ulp + 53) ∧
    |((numOfW v).value : ℝ) - r| ≤ ulps * 2 ^ ulp

end Sys2Proof.Machine
end

