-- ==== Sys2Proof/Certificates/Slice0/Obligations.lean ====
section
/-! DEFINITION. The statements for the provers. A conclusion of the form `exec i s = .next { s with … }`
names every field that the instruction writes; every field that it does not name is unchanged. -/

open Sys2Proof Sys2Proof.Machine

/-! ### Address errors -/

/-- R304: a transaction with ADDR[1:0] ≠ 00 is MISALIGNED whatever the rest of it is, and raises
AddressError: ERR_ADDR is set, the response is ERROR with data 0, nothing is read or written. -/
def Obligations.MisalignedRaisesAddressError : Prop :=
  (∀ (we : Bool) (a : BitVec 20) (d : Word) (s : State),
    exec (.misaligned01 we a d) s = .next { s with errAddr := true, resp := .error, rdata := 0#32 } ∧
    exec (.misaligned10 we a d) s = .next { s with errAddr := true, resp := .error, rdata := 0#32 } ∧
    exec (.misaligned11 we a d) s = .next { s with errAddr := true, resp := .error, rdata := 0#32 }) ∧
  ∀ (log2n : Nat) (t : Selector) (d : Word) (s : State), t.toNat % 4 ≠ 0 →
    exec (decode log2n (.hostbus t d)) s =
      .next { s with errAddr := true, resp := .error, rdata := 0#32 }

/-- R303: an aligned transaction, read or write, whose address lies in no region of R81 is UNMAPPED and
raises AddressError, whether BUSY or not. -/
def Obligations.UnmappedRaisesAddressError : Prop :=
  (∀ (we : Bool) (a : Addr) (d : Word) (s : State),
    exec (.unmapped we a d) s = .next { s with errAddr := true, resp := .error, rdata := 0#32 }) ∧
  ∀ (log2n : Nat) (we : Bool) (a : Addr) (d : Word), log2n ≤ 16 → a.toNat % 4 = 0 →
    mappedAddress log2n a.toNat = false →
    decode log2n (.hostbus (selector we a) d) = .unmapped we a d

/-- R290, R299, R300, R190: a write to CFG, PHASE_LO, PHASE_HI or a window ROM raises AddressError, also
while BUSY, and the register or ROM is unchanged. -/
def Obligations.ReadOnlyWritesRaiseAddressError : Prop :=
  (∀ (log2n : Nat) (d : Word),
    decode log2n (.hostbus 0x40000C#23 d) = .wrCfg d ∧
    decode log2n (.hostbus 0x400020#23 d) = .wrPhaseLo d ∧
    decode log2n (.hostbus 0x400024#23 d) = .wrPhaseHi d ∧
    ∀ n : BitVec 16, n.toNat < 2 ^ log2n →
      decode log2n (.hostbus (0b1_1000#5 ++ n ++ 0b00#2) d) = .wrWinFt n d ∧
      decode log2n (.hostbus (0b1_1100#5 ++ n ++ 0b00#2) d) = .wrWinHn n d) ∧
  ∀ (n : BitVec 16) (d : Word) (s : State),
    exec (.wrCfg d) s = .next { s with errAddr := true, resp := .error, rdata := 0#32 } ∧
    exec (.wrPhaseLo d) s = .next { s with errAddr := true, resp := .error, rdata := 0#32 } ∧
    exec (.wrPhaseHi d) s = .next { s with errAddr := true, resp := .error, rdata := 0#32 } ∧
    exec (.wrWinFt n d) s = .next { s with errAddr := true, resp := .error, rdata := 0#32 } ∧
    exec (.wrWinHn n d) s = .next { s with errAddr := true, resp := .error, rdata := 0#32 }

/-! ### Registers -/

/-- R281, R289, R297, R298: at any time, also while BUSY, CTRL reads 0; CFG reads LOG2N in bits 4:0 and
0x01 in bits 15:8 and 0 elsewhere (R46), in every build that is accepted; PHASE_LO and PHASE_HI read the
halves of PHASE. A read changes no register and no flag. -/
def Obligations.ReadOnlyRegistersRead : Prop :=
  ∀ (log2n : Nat) (d : Word) (s : State),
    (decode log2n (.hostbus 0x000000#23 d) = .rdCtrl ∧
      decode log2n (.hostbus 0x00000C#23 d) = .rdCfg ∧
      decode log2n (.hostbus 0x000020#23 d) = .rdPhaseLo ∧
      decode log2n (.hostbus 0x000024#23 d) = .rdPhaseHi) ∧
    exec .rdCtrl s = .next { s with resp := .okay, rdata := 0#32 } ∧
    (∃ w : Word, exec .rdCfg s = .next { s with resp := .okay, rdata := w } ∧
      (s.cfg.valid = true → w.toNat = s.cfg.log2n + 0x100)) ∧
    (∃ w : Word, exec .rdPhaseLo s = .next { s with resp := .okay, rdata := w } ∧
      w.toNat = s.phase.toNat % 2 ^ 32) ∧
    (∃ w : Word, exec .rdPhaseHi s = .next { s with resp := .okay, rdata := w } ∧
      w.toNat = s.phase.toNat / 2 ^ 32)

/-- R285, R35, R44: a read of STATUS returns each flag in its bit, the reserved bits as 0, and clears
nothing. -/
def Obligations.StatusReadShowsEveryFlag : Prop :=
  ∀ (log2n : Nat) (d : Word) (s : State),
    decode log2n (.hostbus 0x000004#23 d) = .rdStatus ∧
    ∃ w : Word, exec .rdStatus s = .next { s with resp := .okay, rdata := w } ∧
      w.getLsbD 0 = s.busy ∧ w.getLsbD 1 = s.done ∧ w.getLsbD 2 = s.errCmd ∧ w.getLsbD 3 = s.errBusy ∧
      w.getLsbD 4 = s.errAddr ∧ w.getLsbD 8 = s.oor ∧ w.getLsbD 9 = s.und ∧ w.getLsbD 10 = s.nf ∧
      ∀ b, (5 ≤ b ∧ b ≤ 7) ∨ 11 ≤ b → w.getLsbD b = false

/-- R286: a write of STATUS clears DONE, ERR_CMD, ERR_BUSY, ERR_ADDR where bit 1, 2, 3, 4 of WDATA is 1,
and changes nothing else, also while BUSY. -/
def Obligations.StatusWriteClearsSelectedFlags : Prop :=
  ∀ (log2n : Nat) (d : Word) (s : State),
    decode log2n (.hostbus 0x400004#23 d) = .wrStatus d ∧
    exec (.wrStatus d) s =
      .next { s with
        done := if d.getLsbD 1 then false else s.done
        errCmd := if d.getLsbD 2 then false else s.errCmd
        errBusy := if d.getLsbD 3 then false else s.errBusy
        errAddr := if d.getLsbD 4 then false else s.errAddr
        resp := .okay, rdata := 0#32 }

/-- R287, R288: IRQ_EN holds DONE_IE in bit 0 and ERR_IE in bit 1; bits 31:2 read 0 and are ignored by a
write. -/
def Obligations.IrqEnableReadAndWrite : Prop :=
  ∀ (log2n : Nat) (d : Word) (s : State),
    decode log2n (.hostbus 0x000008#23 d) = .rdIrqEn ∧
    decode log2n (.hostbus 0x400008#23 d) = .wrIrqEn d ∧
    exec (.wrIrqEn d) s =
      .next { s with doneIe := d.getLsbD 0, errIe := d.getLsbD 1, resp := .okay, rdata := 0#32 } ∧
    ∃ w : Word, exec .rdIrqEn s = .next { s with resp := .okay, rdata := w } ∧
      w.getLsbD 0 = s.doneIe ∧ w.getLsbD 1 = s.errIe ∧ ∀ b, 2 ≤ b → w.getLsbD b = false

/-- R56, R320: the interrupt output. -/
def Obligations.InterruptIsLevelOfEnabledFlags : Prop :=
  ∀ s : State, irq s = true ↔
    (s.done = true ∧ s.doneIe = true) ∨
      ((s.errCmd = true ∨ s.errBusy = true ∨ s.errAddr = true) ∧ s.errIe = true)

/-- R291, R292, R47: BIN_K holds all 32 bits; a write takes any value, also while BUSY, and leaves the
latch of a running PHASE. -/
def Obligations.BinKReadAndWrite : Prop :=
  ∀ (log2n : Nat) (d : Word) (s : State),
    decode log2n (.hostbus 0x000010#23 d) = .rdBinK ∧
    decode log2n (.hostbus 0x400010#23 d) = .wrBinK d ∧
    exec .rdBinK s = .next { s with resp := .okay, rdata := s.binK } ∧
    exec (.wrBinK d) s = .next { s with binK := d, resp := .okay, rdata := 0#32 }

/-- R293 to R296, R48: the halves of CAL are read and written apart; each write leaves the other half, and
the latch of a running PHASE. -/
def Obligations.CalHalvesReadAndWrite : Prop :=
  ∀ (log2n : Nat) (d : Word) (s : State),
    (decode log2n (.hostbus 0x000018#23 d) = .rdCalLo ∧
      decode log2n (.hostbus 0x400018#23 d) = .wrCalLo d ∧
      decode log2n (.hostbus 0x00001C#23 d) = .rdCalHi ∧
      decode log2n (.hostbus 0x40001C#23 d) = .wrCalHi d) ∧
    (∃ w, exec .rdCalLo s = .next { s with resp := .okay, rdata := w } ∧
      w.toNat = s.cal.toNat % 2 ^ 32) ∧
    (∃ w, exec .rdCalHi s = .next { s with resp := .okay, rdata := w } ∧
      w.toNat = s.cal.toNat / 2 ^ 32) ∧
    (∃ c, exec (.wrCalLo d) s = .next { s with cal := c, resp := .okay, rdata := 0#32 } ∧
      c.toNat = s.cal.toNat / 2 ^ 32 * 2 ^ 32 + d.toNat) ∧
    (∃ c, exec (.wrCalHi d) s = .next { s with cal := c, resp := .okay, rdata := 0#32 } ∧
      c.toNat = d.toNat * 2 ^ 32 + s.cal.toNat % 2 ^ 32)

/-! ### The sample buffer -/

/-- R301: while idle a read of a written element returns its pattern bit for bit; while BUSY it raises
BusyError; while idle a read of an unwritten element is a model fault. -/
def Obligations.BufferRead : Prop :=
  ∀ (e : BitVec 17) (s : State),
    (∀ (log2n : Nat) (d : Word), e.toNat < 2 * 2 ^ log2n →
      decode log2n (.hostbus (0b0_010#4 ++ e ++ 0b00#2) d) = .rdBuf e) ∧
    (s.busy = false → ∀ w, readElement s.buf e.toNat = some w →
      exec (.rdBuf e) s = .next { s with resp := .okay, rdata := w }) ∧
    (s.busy = true →
      exec (.rdBuf e) s = .next { s with errBusy := true, resp := .error, rdata := 0#32 }) ∧
    (s.busy = false → readElement s.buf e.toNat = none → exec (.rdBuf e) s = .fault .unwrittenRead)

/-- R302: while idle a write stores the pattern in element e: the element reads back as written, every
byte outside its four bytes reads as before, and no other field changes; while BUSY it raises BusyError
and the buffer is unchanged. -/
def Obligations.BufferWrite : Prop :=
  ∀ (e : BitVec 17) (d : Word) (s : State),
    (∀ log2n : Nat, e.toNat < 2 * 2 ^ log2n →
      decode log2n (.hostbus (0b1_010#4 ++ e ++ 0b00#2) d) = .wrBuf e d) ∧
    (s.busy = false →
      ∃ m, exec (.wrBuf e d) s = .next { s with buf := m, resp := .okay, rdata := 0#32 } ∧
        readElement m e.toNat = some d ∧
        (∀ lane < 4, readByte m (elementAddr e.toNat + lane) = some (d.extractLsb' (8 * lane) 8)) ∧
        ∀ a, (a < elementAddr e.toNat ∨ elementAddr e.toNat + 4 ≤ a) →
          readByte m a = readByte s.buf a) ∧
    (s.busy = true →
      exec (.wrBuf e d) s = .next { s with errBusy := true, resp := .error, rdata := 0#32 })

/-! ### The window ROM -/

/-- R186, R187: a read of a window entry returns the ROM's pattern and has no side effect, also while
BUSY. -/
def Obligations.WindowRead : Prop :=
  ∀ (n : BitVec 16) (s : State),
    (∀ (log2n : Nat) (d : Word), n.toNat < 2 ^ log2n →
      decode log2n (.hostbus (0b0_1000#5 ++ n ++ 0b00#2) d) = .rdWinFt n ∧
      decode log2n (.hostbus (0b0_1100#5 ++ n ++ 0b00#2) d) = .rdWinHn n) ∧
    exec (.rdWinFt n) s = .next { s with resp := .okay, rdata := winFt s.cfg.log2n n.toNat } ∧
    exec (.rdWinHn n) s = .next { s with resp := .okay, rdata := winHn s.cfg.log2n n.toNat }

/-- R83, R84: an aligned address 0x100000 + 4e below 0x180000 decodes to buffer element e when e < 2N; an
aligned address 0x200000 + 4n below 0x240000 to entry n of the Flat-Top bank, and 0x300000 + 4n below
0x340000 to entry n of the Hann bank, when n < N; the direction is WE. With a greater index each is
unmapped. -/
def Obligations.AddressMapDecodes : Prop :=
  ∀ (log2n : Nat) (we : Bool) (a : Addr) (d : Word) (i : Nat),
    (i < 2 ^ 17 → a.toNat = 0x100000 + 4 * i →
      decode log2n (.hostbus (selector we a) d) =
        if i < 2 * 2 ^ log2n then
          (if we then .wrBuf (BitVec.ofNat 17 i) d else .rdBuf (BitVec.ofNat 17 i))
        else .unmapped we a d) ∧
    (i < 2 ^ 16 → a.toNat = 0x200000 + 4 * i →
      decode log2n (.hostbus (selector we a) d) =
        if i < 2 ^ log2n then
          (if we then .wrWinFt (BitVec.ofNat 16 i) d else .rdWinFt (BitVec.ofNat 16 i))
        else .unmapped we a d) ∧
    (i < 2 ^ 16 → a.toNat = 0x300000 + 4 * i →
      decode log2n (.hostbus (selector we a) d) =
        if i < 2 ^ log2n then
          (if we then .wrWinHn (BitVec.ofNat 16 i) d else .rdWinHn (BitVec.ofNat 16 i))
        else .unmapped we a d)

/-- R185(a), (b): both banks are symmetric bit for bit, and their ends are +0, in every build. -/
def Obligations.WindowSymmetricWithZeroEnds : Prop :=
  ∀ log2n n : Nat, n < 2 ^ log2n →
    winFt log2n n = winFt log2n (2 ^ log2n - 1 - n) ∧ winHn log2n n = winHn log2n (2 ^ log2n - 1 - n) ∧
    winFt log2n 0 = 0#32 ∧ winHn log2n 0 = 0#32

/-- R180, R181, R184 at N = 4: every entry of both banks is the S value nearest to the real value of the
window's formula. -/
def Obligations.WindowMatchesFormulaAtSizeFour : Prop :=
  ∀ n : Nat, n < 4 → ∃ ft hn : ℚ,
    (ft : ℝ) = 1 - 1.93 * Real.cos (2 * Real.pi * n / 3) + 1.29 * Real.cos (2 * (2 * Real.pi * n / 3))
      - 0.388 * Real.cos (3 * (2 * Real.pi * n / 3)) + 0.028 * Real.cos (4 * (2 * Real.pi * n / 3)) ∧
    (hn : ℝ) = 0.5 * (1 - Real.cos (2 * Real.pi * n / 3)) ∧
    RoundsToS ft (winFt 2 n) ∧ RoundsToS hn (winHn 2 n)

/-! ### Command words -/

/-- R283: NOP while idle has no effect and the response OKAY; while BUSY it is a CTRL write like any
other. -/
def Obligations.NopHasNoEffect : Prop :=
  decodeCmd 0#32 = .nop ∧
  ∀ s : State,
    (s.busy = false → exec .nop s = .next { s with resp := .okay, rdata := 0#32 } ∧
      exec (.wrCtrl 0#32) s = .next { s with resp := .okay, rdata := 0#32 }) ∧
    (s.busy = true → exec .nop s = .next { s with errBusy := true, resp := .okay, rdata := 0#32 })

/-- R284, R115: a reserved command word while idle sets ERR_CMD, with the response OKAY, and nothing
else. -/
def Obligations.ReservedCommandSetsErrCmd : Prop :=
  ∀ (w : Word) (s : State), s.busy = false →
    exec (.reservedCmd w) s = .next { s with errCmd := true, resp := .okay, rdata := 0#32 } ∧
    (3 ≤ w.toNat →
      decodeCmd w = .reservedCmd w ∧
      exec (.wrCtrl w) s = .next { s with errCmd := true, resp := .okay, rdata := 0#32 })

/-- R282, R54: TRANSFORM and PHASE written while idle are accepted: BUSY <- 1, DONE <- 0, CUR_OP latched,
and for PHASE also LK <- BIN_K and LCAL <- CAL. -/
def Obligations.CommandAcceptance : Prop :=
  ∀ s : State, s.busy = false →
    exec .transform s =
      .next { s with curOp := .transform, busy := true, done := false, resp := .okay, rdata := 0#32 } ∧
    exec .phase s =
      .next { s with
        curOp := .phase, lk := s.binK, lcal := s.cal, busy := true, done := false
        resp := .okay, rdata := 0#32 }

/-- R282, R39, R364: while BUSY every CTRL write, whatever the word, sets ERR_BUSY and changes nothing
else, with the response OKAY. -/
def Obligations.CtrlWriteWhileBusy : Prop :=
  ∀ (w : Word) (s : State), s.busy = true →
    exec (.wrCtrl w) s = .next { s with errBusy := true, resp := .okay, rdata := 0#32 } ∧
    exec .nop s = .next { s with errBusy := true, resp := .okay, rdata := 0#32 } ∧
    exec .transform s = .next { s with errBusy := true, resp := .okay, rdata := 0#32 } ∧
    exec .phase s = .next { s with errBusy := true, resp := .okay, rdata := 0#32 } ∧
    exec (.reservedCmd w) s = .next { s with errBusy := true, resp := .okay, rdata := 0#32 }

/-- R282: the transaction WR_CTRL delivers WDATA as a command word. While BUSY the word is ignored and
ERR_BUSY set; otherwise 0 does nothing, 1 and 2 are accepted, and any other word sets ERR_CMD. The
response is OKAY. -/
def Obligations.CtrlWriteDeliversCommand : Prop :=
  ∀ (log2n : Nat) (w : Word) (s : State),
    decode log2n (.hostbus 0x400000#23 w) = .wrCtrl w ∧
    (s.busy = true → exec (.wrCtrl w) s = .next { s with errBusy := true, resp := .okay, rdata := 0#32 }) ∧
    (s.busy = false →
      (w = 0#32 → exec (.wrCtrl w) s = .next { s with resp := .okay, rdata := 0#32 }) ∧
      (w = 1#32 → exec (.wrCtrl w) s =
        .next { s with curOp := .transform, busy := true, done := false, resp := .okay, rdata := 0#32 }) ∧
      (w = 2#32 → exec (.wrCtrl w) s =
        .next { s with
          curOp := .phase, lk := s.binK, lcal := s.cal, busy := true, done := false
          resp := .okay, rdata := 0#32 }) ∧
      (w ≠ 0#32 → w ≠ 1#32 → w ≠ 2#32 →
        exec (.wrCtrl w) s = .next { s with errCmd := true, resp := .okay, rdata := 0#32 }))

/-! ### TRANSFORM -/

/-- R200, R217: TRANSFORM written while idle is accepted. From any state in which it runs, with every
element written, the engine's completion replaces the N pairs of the buffer by their bit reversal followed
by the passes 0 to L − 1, clears BUSY and sets DONE; no other field changes, and no byte outside the buffer. -/
def Obligations.TransformReplacesBuffer : Prop :=
  (∀ s : State, s.busy = false →
    exec .transform s =
      .next { s with curOp := .transform, busy := true, done := false, resp := .okay, rdata := 0#32 }) ∧
  ∀ (s : State) (x : List Pair), s.busy = true → s.curOp = .transform →
    readPairs s.buf 0 s.cfg.size = some x →
    ∃ m, engineStep s = .next { s with busy := false, done := true, buf := m } ∧
      readPairs m 0 s.cfg.size =
        some ((List.range s.cfg.log2n).foldl (fun y p => pass s.cfg.log2n p y)
          (bitReversePairs s.cfg.log2n x)) ∧
      ∀ a, (a < elementAddr 0 ∨ elementAddr (2 * s.cfg.size) ≤ a) → readByte m a = readByte s.buf a

/-- R216: a TRANSFORM completion with any element unwritten is a model fault, and only then; after a
completion every element is written. -/
def Obligations.TransformFaultsOnUnwritten : Prop :=
  ∀ s : State, s.busy = true → s.curOp = .transform →
    ((∃ e < 2 * s.cfg.size, readElement s.buf e = none) ↔ engineStep s = .fault .unwrittenTransform) ∧
    ∀ t, engineStep s = .next t → bufferFull t

/-- R202, R13: bit b of rev_L(i) is bit L−1−b of i, and after BitReverse the pair at position i is the one
that was at position rev_L(i). -/
def Obligations.BitReversalPermutation : Prop :=
  ∀ (log2n i : Nat), i < 2 ^ log2n →
    (bitReverse log2n i < 2 ^ log2n ∧
      ∀ b < log2n, (bitReverse log2n i).testBit b = i.testBit (log2n - 1 - b)) ∧
    ∀ x : List Pair, x.length = 2 ^ log2n →
      (bitReversePairs log2n x).length = 2 ^ log2n ∧
      pairAt (bitReversePairs log2n x) i = pairAt x (bitReverse log2n i)

/-- The incremental technique of R203 gives the permutation of R202, on every buffer and in every build. R203
marks that sentence as its own inference ("[derived: checked by the spec's evaluator `tools/refeval.py` for
L = 1 to 12]"), so this statement is derived, and it goes beyond what was checked. -/
def Obligations.IncrementalReversalAgrees : Prop :=
  ∀ (log2n : Nat) (x : List Pair),
    (incrementalReversal log2n x (2 ^ log2n)).1 = bitReversePairs log2n x

/-- R206, R204: the butterflies of index t in pass p all use w_t, where w_0 = (1.0, +0.0) and
w_{t+1} = Rec(w_t, SEED[p]). -/
def Obligations.PassUsesTwiddleRecurrence : Prop :=
  ∀ (log2n p : Nat) (x : List Pair),
    pass log2n p x =
      (List.range (2 ^ p)).foldl (fun y t => passBlocks log2n p t (twiddle p t) y) x ∧
    twiddle p 0 = (0x3FF0000000000000#64, 0#64) ∧
    ∀ t, twiddle p (t + 1) = twiddleStep (twiddle p t) (seed p)

/-- R208: the butterfly's four results from the old values of its pairs; every other pair is unchanged. -/
def Obligations.ButterflyCombinesOldValues : Prop :=
  ∀ (x : List Pair) (a c : Nat) (w : Twiddle), a ≠ c → a < x.length → c < x.length →
    let xr := toW (pairAt x c).1
    let xi := toW (pairAt x c).2
    let tr := toS (subW (mulW w.1 xr) (mulW w.2 xi))
    let ti := toS (addW (mulW w.1 xi) (mulW w.2 xr))
    pairAt (butterfly x a c w) c = (subS (pairAt x a).1 tr, subS (pairAt x a).2 ti) ∧
    pairAt (butterfly x a c w) a = (addS (pairAt x a).1 tr, addS (pairAt x a).2 ti) ∧
    (butterfly x a c w).length = x.length ∧
    ∀ i, i ≠ a → i ≠ c → pairAt (butterfly x a c w) i = pairAt x i

/-- R209: butterflies on disjoint pairs may be evaluated in either order. -/
def Obligations.DisjointButterfliesCommute : Prop :=
  ∀ (x : List Pair) (a c b d : Nat) (w v : Twiddle),
    a ≠ b → a ≠ d → c ≠ b → c ≠ d →
    butterfly (butterfly x a c w) b d v = butterfly (butterfly x b d v) a c w

/-- R260, R208: a butterfly on +0 values with a finite twiddle gives +0 values. -/
def Obligations.ZeroButterflyStaysZero : Prop :=
  ∀ (x : List Pair) (a c : Nat) (w : Twiddle), a ≠ c → a < x.length → c < x.length →
    pairAt x a = (0#32, 0#32) → pairAt x c = (0#32, 0#32) →
    (numOfW w.1).isFinite = true → (numOfW w.2).isFinite = true →
    pairAt (butterfly x a c w) a = (0#32, 0#32) ∧ pairAt (butterfly x a c w) c = (0#32, 0#32)

/-! ### PHASE -/

/-- R240, R241, R250: PHASE written while idle is accepted with BIN_K and CAL latched, and the engine's
completion then writes PHASE and all three result flags, clears BUSY and sets DONE, and changes nothing
else. The bin is out of range (R242) or its elements are written (R243). -/
def Obligations.PhaseWritesResult : Prop :=
  ∀ s : State, s.busy = false →
    (s.cfg.size / 2 ≤ s.binK.toNat ∨ (readPair s.buf s.binK.toNat).isSome = true) →
    ∃ t r, exec .phase s = .next t ∧
      engineStep t =
        .next { s with
          curOp := .phase, lk := s.binK, lcal := s.cal, busy := false, done := true
          phase := r.value, oor := r.oor, und := r.und, nf := r.nf
          resp := .okay, rdata := 0#32 } ∧
      (s.cfg.size / 2 ≤ s.binK.toNat → r = { value := 0#64, oor := true, und := false, nf := false }) ∧
      ∀ bin, s.binK.toNat < s.cfg.size / 2 → readPair s.buf s.binK.toNat = some bin →
        r = phaseOfBin s.cfg s.cal bin

/-- R242: k ≥ N/2 gives PHASE = +0.0 and OOR, whatever the buffer holds, unwritten elements included. -/
def Obligations.PhaseOutOfRangeSentinel : Prop :=
  ∀ s : State, s.busy = true → s.curOp = .phase → s.cfg.size / 2 ≤ s.lk.toNat →
    engineStep s =
      .next { s with phase := 0#64, oor := true, und := false, nf := false, busy := false, done := true }

/-- R243: for k < N/2, a PHASE with either element of the bin unwritten is a model fault; no other
element matters. -/
def Obligations.PhaseFaultsOnUnwrittenBin : Prop :=
  ∀ s : State, s.busy = true → s.curOp = .phase → s.lk.toNat < s.cfg.size / 2 →
    ((readElement s.buf (2 * s.lk.toNat) = none ∨ readElement s.buf (2 * s.lk.toNat + 1) = none) ↔
      engineStep s = .fault .unwrittenPhase)

/-- R244: both components below EPS in magnitude, as real numbers, give PHASE = +0.0 and UND, whatever the
offset. -/
def Obligations.PhaseUndefinedSentinel : Prop :=
  ∀ (s : State) (re im : SBits), s.cfg.valid = true → s.busy = true → s.curOp = .phase →
    s.lk.toNat < s.cfg.size / 2 →
    readElement s.buf (2 * s.lk.toNat) = some re → readElement s.buf (2 * s.lk.toNat + 1) = some im →
    (numOfS re).isFinite = true → (numOfS im).isFinite = true →
    |(numOfS re).value| < (numOfW s.cfg.eps).value → |(numOfS im).value| < (numOfW s.cfg.eps).value →
    engineStep s =
      .next { s with phase := 0#64, oor := false, und := true, nf := false, busy := false, done := true }

/-- R245, R253: otherwise a component or an offset that is not finite gives PHASE = +0.0 and NF. -/
def Obligations.PhaseNonFiniteSentinel : Prop :=
  ∀ (s : State) (re im : SBits), s.cfg.valid = true → s.busy = true → s.curOp = .phase →
    s.lk.toNat < s.cfg.size / 2 →
    readElement s.buf (2 * s.lk.toNat) = some re → readElement s.buf (2 * s.lk.toNat + 1) = some im →
    ¬ ((numOfS re).isFinite = true ∧ (numOfS im).isFinite = true ∧
      |(numOfS re).value| < (numOfW s.cfg.eps).value ∧ |(numOfS im).value| < (numOfW s.cfg.eps).value) →
    ¬ ((numOfS re).isFinite = true ∧ (numOfS im).isFinite = true ∧ (numOfW s.lcal).isFinite = true) →
    engineStep s =
      .next { s with phase := 0#64, oor := false, und := false, nf := true, busy := false, done := true }

/-- R246 to R248: otherwise PHASE is the normalised sum of the angle in degrees and the offset, and all
three flags are 0. -/
def Obligations.PhaseMeasurement : Prop :=
  ∀ (s : State) (re im : SBits), s.cfg.valid = true → s.busy = true → s.curOp = .phase →
    s.lk.toNat < s.cfg.size / 2 →
    readElement s.buf (2 * s.lk.toNat) = some re → readElement s.buf (2 * s.lk.toNat + 1) = some im →
    ¬ (|(numOfS re).value| < (numOfW s.cfg.eps).value ∧ |(numOfS im).value| < (numOfW s.cfg.eps).value) →
    (numOfS re).isFinite = true → (numOfS im).isFinite = true → (numOfW s.lcal).isFinite = true →
    engineStep s =
      .next { s with
        phase := normalise (addW (mulW (atan2 s.cfg (toW im) (toW re)) 0x404CA5DC1A63C1F8#64) s.lcal)
        oor := false, und := false, nf := false, busy := false, done := true }

/-- R156, R157: the arctangent of every build, for finite operands that are not both zero. (b) Its magnitude
is at most PI64; (c) it is exact on the axes; (d) off them its sign is the sign of y; (e) it is within
ATAN2_ULPS units in the last place of the real angle. In the default build it is the real angle rounded to
nearest even. At (−0, x) with x < 0 only (c) is said: there R155 gives the angle +π, and R156(c) the result
−PI64. What a unit in the last place is, R156 leaves to the reader (log 5). -/
def Obligations.ArctangentBoundsInEveryBuild : Prop :=
  ∀ (cfg : Config) (y x : WBits), (numOfW y).isFinite = true → (numOfW x).isFinite = true →
    ((numOfW y).value ≠ 0 ∨ (numOfW x).value ≠ 0) →
    (atan2 cfg y x).toNat % 2 ^ 63 ≤ 0x400921FB54442D18 ∧
    ((numOfW y).value = 0 → 0 < (numOfW x).value → atan2 cfg y x = packW y.msb 0) ∧
    ((numOfW y).value = 0 → (numOfW x).value < 0 → atan2 cfg y x = packW y.msb 0x400921FB54442D18) ∧
    ((numOfW x).value = 0 → atan2 cfg y x = packW y.msb 0x3FF921FB54442D18) ∧
    ((numOfW y).value ≠ 0 → (atan2 cfg y x).msb = y.msb) ∧
    ((numOfW y).value ≠ 0 ∨ 0 < (numOfW x).value ∨ y.msb = false →
      (1 / 2 ≤ cfg.atan2Ulps → WithinUlps cfg.atan2Ulps (atan2R y x) (atan2 cfg y x)) ∧
      (cfg.atan2 = .correctlyRounded →
        NearestW (atan2R y x) (atan2 cfg y x) ∧ WithinUlps (1 / 2) (atan2R y x) (atan2 cfg y x)))

/-- R249: the value of Normalise(x), for finite x, differs from x by a whole number of turns before its
one rounding: a remainder r of x by 360 with the sign of x is the result when it is not negative, and
otherwise r + 360 rounded once, or +0.0 where that rounds to 360.0. The result is in [+0, 360), never −0. -/
def Obligations.NormaliseReducesModulo360 : Prop :=
  ∀ x : WBits, (numOfW x).isFinite = true →
    ∃ (turns : Int) (r : ℚ), (numOfW x).value = 360 * turns + r ∧ |r| < 360 ∧ 0 ≤ r * (numOfW x).value ∧
      (0 ≤ r → (numOfW (normalise x)).value = r) ∧
      (r < 0 → RoundsToW (r + 360) (normalise x) ∨
        (RoundsToW (r + 360) 0x4076800000000000#64 ∧ normalise x = 0#64)) ∧
      (numOfW (normalise x)).isFinite = true ∧ (normalise x).msb = false ∧
      (numOfW (normalise x)).value < 360

/-! ### Arithmetic -/

/-- R145: toW is exact: the same sign and the same real value, infinities kept, a NaN made canonical. -/
def Obligations.WideningIsExact : Prop :=
  ∀ s : SBits,
    ((numOfS s).isFinite = true →
      (numOfW (toW s)).isFinite = true ∧ (numOfW (toW s)).value = (numOfS s).value ∧
        (toW s).msb = s.msb) ∧
    (∀ neg, numOfS s = .inf neg → numOfW (toW s) = .inf neg) ∧
    (numOfS s = .nan → toW s = 0x7FF8000000000000#64)

/-- R146: toS rounds to nearest, ties to even, with the overflow threshold; the sign is kept, infinities
are kept and a NaN is made canonical. -/
def Obligations.NarrowingRoundsToNearestEven : Prop :=
  ∀ w : WBits,
    ((numOfW w).isFinite = true → RoundsToS (numOfW w).value (toS w) ∧ (toS w).msb = w.msb) ∧
    (∀ neg, numOfW w = .inf neg → numOfS (toS w) = .inf neg) ∧
    (numOfW w = .nan → toS w = 0x7FC00000#32)

/-- R147: addS and subS: RNE of the exact sum or difference of finite operands, the signed zeros, the
infinities and the NaNs. -/
def Obligations.StorageSumAndDifference : Prop :=
  ∀ a b : SBits,
    ((numOfS a).isFinite = true → (numOfS b).isFinite = true →
      RoundsToS ((numOfS a).value + (numOfS b).value) (addS a b) ∧
      RoundsToS ((numOfS a).value - (numOfS b).value) (subS a b) ∧
      ((numOfS a).value + (numOfS b).value = 0 →
        addS a b = if a = 0x80000000#32 ∧ b = 0x80000000#32 then 0x80000000#32 else 0#32) ∧
      ((numOfS a).value - (numOfS b).value = 0 →
        subS a b = if a = 0x80000000#32 ∧ b = 0#32 then 0x80000000#32 else 0#32)) ∧
    (∀ neg, numOfS a = .inf neg → (numOfS b).isFinite = true →
      numOfS (addS a b) = .inf neg ∧ numOfS (addS b a) = .inf neg ∧
      numOfS (subS a b) = .inf neg ∧ numOfS (subS b a) = .inf (!neg)) ∧
    (∀ neg, numOfS a = .inf neg → numOfS b = .inf neg →
      numOfS (addS a b) = .inf neg ∧ subS a b = 0x7FC00000#32) ∧
    (∀ neg, numOfS a = .inf neg → numOfS b = .inf (!neg) →
      addS a b = 0x7FC00000#32 ∧ numOfS (subS a b) = .inf neg) ∧
    (numOfS a = .nan ∨ numOfS b = .nan → addS a b = 0x7FC00000#32 ∧ subS a b = 0x7FC00000#32)

/-- R148: addW and subW follow R147 in W; mulW is RNE of the exact product, its sign is the exclusive or
of the operands' signs, also for zero and infinite results; 0 × ∞ and NaN operands give the canonical
NaN. -/
def Obligations.WideArithmetic : Prop :=
  ∀ a b : WBits,
    ((numOfW a).isFinite = true → (numOfW b).isFinite = true →
      RoundsToW ((numOfW a).value + (numOfW b).value) (addW a b) ∧
      RoundsToW ((numOfW a).value - (numOfW b).value) (subW a b) ∧
      ((numOfW a).value + (numOfW b).value = 0 →
        addW a b =
          if a = 0x8000000000000000#64 ∧ b = 0x8000000000000000#64 then 0x8000000000000000#64 else 0#64) ∧
      ((numOfW a).value - (numOfW b).value = 0 →
        subW a b = if a = 0x8000000000000000#64 ∧ b = 0#64 then 0x8000000000000000#64 else 0#64) ∧
      RoundsToW ((numOfW a).value * (numOfW b).value) (mulW a b) ∧
      (mulW a b).msb = (a.msb ^^ b.msb)) ∧
    (∀ neg, numOfW a = .inf neg → (numOfW b).isFinite = true →
      numOfW (addW a b) = .inf neg ∧ numOfW (addW b a) = .inf neg ∧
      numOfW (subW a b) = .inf neg ∧ numOfW (subW b a) = .inf (!neg) ∧
      ((numOfW b).value = 0 → mulW a b = 0x7FF8000000000000#64 ∧ mulW b a = 0x7FF8000000000000#64) ∧
      ((numOfW b).value ≠ 0 →
        numOfW (mulW a b) = .inf (neg ^^ b.msb) ∧ numOfW (mulW b a) = .inf (neg ^^ b.msb))) ∧
    (∀ neg other, numOfW a = .inf neg → numOfW b = .inf other →
      numOfW (mulW a b) = .inf (neg ^^ other) ∧
      (other = neg → numOfW (addW a b) = .inf neg ∧ subW a b = 0x7FF8000000000000#64) ∧
      (other ≠ neg → addW a b = 0x7FF8000000000000#64 ∧ numOfW (subW a b) = .inf neg)) ∧
    (numOfW a = .nan ∨ numOfW b = .nan →
      addW a b = 0x7FF8000000000000#64 ∧ subW a b = 0x7FF8000000000000#64 ∧
        mulW a b = 0x7FF8000000000000#64)

/-- R152: fmodW is exact: the remainder of the division truncated toward zero, with no rounding, below the
divisor in magnitude, and with the sign of x. -/
def Obligations.RemainderIsExact : Prop :=
  ∀ x y : WBits, (numOfW x).isFinite = true → (numOfW y).isFinite = true → (numOfW y).value ≠ 0 →
    (numOfW (fmodW x y)).isFinite = true ∧ (fmodW x y).msb = x.msb ∧
    |(numOfW (fmodW x y)).value| < |(numOfW y).value| ∧
    ∃ q : Int, (numOfW (fmodW x y)).value = (numOfW x).value - (numOfW y).value * q ∧
      |(q : ℚ)| = ⌊|(numOfW x).value / (numOfW y).value|⌋ ∧ 0 ≤ q * ((numOfW x).value / (numOfW y).value)

/-! ### Encoding -/

/-- R110 to R115: decoding the encoding of a well-formed instruction gives it back, for every
instruction, every operand and every build. -/
def Obligations.DecodeEncodeRoundTrip : Prop :=
  ∀ (log2n : Nat) (i : Instr), log2n ≤ 16 → i.wellFormed log2n = true → decode log2n (encode i) = i

/-- R112: every input decodes to a well-formed instruction, in every build that is accepted: the decoding
by bits of R112 and the address ranges of R81 to R85 agree. -/
def Obligations.DecodeIsWellFormed : Prop :=
  ∀ (log2n : Nat) (e : Encoded), 1 ≤ log2n → log2n ≤ 16 → (decode log2n e).wellFormed log2n = true

/-- R111, R112: no bit of a transaction is dropped but the WDATA of a read: encoding what a transaction
decodes to gives it back, with WDATA or, for some reads, 0. That a read comes back with WDATA = 0 is no rule
of the spec but the encoder's DESIGN CHOICE (log 3): R111 says that a read ignores its WDATA, and some WDATA
must be written. -/
def Obligations.EncodeDecodeKeepsTransaction : Prop :=
  ∀ (log2n : Nat) (t : Selector) (d : Word), ∃ d',
    encode (decode log2n (.hostbus t d)) = .hostbus t d' ∧ (d' = d ∨ (t.msb = false ∧ d' = 0#32))

/-- R112, R114: some words, written out from the tables of the spec, decode to the instructions they stand
for. -/
def Obligations.SampleWordsDecode : Prop :=
  decode 2 (.hostbus 0x500002#23 0x3F800000#32) = .misaligned10 true 0x40000#20 0x3F800000#32 ∧
  decode 2 (.hostbus 0b0_010_00000000000000011_00#23 0#32) = .rdBuf 3#17 ∧
  decode 2 (.hostbus 0b1_010_00000000000000110_00#23 0xBF800000#32) = .wrBuf 6#17 0xBF800000#32 ∧
  decode 3 (.hostbus 0b0_1000_0000000000000011_00#23 0#32) = .rdWinFt 3#16 ∧
  decode 3 (.hostbus 0b0_1100_0000000000000111_00#23 0#32) = .rdWinHn 7#16 ∧
  decode 2 (.hostbus 0x40001C#23 0x40709BA5#32) = .wrCalHi 0x40709BA5#32 ∧
  decode 2 (.hostbus 0x000014#23 0#32) = .unmapped false 0x000014#22 0#32 ∧
  decode 2 (.cmd 1#32) = .transform ∧ decode 2 (.cmd 0x80000002#32) = .reservedCmd 0x80000002#32

/-! ### The machine -/

/-- R280: in an accepted build, when the next event is a host input, the step is exactly the execution of
the instruction that the input decodes to; the event is taken. A command word as input acts as the CTRL
write of that word. The list of events (log 1) and the command word as an event (log 9) are the model's. -/
def Obligations.StepRunsDecodedInstruction : Prop :=
  ∀ (s : State) (e : Encoded) (rest : List Event), s.cfg.valid = true → s.events = .host e :: rest →
    step s = exec (decode s.cfg.log2n e) { s with events := rest } ∧
    ∀ w, e = .cmd w →
      step s = step { s with events := .host (.hostbus 0x400000#23 w) :: rest }

/-- R6, R363: the engine completes the command it runs when its turn comes, and also when nothing is
pending; an idle engine's turn changes nothing. Log 1 is the model's choice of the schedule. -/
def Obligations.EngineMovesWhenScheduled : Prop :=
  ∀ s : State, s.cfg.valid = true →
    (s.events = [] → step s = engineStep s) ∧
    (∀ rest, s.events = .engine :: rest → step s = engineStep { s with events := rest }) ∧
    (s.busy = false → engineStep s = .next s)

/-- R350, R351, R57: a reset gives the state of R57 whatever ran before, without completing it; the build
and the later events stay. The values of the latches and of `resp` and `rdata` are the model's (log 4) and
are not stated. That a reset is an event is the model's choice
(log 1). -/
def Obligations.ResetGivesResetState : Prop :=
  (∀ (s : State) (rest : List Event), s.cfg.valid = true → s.events = .reset :: rest →
    ∃ t, step s = .next t ∧ t.cfg = s.cfg ∧ t.events = rest ∧
      t.busy = false ∧ t.done = false ∧ t.errCmd = false ∧ t.errBusy = false ∧ t.errAddr = false ∧
      t.oor = false ∧ t.und = false ∧ t.nf = false ∧ t.doneIe = false ∧ t.errIe = false ∧
      t.binK = 0#32 ∧ t.cal = 0#64 ∧ t.phase = 0#64 ∧ irq t = false ∧
      ∀ e, readElement t.buf e = none) ∧
  State.reset.busy = false ∧ statusWord State.reset = 0#32 ∧ irqEnWord State.reset = 0#32 ∧
  State.reset.binK = 0#32 ∧ State.reset.cal = 0#64 ∧ State.reset.phase = 0#64 ∧
  cfgWord State.reset = 0x0000010B#32 ∧ irq State.reset = false ∧
  ∀ e, readElement State.reset.buf e = none

/-- A state of a build with a parameter out of range has no step. The ranges are the spec's: R7 of LOG2N, R8 of
EPS, 93_implementation_defined.md section 2 of ATAN2_ULPS. The rejection as InvalidArgument is the spec's for
LOG2N only (R7, R312). That the build is a field of the state, that a rejected build is a refused step, and that
a bad EPS and an ATAN2_ULPS below 1/2 are refused as a bad LOG2N is, are DESIGN CHOICES (log 1). -/
def Obligations.InvalidBuildIsRefused : Prop :=
  ∀ s : State,
    (s.cfg.log2n < 1 ∨ 16 < s.cfg.log2n ∨ (numOfW s.cfg.eps).isFinite = false ∨
      (numOfW s.cfg.eps).value ≤ 0 ∨ s.cfg.atan2Ulps < 1 / 2) ↔ step s = .refused .invalidArgument

/-- The invariant holds at reset. -/
def Obligations.InvariantAtReset : Prop := Inv State.reset

/-- Every step keeps the invariant, from every state that has it: the memory stays canonical and inside
the buffer region with whole elements, PHASE stays in [+0, 360.0) (R49, R251), at most one of OOR, UND, NF
is 1 (R43), and BUSY and DONE are never both 1 (R36, R37). -/
def Obligations.StepKeepsInvariant : Prop :=
  ∀ s t : State, Inv s → step s = .next t → Inv t

/-- R95(b), R282, R54: while a command runs, no instruction changes the buffer, the running command, its
latches, the results or BUSY. -/
def Obligations.RunningCommandIsUndisturbed : Prop :=
  ∀ (i : Instr) (s : State), s.busy = true →
    ∃ t, exec i s = .next t ∧ t.busy = true ∧ t.curOp = s.curOp ∧ t.lk = s.lk ∧ t.lcal = s.lcal ∧
      t.buf = s.buf ∧ t.phase = s.phase ∧ t.oor = s.oor ∧ t.und = s.und ∧ t.nf = s.nf

/-- R322: an instruction raises at most one condition, and the flags it does not raise are set after it
only if they were set before. -/
def Obligations.AtMostOneConditionPerTransaction : Prop :=
  ∀ (i : Instr) (s t : State), s.errCmd = false → s.errBusy = false → s.errAddr = false →
    exec i s = .next t →
    (t.errCmd && t.errBusy) = false ∧ (t.errCmd && t.errAddr) = false ∧ (t.errBusy && t.errAddr) = false

/-- R310(a), (b), R311: an ERROR response comes exactly with a transaction error, which sets ERR_ADDR, or
ERR_BUSY for a buffer access, and changes nothing else but the port. -/
def Obligations.ErrorResponseSetsOneFlag : Prop :=
  ∀ (i : Instr) (s t : State), exec i s = .next t → t.resp = .error →
    t = { s with errAddr := true, resp := .error, rdata := 0#32 } ∨
    (t = { s with errBusy := true, resp := .error, rdata := 0#32 } ∧ s.busy = true ∧
      ((∃ e, i = .rdBuf e) ∨ ∃ e d, i = .wrBuf e d))

/-- R313: an error flag is cleared only by a STATUS write with its bit, or by reset. -/
def Obligations.ErrorFlagsAreSticky : Prop :=
  ∀ s t : State, step s = .next t → ¬ resets s →
    (s.errCmd = true → t.errCmd = false →
      ∃ e d rest, s.events = .host e :: rest ∧ decode s.cfg.log2n e = .wrStatus d ∧ d.getLsbD 2 = true) ∧
    (s.errBusy = true → t.errBusy = false →
      ∃ e d rest, s.events = .host e :: rest ∧ decode s.cfg.log2n e = .wrStatus d ∧ d.getLsbD 3 = true) ∧
    (s.errAddr = true → t.errAddr = false →
      ∃ e d rest, s.events = .host e :: rest ∧ decode s.cfg.log2n e = .wrStatus d ∧ d.getLsbD 4 = true)

/-- R49, R314: PHASE, OOR, UND and NF change only at a PHASE completion or at reset. -/
def Obligations.OnlyPhaseCompletionWritesResults : Prop :=
  ∀ s t : State, step s = .next t → ¬ resets s →
    ¬ (engineMoves s ∧ s.busy = true ∧ s.curOp = .phase) →
    t.phase = s.phase ∧ t.oor = s.oor ∧ t.und = s.und ∧ t.nf = s.nf

/-- R36: BUSY rises only at the acceptance of a command and falls only at a completion or at reset. -/
def Obligations.BusyFollowsCommandLifeCycle : Prop :=
  ∀ s t : State, step s = .next t →
    (s.busy = false → t.busy = true →
      t.done = false ∧
      ∃ e rest, s.events = .host e :: rest ∧
        (decode s.cfg.log2n e = .transform ∨ decode s.cfg.log2n e = .phase ∨
          decode s.cfg.log2n e = .wrCtrl 1#32 ∨ decode s.cfg.log2n e = .wrCtrl 2#32)) ∧
    (s.busy = true → t.busy = false → resets s ∨ (engineMoves s ∧ t.done = true))

/-- R57, R54 (93_implementation_defined.md item 17): the latches are never read where they mean nothing.
Two states that differ only there take the same step: the same fault or refusal, or next states that
again differ only there, so that the same response reaches the host for ever. -/
def Obligations.LatchesAreHidden : Prop :=
  ∀ s t : State, SameVisible s t →
    (∀ s', step s = .next s' → ∃ t', step t = .next t' ∧ SameVisible s' t') ∧
    (∀ f, step s = .fault f → step t = .fault f) ∧
    (∀ r, step s = .refused r → step t = .refused r)

/-- R51, R216, R243, R301: in an accepted build with every element written, no step faults, whatever the
event; and every element stays written unless the machine is reset. -/
def Obligations.FullBufferNeverFaults : Prop :=
  ∀ s : State, s.cfg.valid = true → bufferFull s →
    ∃ t, step s = .next t ∧ (¬ resets s → bufferFull t)
end

