-- ==== Sys2Proof/Laws/Numerics.lean ====
section
/-! SUPPORT. Rounding: the pattern that a primitive answers is the one nearest to the exact value. -/

namespace Sys2Proof.Machine

/-! ### Patterns of S -/

theorem toNat_packS (neg : Bool) (mag : Nat) (h : mag < 2 ^ 31) :
    (packS neg mag).toNat = (if neg then 2 ^ 31 else 0) + mag := by
  unfold packS
  rw [BitVec.toNat_ofNat, Nat.mod_eq_of_lt]
  split <;> omega

theorem msb_packS (neg : Bool) (mag : Nat) (h : mag < 2 ^ 31) : (packS neg mag).msb = neg := by
  rw [BitVec.msb_eq_decide, toNat_packS neg mag h]
  cases neg <;> simp
  omega

/-- Every S pattern is its sign and its magnitude. -/
theorem packS_eta (v : SBits) : packS v.msb (v.toNat % 2 ^ 31) = v := by
  apply BitVec.eq_of_toNat_eq
  rw [toNat_packS _ _ (Nat.mod_lt _ (by norm_num)), BitVec.msb_eq_decide]
  have := v.isLt
  simp only [decide_eq_true_eq]
  split <;> omega

/-- The finite S patterns and their values. -/
theorem numOfS_finite {v : SBits} (h : (numOfS v).isFinite = true) :
    v.toNat % 2 ^ 31 < 255 * 2 ^ 23 ∧
      ∃ mant exp, numOfS v = .fin v.msb mant exp ∧ mant < 2 ^ 24 ∧ -149 ≤ exp ∧ exp ≤ 104 ∧
        (mant : ℚ) * 2 ^ exp = magValue 23 (-149) (v.toNat % 2 ^ 31) ∧
        (mant = 0 ↔ v.toNat % 2 ^ 31 = 0) := by
  have h8 : v.toNat % 2 ^ 31 / 2 ^ 23 = v.toNat / 2 ^ 23 % 256 := by omega
  have h9 : v.toNat % 2 ^ 31 % 2 ^ 23 = v.toNat % 2 ^ 23 := by omega
  simp only [numOfS] at h ⊢
  unfold magValue
  rw [h8, h9]
  split at h
  · split at h <;> simp [Num.isFinite] at h
  · next h1 =>
    rw [if_neg h1]
    refine ⟨by omega, ?_⟩
    split
    · next h2 =>
      refine ⟨_, _, rfl, by omega, by omega, by omega, ?_, by omega⟩
      congr 2
      omega
    · next h2 =>
      refine ⟨_, _, rfl, by omega, by omega, by omega, ?_, by omega⟩
      congr 2
      ring

theorem isFinite_numOfS (v : SBits) :
    (numOfS v).isFinite = decide (v.toNat % 2 ^ 31 < 255 * 2 ^ 23) := by
  rw [Bool.eq_iff_iff, decide_eq_true_iff]
  refine ⟨fun h => (numOfS_finite h).1, fun h => ?_⟩
  simp only [numOfS]
  rw [if_neg (by omega)]
  split <;> rfl

/-- The value of a finite S pattern. -/
theorem value_numOfS {v : SBits} (h : (numOfS v).isFinite = true) :
    (numOfS v).value = (if v.msb then -1 else 1) * magValue 23 (-149) (v.toNat % 2 ^ 31) := by
  obtain ⟨-, mant, exp, hn, -, -, -, hv, -⟩ := numOfS_finite h
  rw [hn, Num.value, mul_assoc, hv]

theorem numOfS_packS_inf (neg : Bool) : numOfS (packS neg infMagS) = .inf neg := by
  cases neg <;> rfl

/-! ### Patterns of W -/

theorem toNat_packW (neg : Bool) (mag : Nat) (h : mag < 2 ^ 63) :
    (packW neg mag).toNat = (if neg then 2 ^ 63 else 0) + mag := by
  unfold packW
  rw [BitVec.toNat_ofNat, Nat.mod_eq_of_lt]
  split <;> omega

theorem msb_packW (neg : Bool) (mag : Nat) (h : mag < 2 ^ 63) : (packW neg mag).msb = neg := by
  rw [BitVec.msb_eq_decide, toNat_packW neg mag h]
  cases neg <;> simp
  omega

/-- Every W pattern is its sign and its magnitude. -/
theorem packW_eta (v : WBits) : packW v.msb (v.toNat % 2 ^ 63) = v := by
  apply BitVec.eq_of_toNat_eq
  rw [toNat_packW _ _ (Nat.mod_lt _ (by norm_num)), BitVec.msb_eq_decide]
  have := v.isLt
  simp only [decide_eq_true_eq]
  split <;> omega

/-- The finite W patterns and their values. -/
theorem numOfW_finite {v : WBits} (h : (numOfW v).isFinite = true) :
    v.toNat % 2 ^ 63 < 2047 * 2 ^ 52 ∧
      ∃ mant exp, numOfW v = .fin v.msb mant exp ∧ mant < 2 ^ 53 ∧ -1074 ≤ exp ∧ exp ≤ 971 ∧
        (mant : ℚ) * 2 ^ exp = magValue 52 (-1074) (v.toNat % 2 ^ 63) ∧
        (mant = 0 ↔ v.toNat % 2 ^ 63 = 0) := by
  have h8 : v.toNat % 2 ^ 63 / 2 ^ 52 = v.toNat / 2 ^ 52 % 2048 := by omega
  have h9 : v.toNat % 2 ^ 63 % 2 ^ 52 = v.toNat % 2 ^ 52 := by omega
  simp only [numOfW] at h ⊢
  unfold magValue
  rw [h8, h9]
  split at h
  · split at h <;> simp [Num.isFinite] at h
  · next h1 =>
    rw [if_neg h1]
    refine ⟨by omega, ?_⟩
    split
    · next h2 =>
      refine ⟨_, _, rfl, by omega, by omega, by omega, ?_, by omega⟩
      congr 2
      omega
    · next h2 =>
      refine ⟨_, _, rfl, by omega, by omega, by omega, ?_, by omega⟩
      congr 2
      ring

theorem isFinite_numOfW (v : WBits) :
    (numOfW v).isFinite = decide (v.toNat % 2 ^ 63 < 2047 * 2 ^ 52) := by
  rw [Bool.eq_iff_iff, decide_eq_true_iff]
  refine ⟨fun h => (numOfW_finite h).1, fun h => ?_⟩
  simp only [numOfW]
  rw [if_neg (by omega)]
  split <;> rfl

/-- The value of a finite W pattern. -/
theorem value_numOfW {v : WBits} (h : (numOfW v).isFinite = true) :
    (numOfW v).value = (if v.msb then -1 else 1) * magValue 52 (-1074) (v.toNat % 2 ^ 63) := by
  obtain ⟨-, mant, exp, hn, -, -, -, hv, -⟩ := numOfW_finite h
  rw [hn, Num.value, mul_assoc, hv]

theorem numOfW_packW_inf (neg : Bool) : numOfW (packW neg infMagW) = .inf neg := by
  cases neg <;> rfl

/-! ### Rounding a number -/

/-- Distances with the sign of the number taken out. -/
theorem signed_distance {neg negU : Bool} {x v u : ℚ} (hx : 0 ≤ x) (hv : 0 ≤ v) (hu : 0 ≤ u)
    {even : Prop} (hzero : x = 0 → v = 0)
    (h : |v - x| ≤ |u - x| ∧ (|v - x| = |u - x| → u = v ∨ even)) :
    |(if neg then -1 else 1) * v - (if neg then -1 else 1) * x| ≤
        |(if negU then -1 else 1) * u - (if neg then -1 else 1) * x| ∧
      (|(if neg then -1 else 1) * v - (if neg then -1 else 1) * x| =
          |(if negU then -1 else 1) * u - (if neg then -1 else 1) * x| →
        (if negU then -1 else 1) * u = (if neg then -1 else 1) * v ∨ even) := by
  have e1 : |(if neg then -1 else 1) * v - (if neg then -1 else 1) * x| = |v - x| := by
    rw [← mul_sub, abs_mul]; cases neg <;> simp
  rw [e1]
  by_cases hs : negU = neg
  · subst hs
    have e2 : |(if negU then -1 else 1) * u - (if negU then -1 else 1) * x| = |u - x| := by
      rw [← mul_sub, abs_mul]; cases negU <;> simp
    rw [e2]
    exact ⟨h.1, fun e => (h.2 e).imp (by rintro rfl; rfl) id⟩
  · have e2 : |(if negU then -1 else 1) * u - (if neg then -1 else 1) * x| = u + x := by
      cases neg <;> cases negU <;> simp at hs ⊢
      · rw [show -u - x = -(u + x) by ring, abs_neg, abs_of_nonneg (by linarith)]
      · linarith
    rw [e2]
    have h3 : |u - x| ≤ u + x := abs_sub_le_iff.2 ⟨by linarith, by linarith⟩
    refine ⟨h.1.trans h3, fun e => ?_⟩
    have h4 : |u - x| = u + x := le_antisymm h3 (e ▸ h.1)
    rcases eq_or_lt_of_le hx with h0 | h0
    · have hv0 := hzero h0.symm
      subst hv0
      have hu0 : u = 0 := by
        rw [← h0] at e; simp at e; exact e.symm
      left; simp [hu0]
    · have hu0 : u = 0 := by
        rcases abs_cases (u - x) with ⟨ha, -⟩ | ⟨ha, -⟩ <;> linarith
      subst hu0
      rcases h.2 (by rw [e, h4]) with h5 | h5
      · left; rw [← h5]; simp
      · exact .inr h5

theorem abs_signed (neg : Bool) {x : ℚ} (hx : 0 ≤ x) : |(if neg then -1 else 1) * x| = x := by
  rw [abs_mul, abs_of_nonneg hx]; cases neg <;> simp

/-- `roundS` of a finite number is the S value nearest to it (R146), with its sign. -/
theorem roundS_fin (neg : Bool) (mant : Nat) (exp : Int) :
    RoundsToS (Num.fin neg mant exp).value (roundS (.fin neg mant exp)) ∧
      (roundS (.fin neg mant exp)).msb = neg := by
  have hspec := roundMag_spec 23 (-149) 255 mant exp (by norm_num) (by norm_num)
  simp only [] at hspec
  have hx : (0 : ℚ) ≤ mant * 2 ^ exp := mul_nonneg (Nat.cast_nonneg _) (two_zpow_pos _).le
  rw [Num.value, mul_assoc]
  show RoundsToS _ (packS neg (roundMagS mant exp)) ∧ (packS neg (roundMagS mant exp)).msb = neg
  rw [show roundMag (23 + 1) (-149) (255 * 2 ^ 23) mant exp = roundMagS mant exp from rfl] at hspec
  unfold RoundsToS
  rw [abs_signed neg hx]
  have hthr : ((2 : ℚ) * 2 ^ 23 - 1 / 2) * 2 ^ ((-149 : Int) + ((255 - 2 : Nat) : Int)) =
      (2 ^ 24 - 1 / 2) * 2 ^ 104 := by norm_num
  rw [hthr] at hspec
  split at hspec
  · next h =>
    obtain ⟨hlt, hnear, -⟩ := hspec
    have hlt31 : roundMagS mant exp < 2 ^ 31 := by omega
    have hmod : (packS neg (roundMagS mant exp)).toNat % 2 ^ 31 = roundMagS mant exp := by
      rw [toNat_packS _ _ hlt31]; split <;> omega
    have hfin : (numOfS (packS neg (roundMagS mant exp))).isFinite = true := by
      rw [isFinite_numOfS, hmod]; exact decide_eq_true hlt
    refine ⟨?_, msb_packS _ _ hlt31⟩
    rw [if_pos h]
    refine ⟨hfin, fun u hu => ?_⟩
    rw [value_numOfS hfin, value_numOfS hu, hmod, msb_packS _ _ hlt31]
    have hbit : (packS neg (roundMagS mant exp)).getLsbD 0 = false ↔ roundMagS mant exp % 2 = 0 := by
      rw [BitVec.getLsbD, Nat.testBit_zero, toNat_packS _ _ hlt31]
      cases neg <;> simp
      omega
    rw [hbit]
    refine signed_distance hx (magValue_nonneg _ _ _) (magValue_nonneg _ _ _) ?_ (hnear _)
    intro h0
    have := (hnear 0).1
    rw [h0, show magValue 23 (-149) 0 = 0 by simp [magValue]] at this
    simpa using this
  · next h =>
    rw [if_neg h, hspec]
    refine ⟨?_, msb_packS _ _ (by norm_num)⟩
    have hpos : (0 : ℚ) < mant * 2 ^ exp := by
      have : (0 : ℚ) < (2 ^ 24 - 1 / 2) * 2 ^ 104 := by norm_num
      exact this.trans_le (not_lt.1 h)
    congr 1
    cases neg
    · simpa using hpos.le
    · simpa using hpos

/-- `roundW` of a finite number is the W value nearest to it (R148), with its sign. -/
theorem roundW_fin (neg : Bool) (mant : Nat) (exp : Int) :
    RoundsToW (Num.fin neg mant exp).value (roundW (.fin neg mant exp)) ∧
      (roundW (.fin neg mant exp)).msb = neg := by
  have hspec := roundMag_spec 52 (-1074) 2047 mant exp (by norm_num) (by norm_num)
  simp only [] at hspec
  have hx : (0 : ℚ) ≤ mant * 2 ^ exp := mul_nonneg (Nat.cast_nonneg _) (two_zpow_pos _).le
  rw [Num.value, mul_assoc]
  show RoundsToW _ (packW neg (roundMagW mant exp)) ∧ (packW neg (roundMagW mant exp)).msb = neg
  rw [show roundMag (52 + 1) (-1074) (2047 * 2 ^ 52) mant exp = roundMagW mant exp from rfl] at hspec
  unfold RoundsToW
  rw [abs_signed neg hx]
  have hthr : ((2 : ℚ) * 2 ^ 52 - 1 / 2) * 2 ^ ((-1074 : Int) + ((2047 - 2 : Nat) : Int)) =
      (2 ^ 53 - 1 / 2) * 2 ^ 971 := by
    rw [show ((-1074 : Int) + ((2047 - 2 : Nat) : Int)) = ((971 : Nat) : Int) by norm_num, zpow_natCast]
    norm_num
  rw [hthr] at hspec
  split at hspec
  · next h =>
    obtain ⟨hlt, hnear, -⟩ := hspec
    have hlt63 : roundMagW mant exp < 2 ^ 63 := by omega
    have hmod : (packW neg (roundMagW mant exp)).toNat % 2 ^ 63 = roundMagW mant exp := by
      rw [toNat_packW _ _ hlt63]; split <;> omega
    have hfin : (numOfW (packW neg (roundMagW mant exp))).isFinite = true := by
      rw [isFinite_numOfW, hmod]; exact decide_eq_true hlt
    refine ⟨?_, msb_packW _ _ hlt63⟩
    rw [if_pos h]
    refine ⟨hfin, fun u hu => ?_⟩
    rw [value_numOfW hfin, value_numOfW hu, hmod, msb_packW _ _ hlt63]
    have hbit : (packW neg (roundMagW mant exp)).getLsbD 0 = false ↔ roundMagW mant exp % 2 = 0 := by
      rw [BitVec.getLsbD, Nat.testBit_zero, toNat_packW _ _ hlt63]
      cases neg <;> simp
      omega
    rw [hbit]
    refine signed_distance hx (magValue_nonneg _ _ _) (magValue_nonneg _ _ _) ?_ (hnear _)
    intro h0
    have := (hnear 0).1
    rw [h0, show magValue 52 (-1074) 0 = 0 by simp [magValue]] at this
    simpa using this
  · next h =>
    rw [if_neg h, hspec]
    refine ⟨?_, msb_packW _ _ (by norm_num)⟩
    have hpos : (0 : ℚ) < mant * 2 ^ exp := by
      have : (0 : ℚ) < (2 ^ 53 - 1 / 2) * 2 ^ 971 := by norm_num
      exact this.trans_le (not_lt.1 h)
    congr 1
    cases neg
    · simpa using hpos.le
    · simpa using hpos

/-! ### Exact operations on finite numbers -/

theorem value_signedMant (neg : Bool) (mant : Nat) (exp scale : Int) (h : scale ≤ exp) :
    (signedMant neg mant exp scale : ℚ) * 2 ^ scale = (Num.fin neg mant exp).value := by
  have e : (2 : ℚ) ^ (exp - scale).toNat * 2 ^ scale = 2 ^ exp := by
    rw [← zpow_natCast, Int.toNat_of_nonneg (by omega), ← zpow_add₀ (by norm_num)]
    congr 1; ring
  unfold signedMant Num.value
  cases neg <;> simp only [if_true, if_false, Bool.false_eq_true] <;> push_cast <;> rw [← e] <;> ring

/-- The sum of finite numbers is exact; an exact zero is +0 unless both are negative. -/
theorem add_fin (a b : Bool) (m n : Nat) (e f : Int) :
    ∃ neg mant, (Num.fin a m e).add (.fin b n f) = .fin neg mant (min e f) ∧
      (Num.fin neg mant (min e f)).value = (Num.fin a m e).value + (Num.fin b n f).value ∧
      ((Num.fin a m e).value + (Num.fin b n f).value = 0 → mant = 0 ∧ neg = (a && b)) := by
  have ha := value_signedMant a m e (min e f) (min_le_left _ _)
  have hb := value_signedMant b n f (min e f) (min_le_right _ _)
  have hpos := two_zpow_pos (min e f)
  simp only [Num.add]
  generalize hs : signedMant a m e (min e f) + signedMant b n f (min e f) = sum
  have hsum : (sum : ℚ) * 2 ^ (min e f) = (Num.fin a m e).value + (Num.fin b n f).value := by
    rw [← ha, ← hb, ← hs]; push_cast; ring
  by_cases h0 : sum = 0
  · rw [if_pos h0]
    refine ⟨_, _, rfl, ?_, fun _ => ⟨rfl, rfl⟩⟩
    rw [← hsum, h0]; simp [Num.value]
  · rw [if_neg h0]
    refine ⟨_, _, rfl, ?_, fun h => ?_⟩
    · rw [← hsum, Num.value]
      congr 1
      rcases lt_or_gt_of_ne h0 with h | h
      · have : (sum.natAbs : ℚ) = -sum := by
          rw [← Int.cast_natCast, Int.ofNat_natAbs_of_nonpos h.le]; push_cast; rfl
        rw [this]; simp [h]
      · have : (sum.natAbs : ℚ) = sum := by
          rw [← Int.cast_natCast, Int.natAbs_of_nonneg h.le]
        rw [this]; simp [not_lt.2 h.le]
    · rw [← hsum] at h
      rcases mul_eq_zero.1 h with h | h
      · exact absurd (by exact_mod_cast h) h0
      · exact absurd h hpos.ne'

theorem value_negate (n : Num) : n.negate.value = -n.value := by
  cases n with
  | nan => simp [Num.negate, Num.value]
  | inf neg => simp [Num.negate, Num.value]
  | fin neg m e => cases neg <;> simp [Num.negate, Num.value]

theorem mul_fin_value (a b : Bool) (m n : Nat) (e f : Int) :
    (Num.fin (a ^^ b) (m * n) (e + f)).value = (Num.fin a m e).value * (Num.fin b n f).value := by
  simp only [Num.value, zpow_add₀ (show (2 : ℚ) ≠ 0 by norm_num)]
  cases a <;> cases b <;> simp <;> ring

/-! ### What rounding implies -/

theorem value_packS {neg : Bool} {mag : Nat} (h : mag < infMagS) :
    (numOfS (packS neg mag)).isFinite = true ∧
      (numOfS (packS neg mag)).value = (if neg then -1 else 1) * magValue 23 (-149) mag := by
  have h31 : mag < 2 ^ 31 := by unfold infMagS at h; omega
  have hmod : (packS neg mag).toNat % 2 ^ 31 = mag := by rw [toNat_packS _ _ h31]; split <;> omega
  have hfin : (numOfS (packS neg mag)).isFinite = true := by
    rw [isFinite_numOfS, hmod]; exact decide_eq_true h
  exact ⟨hfin, by rw [value_numOfS hfin, hmod, msb_packS _ _ h31]⟩

theorem value_packW {neg : Bool} {mag : Nat} (h : mag < infMagW) :
    (numOfW (packW neg mag)).isFinite = true ∧
      (numOfW (packW neg mag)).value = (if neg then -1 else 1) * magValue 52 (-1074) mag := by
  have h63 : mag < 2 ^ 63 := by unfold infMagW at h; omega
  have hmod : (packW neg mag).toNat % 2 ^ 63 = mag := by rw [toNat_packW _ _ h63]; split <;> omega
  have hfin : (numOfW (packW neg mag)).isFinite = true := by
    rw [isFinite_numOfW, hmod]; exact decide_eq_true h
  exact ⟨hfin, by rw [value_numOfW hfin, hmod, msb_packW _ _ h63]⟩

/-- A finite W value is below the overflow threshold. -/
theorem abs_value_numOfW_lt {v : WBits} (h : (numOfW v).isFinite = true) :
    |(numOfW v).value| ≤ (2 ^ 53 - 1) * 2 ^ 971 := by
  obtain ⟨-, mant, exp, hn, hm, -, hexp, -, -⟩ := numOfW_finite h
  rw [hn, Num.value, mul_assoc, abs_signed _ (mul_nonneg (Nat.cast_nonneg _) (two_zpow_pos _).le)]
  have h1 : (mant : ℚ) ≤ 2 ^ 53 - 1 := by
    have : mant + 1 ≤ 2 ^ 53 := hm
    have : ((mant + 1 : Nat) : ℚ) ≤ ((2 ^ 53 : Nat) : ℚ) := by exact_mod_cast this
    push_cast at this; linarith
  have h2 : (2 : ℚ) ^ exp ≤ 2 ^ (971 : Nat) := by
    rw [← zpow_natCast]; exact zpow_le_zpow_right₀ (by norm_num) (by exact_mod_cast hexp)
  exact mul_le_mul h1 h2 (two_zpow_pos _).le (by norm_num)

theorem threshold_pos_W : (0 : ℚ) < (2 ^ 53 - 1 / 2) * 2 ^ 971 := by norm_num

theorem max_lt_threshold_W : ((2 : ℚ) ^ 53 - 1) * 2 ^ 971 < (2 ^ 53 - 1 / 2) * 2 ^ 971 :=
  mul_lt_mul_of_pos_right (by norm_num) (by positivity)

/-- A number that a W value stands for rounds to that value. -/
theorem RoundsToW.exact {r : ℚ} {v u : WBits} (h : RoundsToW r v) (hu : (numOfW u).isFinite = true)
    (hr : (numOfW u).value = r) : (numOfW v).isFinite = true ∧ (numOfW v).value = r := by
  have hlt : |r| < (2 ^ 53 - 1 / 2) * 2 ^ 971 := by
    rw [← hr]; exact (abs_value_numOfW_lt hu).trans_lt max_lt_threshold_W
  unfold RoundsToW at h
  rw [if_pos hlt] at h
  refine ⟨h.1, ?_⟩
  have := (h.2 u hu).1
  rw [hr, sub_self, abs_zero] at this
  exact sub_eq_zero.1 (abs_nonpos_iff.1 this)

/-- Rounding does not pass a W value. -/
theorem RoundsToW.le {r : ℚ} {v u : WBits} (h : RoundsToW r v) (hlt : |r| < (2 ^ 53 - 1 / 2) * 2 ^ 971)
    (hu : (numOfW u).isFinite = true) (hr : r ≤ (numOfW u).value) :
    (numOfW v).value ≤ (numOfW u).value := by
  unfold RoundsToW at h
  rw [if_pos hlt] at h
  have := (h.2 u hu).1
  rw [abs_of_nonneg (sub_nonneg.2 hr)] at this
  have h2 := le_abs_self ((numOfW v).value - r)
  linarith

theorem RoundsToW.ge {r : ℚ} {v u : WBits} (h : RoundsToW r v) (hlt : |r| < (2 ^ 53 - 1 / 2) * 2 ^ 971)
    (hu : (numOfW u).isFinite = true) (hr : (numOfW u).value ≤ r) :
    (numOfW u).value ≤ (numOfW v).value := by
  unfold RoundsToW at h
  rw [if_pos hlt] at h
  have := (h.2 u hu).1
  rw [abs_sub_comm (numOfW u).value, abs_of_nonneg (sub_nonneg.2 hr)] at this
  have h2 := neg_abs_le ((numOfW v).value - r)
  linarith

/-- A number that the W format holds is rounded to itself. -/
theorem roundW_fin_exact (neg : Bool) (mant : Nat) (exp : Int) (hm : mant < 2 ^ 53) (he : -1074 ≤ exp)
    (hlt : (mant : ℚ) * 2 ^ exp < (2 ^ 53 - 1 / 2) * 2 ^ 971) :
    (numOfW (roundW (.fin neg mant exp))).isFinite = true ∧
      (numOfW (roundW (.fin neg mant exp))).value = (Num.fin neg mant exp).value := by
  have hspec := roundMag_spec 52 (-1074) 2047 mant exp (by norm_num) (by norm_num)
  simp only [] at hspec
  have hthr : ((2 : ℚ) * 2 ^ 52 - 1 / 2) * 2 ^ ((-1074 : Int) + ((2047 - 2 : Nat) : Int)) =
      (2 ^ 53 - 1 / 2) * 2 ^ 971 := by
    rw [show ((-1074 : Int) + ((2047 - 2 : Nat) : Int)) = ((971 : Nat) : Int) by norm_num, zpow_natCast]
    norm_num
  rw [hthr, if_pos hlt] at hspec
  obtain ⟨h1, -, h2⟩ := hspec
  obtain ⟨h3, h4⟩ := value_packW (neg := neg) h1
  refine ⟨h3, ?_⟩
  show (numOfW (packW neg (roundMagW mant exp))).value = _
  rw [show roundMagW mant exp = roundMag (52 + 1) (-1074) (2047 * 2 ^ 52) mant exp from rfl, h4,
    h2 he (by omega), Num.value, mul_assoc]

/-! ### W values and their patterns -/

theorem toNat_mod_of_nonneg {v : WBits} (h : v.msb = false) : v.toNat % 2 ^ 63 = v.toNat := by
  rw [BitVec.msb_eq_decide] at h; simp at h; omega

/-- The patterns of the W values without a sign rise with the values. -/
theorem toNat_lt_of_value_lt {v u : WBits} (hv : (numOfW v).isFinite = true)
    (hu : (numOfW u).isFinite = true) (sv : v.msb = false) (su : u.msb = false)
    (h : (numOfW v).value < (numOfW u).value) : v.toNat < u.toNat := by
  rw [value_numOfW hv, value_numOfW hu, toNat_mod_of_nonneg sv, toNat_mod_of_nonneg su, sv, su] at h
  simpa using (magValue_strictMono 52 (-1074)).lt_iff_lt.1 (by simpa using h)

/-- Two W values without a sign that are equal have one pattern. -/
theorem eq_of_value_eq {v u : WBits} (hv : (numOfW v).isFinite = true)
    (hu : (numOfW u).isFinite = true) (sv : v.msb = false) (su : u.msb = false)
    (h : (numOfW v).value = (numOfW u).value) : v = u := by
  rw [value_numOfW hv, value_numOfW hu, toNat_mod_of_nonneg sv, toNat_mod_of_nonneg su, sv, su] at h
  exact BitVec.eq_of_toNat_eq ((magValue_strictMono 52 (-1074)).injective (by simpa using h))

theorem isNegative_eq (x : WBits) (h : (numOfW x).isFinite = true) :
    isNegative x = decide ((numOfW x).value < 0) := by
  obtain ⟨-, m, e, hn, -⟩ := numOfW_finite h
  simp only [isNegative, hn, Num.value]
  by_cases hm : m = 0
  · simp [hm]
  · have hm' : (0 : ℚ) < m := by exact_mod_cast Nat.pos_of_ne_zero hm
    have hpos : (0 : ℚ) < m * 2 ^ e := mul_pos hm' (two_zpow_pos e)
    cases x.msb
    · simpa [hm] using hpos.le
    · simp [hm, hpos]

theorem isZero_eq (x : WBits) (h : (numOfW x).isFinite = true) :
    isZero x = decide ((numOfW x).value = 0) := by
  obtain ⟨-, m, e, hn, -⟩ := numOfW_finite h
  simp only [isZero, hn, Num.value]
  by_cases hm : m = 0
  · simp [hm]
  · have hm' : (m : ℚ) ≠ 0 := by exact_mod_cast hm
    cases x.msb <;> simp [hm, (two_zpow_pos e).ne']

end Sys2Proof.Machine
end

