-- ==== Sys2Proof/Laws/Atan2.lean ====
section
/-! SUPPORT. The arctangent: the magnitude that `magOf` answers is the angle rounded, or a value that R156(b)
and (e) allow. -/

namespace Sys2Proof.Machine

/-! ### The value of a step function at the angle -/

theorem settleAt_spec {α : Type} [DecidableEq α] {f : Nat → Int → α} {r : Ray} {bits : Nat} {v : α}
    (h : r.settleAt f bits = some v) :
    f (r.bounds bits).1 (-(bits : Int)) = v ∧ f (r.bounds bits).2 (-(bits : Int)) = v := by
  simp only [Ray.settleAt] at h
  split at h
  · next he => cases h; exact ⟨rfl, he.symm⟩
  · cases h

theorem settleUpTo_spec {α : Type} [DecidableEq α] {f : Nat → Int → α} {r : Ray} {v : α} :
    ∀ {fuel k : Nat}, r.settleUpTo f fuel k = some v → ∃ bits, r.settleAt f bits = some v
  | 0, _, h => by cases h
  | fuel + 1, k, h => by
    simp only [Ray.settleUpTo] at h
    split at h
    · next he => cases h; exact ⟨_, he⟩
    · exact settleUpTo_spec h

/-- The value is the one at two numbers between which the angle lies. -/
theorem settle_spec {α : Type} [DecidableEq α] (r : Ray) (f : Nat → Int → α) (hf : IsStep f) :
    ∃ (low high : Nat) (exp : Int), f low exp = r.settle f hf ∧ f high exp = r.settle f hf ∧
      (((low : ℚ) * 2 ^ exp : ℚ) : ℝ) ≤ rayAngle r ∧ rayAngle r ≤ ((high : ℚ) * 2 ^ exp : ℚ) := by
  obtain ⟨bits, h⟩ : ∃ bits, r.settleAt f bits = some (r.settle f hf) := by
    unfold Ray.settle
    split
    · next he => exact settleUpTo_spec he
    · exact ⟨_, (Option.some_get _).symm⟩
  obtain ⟨h1, h2⟩ := settleAt_spec h
  obtain ⟨b1, b2, -⟩ := bounds_spec r bits
  have hp : (0 : ℝ) < 2 ^ bits := by positivity
  have cast (m : Nat) : (((m : ℚ) * 2 ^ (-(bits : Int)) : ℚ) : ℝ) = m / 2 ^ bits := by
    push_cast
    rw [zpow_neg, zpow_natCast, div_eq_mul_inv]
  exact ⟨_, _, _, h1, h2, by rwa [cast, div_le_iff₀ hp], by rwa [cast, le_div_iff₀ hp]⟩

/-! ### The angle -/

theorem rayAngle_pos (r : Ray) : 0 < rayAngle r := by
  have hq : (0 : ℝ) < r.num / r.den :=
    div_pos (by exact_mod_cast r.num_pos) (by exact_mod_cast r.den_pos)
  have h1 := Real.arctan_pos.2 hq
  have h2 := Real.arctan_lt_pi_div_two (r.num / r.den : ℝ)
  have h3 := Real.pi_pos
  unfold rayAngle
  split <;> linarith

theorem rayAngle_lt_pi (r : Ray) : rayAngle r < Real.pi := by
  have hq : (0 : ℝ) < r.num / r.den :=
    div_pos (by exact_mod_cast r.num_pos) (by exact_mod_cast r.den_pos)
  have h1 := Real.arctan_pos.2 hq
  have h2 := Real.arctan_lt_pi_div_two (r.num / r.den : ℝ)
  have h3 := Real.pi_pos
  unfold rayAngle
  split <;> linarith

theorem arg_of_polar {x y ρ θ : ℝ} (hρ : 0 < ρ) (hlo : -Real.pi < θ) (hhi : θ ≤ Real.pi)
    (hx : x = ρ * Real.cos θ) (hy : y = ρ * Real.sin θ) : Complex.arg ⟨x, y⟩ = θ := by
  have : (⟨x, y⟩ : ℂ) = ρ * (Complex.cos θ + Complex.sin θ * Complex.I) := by
    apply Complex.ext
    · simp [hx, ← Complex.ofReal_cos, ← Complex.ofReal_sin]
    · simp [hy, ← Complex.ofReal_cos, ← Complex.ofReal_sin]
  rw [this, Complex.arg_mul_cos_add_sin_mul_I hρ ⟨hlo, hhi⟩]

/-- The angle of a ray is the angle of the points on it, with the sign of y. -/
theorem arg_of_ray (r : Ray) (neg : Bool) {ρ : ℝ} (hρ : 0 < ρ) :
    Complex.arg ⟨(if r.left then -1 else 1) * (ρ * r.den), (if neg then -1 else 1) * (ρ * r.num)⟩ =
      (if neg then -1 else 1) * rayAngle r := by
  have hn : (0 : ℝ) < r.num := by exact_mod_cast r.num_pos
  have hd : (0 : ℝ) < r.den := by exact_mod_cast r.den_pos
  have hcos := Real.cos_arctan_pos (r.num / r.den : ℝ)
  have htan := Real.tan_arctan (r.num / r.den : ℝ)
  rw [Real.tan_eq_sin_div_cos, div_eq_div_iff hcos.ne' hd.ne'] at htan
  have h1 := rayAngle_pos r
  have h2 := rayAngle_lt_pi r
  have hpolar : (if r.left then -1 else 1) * (ρ * r.den) =
        ρ * r.den / Real.cos (Real.arctan (r.num / r.den)) * Real.cos (rayAngle r) ∧
      ρ * r.num = ρ * r.den / Real.cos (Real.arctan (r.num / r.den)) * Real.sin (rayAngle r) := by
    unfold rayAngle
    split
    · rw [Real.cos_pi_sub, Real.sin_pi_sub]
      constructor
      · field_simp
      · field_simp; linear_combination -htan
    · constructor
      · field_simp
      · field_simp; linear_combination -htan
  cases neg
  · refine arg_of_polar (ρ := ρ * r.den / Real.cos (Real.arctan (r.num / r.den))) (by positivity)
      (by simp; linarith [Real.pi_pos]) (by simp; linarith) ?_ ?_
    · simpa only [Bool.false_eq_true, if_false, one_mul] using hpolar.1
    · simpa only [Bool.false_eq_true, if_false, one_mul] using hpolar.2
  · refine arg_of_polar (ρ := ρ * r.den / Real.cos (Real.arctan (r.num / r.den))) (by positivity)
      (by simp; linarith) (by simp; linarith [Real.pi_pos]) ?_ ?_
    · simpa using hpolar.1
    · simpa using hpolar.2

/-! ### Nearest values -/

theorem abs_sign_mul (neg : Bool) {θ : ℝ} (hθ : 0 < θ) : |(if neg then -1 else 1) * θ| = θ := by
  cases neg <;> simp [abs_of_pos hθ]

theorem cast_sign (neg : Bool) : ((if neg then -1 else 1 : ℚ) : ℝ) = if neg then -1 else 1 := by
  cases neg <;> simp

/-- The distance of a pattern from a real number of the same sign. -/
theorem distance_packW (neg : Bool) {mag : Nat} (h : mag < infMagW) (θ : ℝ) :
    |((numOfW (packW neg mag)).value : ℝ) - (if neg then -1 else 1) * θ| =
      |(magValue 52 (-1074) mag : ℝ) - θ| := by
  rw [(value_packW (neg := neg) h).2]
  cases neg
  · simp
  · rw [← abs_neg]
    congr 1
    push_cast
    simp only [if_true]
    ring

/-- The pattern whose middles a real number lies between. -/
structure Middles (θ : ℝ) (mag : Nat) : Prop where
  finite : mag < infMagW
  below : 0 < mag → (middleW (mag - 1) : ℝ) ≤ θ
  above : θ ≤ middleW mag

theorem Middles.nearest_mag {θ : ℝ} {mag : Nat} (h : Middles θ mag) (other : Nat) :
    |(magValue 52 (-1074) mag : ℝ) - θ| ≤ |(magValue 52 (-1074) other : ℝ) - θ| := by
  have hmono := magValue_strictMono 52 (-1074)
  rcases lt_trichotomy other mag with hlt | rfl | hlt
  · have h1 : (magValue 52 (-1074) other : ℝ) ≤ magValue 52 (-1074) (mag - 1) := by
      exact_mod_cast hmono.monotone (by omega)
    have h2 : (magValue 52 (-1074) (mag - 1) : ℝ) < magValue 52 (-1074) mag := by
      exact_mod_cast hmono (by omega)
    have h3 := h.below (by omega)
    unfold middleW at h3
    rw [Nat.sub_add_cancel (by omega)] at h3
    push_cast at h3
    rw [abs_sub_comm _ θ, abs_sub_comm _ θ, abs_of_nonneg (a := θ - magValue 52 (-1074) other) (by linarith)]
    exact abs_le.2 ⟨by linarith, by linarith⟩
  · exact le_rfl
  · have h1 : (magValue 52 (-1074) (mag + 1) : ℝ) ≤ magValue 52 (-1074) other := by
      exact_mod_cast hmono.monotone (by omega)
    have h2 : (magValue 52 (-1074) mag : ℝ) < magValue 52 (-1074) (mag + 1) := by
      exact_mod_cast hmono (by omega)
    have h3 := h.above
    unfold middleW at h3
    push_cast at h3
    rw [abs_of_nonneg (a := (magValue 52 (-1074) other : ℝ) - θ) (by linarith)]
    exact abs_le.2 ⟨by linarith, by linarith⟩

/-- A positive number between the middles of a pattern, and the pattern, with a sign. -/
theorem Middles.nearest {θ : ℝ} {mag : Nat} (h : Middles θ mag) (hpos : 0 < θ) (hirr : Irrational θ)
    (neg : Bool) : NearestW ((if neg then -1 else 1) * θ) (packW neg mag) := by
  refine ⟨(value_packW h.finite).1, fun u hu => ?_⟩
  have hle : |((numOfW (packW neg mag)).value : ℝ) - (if neg then -1 else 1) * θ| ≤
      |((numOfW u).value : ℝ) - (if neg then -1 else 1) * θ| := by
    have hnear := h.nearest_mag (u.toNat % 2 ^ 63)
    have h0 : (0 : ℝ) ≤ magValue 52 (-1074) (u.toNat % 2 ^ 63) := by
      exact_mod_cast magValue_nonneg 52 (-1074) _
    rw [distance_packW neg h.finite, value_numOfW hu, Rat.cast_mul, cast_sign]
    refine hnear.trans ?_
    generalize (magValue 52 (-1074) (u.toNat % 2 ^ 63) : ℝ) = b at *
    have hfar : |b - θ| ≤ |b + θ| := by
      rw [abs_of_nonneg (a := b + θ) (by linarith)]
      exact abs_le.2 ⟨by linarith, by linarith⟩
    cases neg <;> cases u.msb <;> simp only [if_true, if_false, Bool.false_eq_true, one_mul, neg_one_mul]
    · exact le_rfl
    · rw [← neg_add', abs_neg]; exact hfar
    · rw [sub_neg_eq_add]; exact hfar
    · rw [neg_sub_neg, abs_sub_comm]
  refine ⟨hle, fun he => .inl ?_⟩
  by_contra hne
  have hs : Irrational ((if neg then -1 else 1) * θ) := by
    cases neg
    · simpa using hirr
    · simpa using hirr.neg
  generalize (numOfW (packW neg mag)).value = a at *
  generalize (numOfW u).value = b at *
  rcases abs_eq_abs.1 he with he | he
  · exact hne (by exact_mod_cast (by linarith : (b : ℝ) = a))
  · exact hs.ne_rat ((a + b) / 2) (by push_cast; linarith)

/-- The nearest value is within half a unit in the last place. -/
theorem Middles.half_ulp {θ : ℝ} {mag : Nat} (h : Middles θ mag) (hpos : 0 < θ) (neg : Bool)
    {ulps : ℚ} (hu : 1 / 2 ≤ ulps) : WithinUlps ulps ((if neg then -1 else 1) * θ) (packW neg mag) := by
  have habs := abs_sign_mul neg hpos
  have mono {a b : Int} (hab : a ≤ b) : (2 : ℝ) ^ a ≤ 2 ^ b := zpow_le_zpow_right₀ (by norm_num) hab
  -- the exponent of the unit
  obtain ⟨q, hq, hlow, hhigh⟩ : ∃ q : Nat, (q = 0 ∨ (2 : ℝ) ^ ((-1074 + q : Int) + 52) ≤ θ) ∧
      θ < 2 ^ ((-1074 + q : Int) + 53) ∧ True := by
    have h1 := Int.zpow_log_le_self (b := 2) (by norm_num) hpos
    have h2 := Int.lt_zpow_succ_log_self (b := 2) (by norm_num) θ
    norm_num only [Nat.cast_ofNat] at h1 h2
    generalize Int.log 2 θ = l at *
    refine ⟨(max (l - 52) (-1074) + 1074).toNat, ?_, ?_, trivial⟩
    · rcases le_total (l - 52) (-1074) with hc | hc
      · exact .inl (by omega)
      · exact .inr ((mono (by omega)).trans h1)
    · exact h2.trans_le (mono (by omega))
  refine ⟨-1074 + q, by omega, ?_, by rw [habs]; exact hlow, ?_⟩
  · rw [habs]; exact hq.imp (by omega) id
  -- the multiple of the unit nearest to θ is a value of W
  rw [distance_packW neg h.finite]
  have hp : (0 : ℝ) < 2 ^ (-1074 + q : Int) := by positivity
  let n : Nat := ⌊θ / 2 ^ (-1074 + q : Int) + 1 / 2⌋₊
  have hn0 : 0 ≤ θ / 2 ^ (-1074 + q : Int) + 1 / 2 := by positivity
  have n1 : (n : ℝ) ≤ θ / 2 ^ (-1074 + q : Int) + 1 / 2 := Nat.floor_le hn0
  have n2 : θ / 2 ^ (-1074 + q : Int) + 1 / 2 < n + 1 := Nat.lt_floor_add_one _
  have hup : θ / 2 ^ (-1074 + q : Int) < 2 ^ 53 := by
    rw [div_lt_iff₀ hp]
    refine hlow.trans_eq ?_
    rw [add_comm, zpow_add₀ (by norm_num)]
    norm_num
  have hn_up : n ≤ 2 * 2 ^ 52 := by
    have : (n : ℝ) < 2 ^ 53 + 1 := by linarith
    have : n < 2 ^ 53 + 1 := by exact_mod_cast this
    omega
  have hn_low : q = 0 ∨ 2 ^ 52 ≤ n := hq.imp id fun hge => by
    have : (2 : ℝ) ^ 52 ≤ θ / 2 ^ (-1074 + q : Int) := by
      rw [le_div_iff₀ hp]
      refine le_of_eq_of_le ?_ hge
      rw [zpow_add₀ (by norm_num) (-1074 + q : Int) 52, mul_comm]
      norm_num only [zpow_ofNat]
    have : (2 : ℝ) ^ 52 < n + 1 := by linarith
    have : 2 ^ 52 < n + 1 := by exact_mod_cast this
    omega
  have hval := magValue_add 52 (-1074) q n hn_up hn_low
  have hnear := h.nearest_mag (q * 2 ^ 52 + n)
  rw [hval] at hnear
  push_cast at hnear
  refine hnear.trans ?_
  have hu' : (1 / 2 : ℝ) ≤ ulps := by
    have := (Rat.cast_le (K := ℝ)).2 hu
    push_cast at this
    exact this
  calc |(n : ℝ) * 2 ^ (-1074 + q : Int) - θ|
      = |(n : ℝ) - θ / 2 ^ (-1074 + q : Int)| * 2 ^ (-1074 + q : Int) := by
        rw [← abs_of_pos hp, ← abs_mul, abs_of_pos hp, sub_mul, div_mul_cancel₀ _ hp.ne']
    _ ≤ 1 / 2 * 2 ^ (-1074 + q : Int) := by
        gcongr
        exact abs_le.2 ⟨by linarith, by linarith⟩
    _ ≤ _ := by gcongr

/-! ### The constants -/

theorem middles_pi : Middles Real.pi pi64 := by
  have h1 := Real.pi_gt_d20
  have h2 := Real.pi_lt_d20
  have e : (middleW pi64 : ℝ) = 14148475504056881 / 2 ^ 52 := by norm_num [middleW, magValue, pi64]
  have e' : (middleW (pi64 - 1) : ℝ) = 14148475504056879 / 2 ^ 52 := by norm_num [middleW, magValue, pi64]
  refine ⟨by norm_num [pi64, infMagW], fun _ => ?_, ?_⟩
  · rw [e']; linarith
  · rw [e]; linarith

theorem middles_half_pi : Middles (Real.pi / 2) halfPi64 := by
  have h1 := Real.pi_gt_d20
  have h2 := Real.pi_lt_d20
  have e : (middleW halfPi64 : ℝ) = 14148475504056881 / 2 ^ 53 := by norm_num [middleW, magValue, halfPi64]
  have e' : (middleW (halfPi64 - 1) : ℝ) = 14148475504056879 / 2 ^ 53 := by
    norm_num [middleW, magValue, halfPi64]
  refine ⟨by norm_num [halfPi64, infMagW], fun _ => ?_, ?_⟩
  · rw [e']; linarith
  · rw [e]; linarith

/-! ### Off the axes -/

/-- R157 off the axes: the rounded angle lies between its middles. -/
theorem rounded_middles (r : Ray) : Middles (rayAngle r) r.rounded := by
  obtain ⟨low, high, exp, h1, h2, hl, hh⟩ := settle_spec r roundMagW isStep_roundMagW
  obtain ⟨a1, a2, a3⟩ := roundMagW_middles low exp
  obtain ⟨b1, b2, b3⟩ := roundMagW_middles high exp
  change _ = r.rounded at h1 h2
  rw [h1] at a1 a2 a3
  rw [h2] at b1 b2 b3
  have hfin : r.rounded < infMagW := by
    refine lt_of_le_of_ne a1 fun he => ?_
    have h := a3 (by rw [he]; norm_num [infMagW])
    have hm : middleW pi64 ≤ middleW (r.rounded - 1) :=
      middleW_mono (by rw [he]; norm_num [pi64, infMagW])
    have h3 := middles_pi.above
    have h4 := rayAngle_lt_pi r
    have : (middleW pi64 : ℝ) ≤ ((low : ℚ) * 2 ^ exp : ℚ) := by exact_mod_cast hm.trans h
    linarith
  refine ⟨hfin, fun h0 => ?_, ?_⟩
  · refine le_trans ?_ hl
    exact_mod_cast a3 h0
  · refine hh.trans ?_
    exact_mod_cast b2 hfin

theorem rounded_le_pi64 (r : Ray) : r.rounded ≤ pi64 := by
  by_contra hc
  have h := (rounded_middles r).below (by omega)
  have hm : middleW pi64 ≤ middleW (r.rounded - 1) := middleW_mono (by omega)
  have h3 := middles_pi.above
  have h4 := rayAngle_lt_pi r
  have : (middleW pi64 : ℝ) ≤ middleW (r.rounded - 1) := by exact_mod_cast hm
  linarith

/-- R156(e) off the axes: what the test accepts is within the bound. -/
theorem within_spec (r : Ray) (ulps : ℚ) {mag : Nat} (hmag : mag < infMagW) (h : r.within ulps mag = true)
    (neg : Bool) : WithinUlps ulps ((if neg then -1 else 1) * rayAngle r) (packW neg mag) := by
  have hpos := rayAngle_pos r
  have habs := abs_sign_mul neg hpos
  have hv : (numOfW (packW false mag)).value = magValue 52 (-1074) mag := by
    rw [(value_packW hmag).2]; simp
  obtain ⟨low, high, exp, h1, h2, hl, hh⟩ :=
    settle_spec r (ulpTest ulps (numOfW (packW false mag)).value) (isStep_ulpTest _ _)
  simp only [Ray.within, Bool.and_eq_true] at h
  obtain ⟨t1, t2⟩ := h
  obtain ⟨a1, a2, a3, a4⟩ := ulpExponent_spec low exp
  obtain ⟨b1, b2, b3, b4⟩ := ulpExponent_spec high exp
  have hq : ulpExponent high exp = ulpExponent low exp := congrArg Prod.fst (h2.trans h1.symm)
  rw [← h1] at t2
  rw [← h2] at t1
  simp only [ulpTest, decide_eq_true_eq, hv, hq] at t1 t2
  rw [hq] at b1 b2 b3 b4
  generalize ulpExponent low exp = q at *
  generalize (low : ℚ) * 2 ^ exp = l at *
  generalize (high : ℚ) * 2 ^ exp = u at *
  have mono {a b : Int} (hab : a ≤ b) : (2 : ℝ) ^ a ≤ 2 ^ b := zpow_le_zpow_right₀ (by norm_num) hab
  refine ⟨q, a1, ?_, ?_, ?_⟩
  · rw [habs]
    refine a3.imp id fun hle => le_trans ?_ hl
    have := (Rat.cast_le (K := ℝ)).2 hle
    push_cast at this
    exact this
  · rw [habs]
    rcases b4 with rfl | hlt
    · have h4 : rayAngle r < 4 := (rayAngle_lt_pi r).trans Real.pi_lt_four
      refine h4.trans_le (le_trans (by norm_num) (mono (a := 2) (by norm_num)))
    · refine hh.trans_lt ?_
      have := (Rat.cast_lt (K := ℝ)).2 hlt
      push_cast at this
      exact this
  · rw [distance_packW neg hmag]
    have t1' := (Rat.cast_le (K := ℝ)).2 t1
    have t2' := (Rat.cast_le (K := ℝ)).2 t2
    push_cast at t1' t2'
    exact abs_le.2 ⟨by linarith, by linarith⟩

/-- What `magOf` answers: the rounded angle, or a value that passed the tests of R156(b) and (e). -/
theorem magOf_cases (r : Ray) (cfg : Config) (y x : WBits) :
    r.magOf cfg y x = r.rounded ∨
      (cfg.atan2 ≠ .correctlyRounded ∧ r.magOf cfg y x ≤ pi64 ∧
        r.within cfg.atan2Ulps (r.magOf cfg y x) = true) := by
  unfold Ray.magOf
  cases cfg.atan2 with
  | correctlyRounded => exact .inl rfl
  | other id =>
    simp only
    split
    · next h =>
      obtain ⟨h1, h2⟩ := Bool.and_eq_true_iff.1 h
      exact .inr ⟨Atan2Build.noConfusion, of_decide_eq_true h1, h2⟩
    · exact .inl rfl

/-- R156(b) off the axes. -/
theorem magOf_le (r : Ray) (cfg : Config) (y x : WBits) : r.magOf cfg y x ≤ pi64 := by
  rcases magOf_cases r cfg y x with h | ⟨-, h, -⟩
  · exact h ▸ rounded_le_pi64 r
  · exact h

/-- R156(e) off the axes, with the sign of y. -/
theorem magOf_within (r : Ray) (cfg : Config) (y x : WBits) (hu : 1 / 2 ≤ cfg.atan2Ulps) (neg : Bool) :
    WithinUlps cfg.atan2Ulps ((if neg then -1 else 1) * rayAngle r) (packW neg (r.magOf cfg y x)) := by
  rcases magOf_cases r cfg y x with h | ⟨-, h, hw⟩
  · rw [h]
    exact (rounded_middles r).half_ulp (rayAngle_pos r) neg hu
  · exact within_spec r _ (lt_of_le_of_lt h (by norm_num [pi64, infMagW])) hw neg

/-- R157 off the axes: the default build rounds the angle. -/
theorem magOf_default (r : Ray) (cfg : Config) (y x : WBits) (h : cfg.atan2 = .correctlyRounded) :
    r.magOf cfg y x = r.rounded := by
  simp [Ray.magOf, h]

/-- Whether a finite number is zero, and its sign, by its mantissa. -/
theorem value_fin (neg : Bool) (m : Nat) (e : Int) :
    (Num.fin neg m e).value = (if neg then -1 else 1) * (m * 2 ^ e) := by
  simp only [Num.value, mul_assoc]

/-- ATAN2 off the axes: the sign of y and the magnitude of the ray through the point, whose angle, with that
sign, is the real angle of R155. -/
theorem atan2_off_axes (cfg : Config) (y x : WBits) (hy : (numOfW y).isFinite = true)
    (hx : (numOfW x).isFinite = true) (hy0 : (numOfW y).value ≠ 0) (hx0 : (numOfW x).value ≠ 0) :
    ∃ r : Ray, atan2 cfg y x = packW y.msb (r.magOf cfg y x) ∧
      atan2R y x = (if y.msb then -1 else 1) * rayAngle r := by
  obtain ⟨-, m, e, hm, -⟩ := numOfW_finite hy
  obtain ⟨-, n, f, hn, -⟩ := numOfW_finite hx
  have hm0 : m ≠ 0 := by rintro rfl; exact hy0 (by simp [hm, Num.value])
  have hn0 : n ≠ 0 := by rintro rfl; exact hx0 (by simp [hn, Num.value])
  refine ⟨rayOf x.msb m n e f hm0 hn0, by simp [atan2, hm, hn, hm0, hn0], ?_⟩
  have hvalue (neg : Bool) (k : Nat) {a b : Int} (hab : b ≤ a) : ((Num.fin neg k a).value : ℝ) =
      (if neg then -1 else 1) * (2 ^ b * ((k * 2 ^ (a - b).toNat : Nat) : ℝ)) := by
    rw [value_fin, Rat.cast_mul, cast_sign]
    congr 1
    have : a = b + (a - b).toNat := by omega
    push_cast
    conv_lhs => rw [this]
    rw [zpow_add₀ (by norm_num), zpow_natCast]
    ring
  have hp : (0 : ℝ) < 2 ^ (min e f) := by positivity
  rw [← arg_of_ray (rayOf x.msb m n e f hm0 hn0) y.msb hp, atan2R, hm, hn, hvalue _ _ (min_le_left e f),
    hvalue _ _ (min_le_right e f)]
  rfl

end Sys2Proof.Machine
end

