-- ==== Sys2Proof/Laws/Memory.lean ====
section
/-! SUPPORT. Reading after writing, and that every memory operation keeps the canonical form. -/

namespace Sys2Proof.Machine

/-! ### One byte -/

@[simp] theorem readByte_nil (a : Nat) : readByte [] a = none := rfl

theorem readByte_writeByte (m : Memory) (a b : Nat) (v : Byte) :
    readByte (writeByte m a v) b = if b = a then some v else readByte m b := by
  induction m with
  | nil => simp [writeByte, readByte, eq_comm]
  | cons c rest ih =>
    obtain ⟨key, value⟩ := c
    simp only [writeByte]
    split
    · simp only [readByte]; by_cases h : a = b <;> simp [h, eq_comm]
    · split
      · next h => subst h; simp only [readByte]; by_cases h : a = b <;> simp [h, eq_comm]
      · next h1 h2 =>
        simp only [readByte, ih]
        by_cases h : key = b
        · subst h; simp [Ne.symm h2]
        · simp [h]

/-- The addresses of the entries after a write. -/
theorem mem_writeByte {m : Memory} {a : Nat} {v : Byte} {c : Host.Cell} (h : c ∈ writeByte m a v) :
    c = (a, v) ∨ c ∈ m := by
  induction m with
  | nil => simpa [writeByte] using h
  | cons d rest ih =>
    obtain ⟨key, value⟩ := d
    simp only [writeByte] at h
    split at h
    · simpa using h
    · split at h
      · rcases List.mem_cons.1 h with h | h
        · exact .inl h
        · exact .inr (List.mem_cons_of_mem _ h)
      · rcases List.mem_cons.1 h with h | h
        · exact .inr (h ▸ List.mem_cons_self)
        · exact (ih h).imp id (List.mem_cons_of_mem _)

/-- A write keeps the canonical form. -/
theorem writeByte_wf {m : Memory} (h : m.wf) (a : Nat) (v : Byte) : (writeByte m a v).wf := by
  induction m with
  | nil => simp [writeByte, Memory.wf]
  | cons d rest ih =>
    obtain ⟨key, value⟩ := d
    have ⟨hd, hr⟩ := List.pairwise_cons.1 h
    simp only [writeByte]
    split
    · next hlt =>
      refine List.pairwise_cons.2 ⟨fun c hc => ?_, h⟩
      rcases List.mem_cons.1 hc with rfl | hc
      · exact hlt
      · exact hlt.trans (hd c hc)
    · split
      · next heq => subst heq; exact List.pairwise_cons.2 ⟨fun c hc => hd c hc, hr⟩
      · next hlt hne =>
        refine List.pairwise_cons.2 ⟨fun c hc => ?_, ih hr⟩
        rcases mem_writeByte hc with rfl | hc
        · show key < a; omega
        · exact hd c hc

/-- A listed address reads as a value. -/
theorem readByte_isSome_of_mem {m : Memory} {c : Host.Cell} (h : c ∈ m) : (readByte m c.1).isSome := by
  induction m with
  | nil => cases h
  | cons d rest ih =>
    obtain ⟨key, value⟩ := d
    simp only [readByte]
    split
    · rfl
    · next hne =>
      rcases List.mem_cons.1 h with rfl | h
      · exact absurd rfl hne
      · exact ih h

/-- The memory at reset has the canonical form. -/
theorem reset_buf_wf : State.reset.buf.wf := List.Pairwise.nil

/-! ### One word -/

theorem word_of_lanes (w : Word) :
    w.extractLsb' 24 8 ++ w.extractLsb' 16 8 ++ w.extractLsb' 8 8 ++ w.extractLsb' 0 8 = w := by
  apply BitVec.eq_of_toNat_eq
  have := w.isLt
  simp only [BitVec.toNat_append, BitVec.extractLsb'_toNat, Nat.shiftRight_eq_div_pow]
  rw [← Nat.shiftLeft_add_eq_or_of_lt (Nat.mod_lt _ (by norm_num)),
    ← Nat.shiftLeft_add_eq_or_of_lt (Nat.mod_lt _ (by norm_num)),
    ← Nat.shiftLeft_add_eq_or_of_lt (Nat.mod_lt _ (by norm_num))]
  simp only [Nat.shiftLeft_eq]
  omega

/-- Every byte after a word is written: its four lanes, and every other byte as before. -/
theorem readByte_writeWord (m : Memory) (a b : Nat) (w : Word) :
    readByte (writeWord m a w) b =
      if a ≤ b ∧ b < a + 4 then some (w.extractLsb' (8 * (b - a)) 8) else readByte m b := by
  simp only [writeWord, readByte_writeByte]
  by_cases h : a ≤ b ∧ b < a + 4
  · obtain ⟨h1, h2⟩ := h
    obtain ⟨k, rfl⟩ := Nat.exists_eq_add_of_le h1
    have : k < 4 := by omega
    interval_cases k <;> simp
  · have h0 : b ≠ a := by omega
    have h1 : b ≠ a + 1 := by omega
    have h2 : b ≠ a + 2 := by omega
    have h3 : b ≠ a + 3 := by omega
    simp [h, h0, h1, h2, h3]

theorem readWord_writeWord (m : Memory) (a b : Nat) (w : Word) (h : b = a ∨ b + 4 ≤ a ∨ a + 4 ≤ b) :
    readWord (writeWord m a w) b = if b = a then some w else readWord m b := by
  simp only [readWord, readByte_writeWord]
  by_cases hb : b = a
  · subst hb
    simp [word_of_lanes]
  · have h0 : ¬ (a ≤ b ∧ b < a + 4) := by omega
    have h1 : ¬ (a ≤ b + 1 ∧ b + 1 < a + 4) := by omega
    have h2 : ¬ (a ≤ b + 2 ∧ b + 2 < a + 4) := by omega
    have h3 : ¬ (a ≤ b + 3 ∧ b + 3 < a + 4) := by omega
    simp only [h0, h1, h2, h3, if_false, hb]

theorem writeWord_wf {m : Memory} (h : m.wf) (a : Nat) (w : Word) : (writeWord m a w).wf :=
  writeByte_wf (writeByte_wf (writeByte_wf (writeByte_wf h _ _) _ _) _ _) _ _

theorem mem_writeWord {m : Memory} {a : Nat} {w : Word} {c : Host.Cell} (h : c ∈ writeWord m a w) :
    (a ≤ c.1 ∧ c.1 < a + 4) ∨ c ∈ m := by
  rcases mem_writeByte h with rfl | h
  · left; simp
  rcases mem_writeByte h with rfl | h
  · left; simp
  rcases mem_writeByte h with rfl | h
  · left; simp
  rcases mem_writeByte h with rfl | h
  · left; simp
  · exact .inr h

/-! ### One element -/

@[simp] theorem readElement_nil (e : Nat) : readElement [] e = none := rfl

theorem readElement_writeElement (m : Memory) (e f : Nat) (w : Word) :
    readElement (writeElement m e w) f = if f = e then some w else readElement m f := by
  unfold readElement writeElement elementAddr
  rw [readWord_writeWord _ _ _ _ (by omega)]
  simp

theorem readByte_writeElement (m : Memory) (e a : Nat) (w : Word) :
    readByte (writeElement m e w) a =
      if elementAddr e ≤ a ∧ a < elementAddr e + 4 then
        some (w.extractLsb' (8 * (a - elementAddr e)) 8)
      else readByte m a :=
  readByte_writeWord _ _ _ _

theorem writeElement_wf {m : Memory} (h : m.wf) (e : Nat) (w : Word) : (writeElement m e w).wf :=
  writeWord_wf h _ _

theorem mem_writeElement {m : Memory} {e : Nat} {w : Word} {c : Host.Cell}
    (h : c ∈ writeElement m e w) : (elementAddr e ≤ c.1 ∧ c.1 < elementAddr e + 4) ∨ c ∈ m :=
  mem_writeWord h

/-! ### Lists of pairs -/

theorem readPair_eq_some {m : Memory} {i : Nat} {p : Pair} :
    readPair m i = some p ↔ readElement m (2 * i) = some p.1 ∧ readElement m (2 * i + 1) = some p.2 := by
  unfold readPair
  obtain ⟨re, im⟩ := p
  cases readElement m (2 * i) <;> cases readElement m (2 * i + 1) <;> simp

theorem readPair_eq_none {m : Memory} {i : Nat} :
    readPair m i = none ↔ readElement m (2 * i) = none ∨ readElement m (2 * i + 1) = none := by
  unfold readPair
  cases readElement m (2 * i) <;> cases readElement m (2 * i + 1) <;> simp

/-- Reading pairs succeeds exactly when every element of them is written. -/
theorem readPairs_isSome {m : Memory} {i count : Nat} :
    (readPairs m i count).isSome ↔
      ∀ e, 2 * i ≤ e → e < 2 * (i + count) → (readElement m e).isSome := by
  induction count generalizing i with
  | zero => simp [readPairs]; intro e h1 h2; omega
  | succ count ih =>
    have hi := @ih (i + 1)
    simp only [readPairs]
    constructor
    · intro h e h1 h2
      cases hp : readPair m i with
      | none => simp [hp] at h
      | some p =>
        cases hr : readPairs m (i + 1) count with
        | none => simp [hp, hr] at h
        | some r =>
          rw [hr] at hi
          obtain ⟨hre, him⟩ := readPair_eq_some.1 hp
          by_cases he : e = 2 * i
          · simp [he, hre]
          by_cases he' : e = 2 * i + 1
          · simp [he', him]
          exact hi.1 rfl e (by omega) (by omega)
    · intro h
      have h1 := h (2 * i) (by omega) (by omega)
      have h2 := h (2 * i + 1) (by omega) (by omega)
      have h3 := hi.2 (fun e ha hb => h e (by omega) (by omega))
      obtain ⟨re, hre⟩ := Option.isSome_iff_exists.1 h1
      obtain ⟨im, him⟩ := Option.isSome_iff_exists.1 h2
      obtain ⟨r, hr⟩ := Option.isSome_iff_exists.1 h3
      rw [(readPair_eq_some (p := (re, im))).2 ⟨hre, him⟩, hr]
      rfl

theorem readPairs_length {m : Memory} {i count : Nat} {x : List Pair} (h : readPairs m i count = some x) :
    x.length = count := by
  induction count generalizing i x with
  | zero => simp [readPairs] at h; simp [← h]
  | succ count ih =>
    simp only [readPairs] at h
    split at h
    · next hr => cases h; simp [ih hr]
    · cases h

/-- Reading depends only on the elements read. -/
theorem readPairs_congr {m m' : Memory} {i count : Nat}
    (h : ∀ e, 2 * i ≤ e → e < 2 * (i + count) → readElement m e = readElement m' e) :
    readPairs m i count = readPairs m' i count := by
  induction count generalizing i with
  | zero => rfl
  | succ count ih =>
    have h1 : readPair m i = readPair m' i := by
      unfold readPair
      rw [h (2 * i) (by omega) (by omega), h (2 * i + 1) (by omega) (by omega)]
    have h2 := @ih (i + 1) (fun e ha hb => h e (by omega) (by omega))
    simp only [readPairs, h1, h2]

/-- Elements below the first pair written are unchanged. -/
theorem readElement_writePairs_below {m : Memory} {i : Nat} {x : List Pair} {e : Nat} (h : e < 2 * i) :
    readElement (writePairs m i x) e = readElement m e := by
  induction x generalizing m i with
  | nil => rfl
  | cons p rest ih =>
    rw [writePairs, ih (by omega), readElement_writeElement, readElement_writeElement,
      if_neg (by omega), if_neg (by omega)]

/-- The pairs written are the pairs read back. -/
theorem readPairs_writePairs (m : Memory) (i : Nat) (x : List Pair) :
    readPairs (writePairs m i x) i x.length = some x := by
  induction x generalizing m i with
  | nil => rfl
  | cons p rest ih =>
    have h : readPair (writePairs m i (p :: rest)) i = some p := by
      rw [readPair_eq_some, writePairs, readElement_writePairs_below (by omega),
        readElement_writePairs_below (by omega), readElement_writeElement, readElement_writeElement,
        readElement_writeElement]
      simp
    simp only [List.length_cons, readPairs, h]
    simp only [writePairs, ih]

/-- Bytes outside the pairs written are unchanged. -/
theorem readByte_writePairs_outside {m : Memory} {i : Nat} {x : List Pair} {a : Nat}
    (h : a < elementAddr (2 * i) ∨ elementAddr (2 * (i + x.length)) ≤ a) :
    readByte (writePairs m i x) a = readByte m a := by
  induction x generalizing m i with
  | nil => rfl
  | cons p rest ih =>
    simp only [List.length_cons, elementAddr] at h
    rw [writePairs, ih (by simp only [elementAddr]; omega), readByte_writeElement, readByte_writeElement,
      if_neg (by simp only [elementAddr]; omega), if_neg (by simp only [elementAddr]; omega)]

theorem writePairs_wf {m : Memory} (h : m.wf) (i : Nat) (x : List Pair) : (writePairs m i x).wf := by
  induction x generalizing m i with
  | nil => exact h
  | cons p rest ih => exact ih (writeElement_wf (writeElement_wf h _ _) _ _) _

end Sys2Proof.Machine
end

