-- ==== Sys2Proof/Laws/State.lean ====
section
/-! SUPPORT. One lemma per field for each named update of the state, so that no proof unfolds a record
update. -/

namespace Sys2Proof.Machine

/-! ### respond -/

@[simp] theorem respond_cfg (r : Resp) (d : Word) (s : State) : (respond r d s).cfg = s.cfg := rfl
@[simp] theorem respond_busy (r : Resp) (d : Word) (s : State) : (respond r d s).busy = s.busy := rfl
@[simp] theorem respond_curOp (r : Resp) (d : Word) (s : State) : (respond r d s).curOp = s.curOp := rfl
@[simp] theorem respond_lk (r : Resp) (d : Word) (s : State) : (respond r d s).lk = s.lk := rfl
@[simp] theorem respond_lcal (r : Resp) (d : Word) (s : State) : (respond r d s).lcal = s.lcal := rfl
@[simp] theorem respond_done (r : Resp) (d : Word) (s : State) : (respond r d s).done = s.done := rfl
@[simp] theorem respond_errCmd (r : Resp) (d : Word) (s : State) : (respond r d s).errCmd = s.errCmd := rfl
@[simp] theorem respond_errBusy (r : Resp) (d : Word) (s : State) : (respond r d s).errBusy = s.errBusy := rfl
@[simp] theorem respond_errAddr (r : Resp) (d : Word) (s : State) : (respond r d s).errAddr = s.errAddr := rfl
@[simp] theorem respond_oor (r : Resp) (d : Word) (s : State) : (respond r d s).oor = s.oor := rfl
@[simp] theorem respond_und (r : Resp) (d : Word) (s : State) : (respond r d s).und = s.und := rfl
@[simp] theorem respond_nf (r : Resp) (d : Word) (s : State) : (respond r d s).nf = s.nf := rfl
@[simp] theorem respond_doneIe (r : Resp) (d : Word) (s : State) : (respond r d s).doneIe = s.doneIe := rfl
@[simp] theorem respond_errIe (r : Resp) (d : Word) (s : State) : (respond r d s).errIe = s.errIe := rfl
@[simp] theorem respond_binK (r : Resp) (d : Word) (s : State) : (respond r d s).binK = s.binK := rfl
@[simp] theorem respond_cal (r : Resp) (d : Word) (s : State) : (respond r d s).cal = s.cal := rfl
@[simp] theorem respond_phase (r : Resp) (d : Word) (s : State) : (respond r d s).phase = s.phase := rfl
@[simp] theorem respond_buf (r : Resp) (d : Word) (s : State) : (respond r d s).buf = s.buf := rfl
@[simp] theorem respond_resp (r : Resp) (d : Word) (s : State) : (respond r d s).resp = r := rfl
@[simp] theorem respond_rdata (r : Resp) (d : Word) (s : State) : (respond r d s).rdata = d := rfl
@[simp] theorem respond_events (r : Resp) (d : Word) (s : State) : (respond r d s).events = s.events := rfl

/-! ### complete -/

@[simp] theorem complete_cfg (s : State) : (complete s).cfg = s.cfg := rfl
@[simp] theorem complete_busy (s : State) : (complete s).busy = false := rfl
@[simp] theorem complete_curOp (s : State) : (complete s).curOp = s.curOp := rfl
@[simp] theorem complete_lk (s : State) : (complete s).lk = s.lk := rfl
@[simp] theorem complete_lcal (s : State) : (complete s).lcal = s.lcal := rfl
@[simp] theorem complete_done (s : State) : (complete s).done = true := rfl
@[simp] theorem complete_errCmd (s : State) : (complete s).errCmd = s.errCmd := rfl
@[simp] theorem complete_errBusy (s : State) : (complete s).errBusy = s.errBusy := rfl
@[simp] theorem complete_errAddr (s : State) : (complete s).errAddr = s.errAddr := rfl
@[simp] theorem complete_oor (s : State) : (complete s).oor = s.oor := rfl
@[simp] theorem complete_und (s : State) : (complete s).und = s.und := rfl
@[simp] theorem complete_nf (s : State) : (complete s).nf = s.nf := rfl
@[simp] theorem complete_doneIe (s : State) : (complete s).doneIe = s.doneIe := rfl
@[simp] theorem complete_errIe (s : State) : (complete s).errIe = s.errIe := rfl
@[simp] theorem complete_binK (s : State) : (complete s).binK = s.binK := rfl
@[simp] theorem complete_cal (s : State) : (complete s).cal = s.cal := rfl
@[simp] theorem complete_phase (s : State) : (complete s).phase = s.phase := rfl
@[simp] theorem complete_buf (s : State) : (complete s).buf = s.buf := rfl
@[simp] theorem complete_resp (s : State) : (complete s).resp = s.resp := rfl
@[simp] theorem complete_rdata (s : State) : (complete s).rdata = s.rdata := rfl
@[simp] theorem complete_events (s : State) : (complete s).events = s.events := rfl

/-! ### clearStatus -/

@[simp] theorem clearStatus_cfg (d : Word) (s : State) : (clearStatus d s).cfg = s.cfg := rfl
@[simp] theorem clearStatus_busy (d : Word) (s : State) : (clearStatus d s).busy = s.busy := rfl
@[simp] theorem clearStatus_curOp (d : Word) (s : State) : (clearStatus d s).curOp = s.curOp := rfl
@[simp] theorem clearStatus_lk (d : Word) (s : State) : (clearStatus d s).lk = s.lk := rfl
@[simp] theorem clearStatus_lcal (d : Word) (s : State) : (clearStatus d s).lcal = s.lcal := rfl
@[simp] theorem clearStatus_done (d : Word) (s : State) : (clearStatus d s).done = (s.done && !d.getLsbD 1) := rfl
@[simp] theorem clearStatus_errCmd (d : Word) (s : State) : (clearStatus d s).errCmd = (s.errCmd && !d.getLsbD 2) := rfl
@[simp] theorem clearStatus_errBusy (d : Word) (s : State) : (clearStatus d s).errBusy = (s.errBusy && !d.getLsbD 3) := rfl
@[simp] theorem clearStatus_errAddr (d : Word) (s : State) : (clearStatus d s).errAddr = (s.errAddr && !d.getLsbD 4) := rfl
@[simp] theorem clearStatus_oor (d : Word) (s : State) : (clearStatus d s).oor = s.oor := rfl
@[simp] theorem clearStatus_und (d : Word) (s : State) : (clearStatus d s).und = s.und := rfl
@[simp] theorem clearStatus_nf (d : Word) (s : State) : (clearStatus d s).nf = s.nf := rfl
@[simp] theorem clearStatus_doneIe (d : Word) (s : State) : (clearStatus d s).doneIe = s.doneIe := rfl
@[simp] theorem clearStatus_errIe (d : Word) (s : State) : (clearStatus d s).errIe = s.errIe := rfl
@[simp] theorem clearStatus_binK (d : Word) (s : State) : (clearStatus d s).binK = s.binK := rfl
@[simp] theorem clearStatus_cal (d : Word) (s : State) : (clearStatus d s).cal = s.cal := rfl
@[simp] theorem clearStatus_phase (d : Word) (s : State) : (clearStatus d s).phase = s.phase := rfl
@[simp] theorem clearStatus_buf (d : Word) (s : State) : (clearStatus d s).buf = s.buf := rfl
@[simp] theorem clearStatus_resp (d : Word) (s : State) : (clearStatus d s).resp = s.resp := rfl
@[simp] theorem clearStatus_rdata (d : Word) (s : State) : (clearStatus d s).rdata = s.rdata := rfl
@[simp] theorem clearStatus_events (d : Word) (s : State) : (clearStatus d s).events = s.events := rfl

/-! ### setFlag -/

@[simp] theorem setFlag_cfg (c : Condition) (s : State) : (setFlag c s).cfg = s.cfg := by cases c <;> simp [setFlag]
@[simp] theorem setFlag_busy (c : Condition) (s : State) : (setFlag c s).busy = s.busy := by cases c <;> simp [setFlag]
@[simp] theorem setFlag_curOp (c : Condition) (s : State) : (setFlag c s).curOp = s.curOp := by cases c <;> simp [setFlag]
@[simp] theorem setFlag_lk (c : Condition) (s : State) : (setFlag c s).lk = s.lk := by cases c <;> simp [setFlag]
@[simp] theorem setFlag_lcal (c : Condition) (s : State) : (setFlag c s).lcal = s.lcal := by cases c <;> simp [setFlag]
@[simp] theorem setFlag_done (c : Condition) (s : State) : (setFlag c s).done = s.done := by cases c <;> simp [setFlag]
@[simp] theorem setFlag_errCmd (c : Condition) (s : State) : (setFlag c s).errCmd = (s.errCmd || c == .command) := by cases c <;> simp [setFlag]
@[simp] theorem setFlag_errBusy (c : Condition) (s : State) : (setFlag c s).errBusy = (s.errBusy || c == .busy) := by cases c <;> simp [setFlag]
@[simp] theorem setFlag_errAddr (c : Condition) (s : State) : (setFlag c s).errAddr = (s.errAddr || c == .address) := by cases c <;> simp [setFlag]
@[simp] theorem setFlag_oor (c : Condition) (s : State) : (setFlag c s).oor = s.oor := by cases c <;> simp [setFlag]
@[simp] theorem setFlag_und (c : Condition) (s : State) : (setFlag c s).und = s.und := by cases c <;> simp [setFlag]
@[simp] theorem setFlag_nf (c : Condition) (s : State) : (setFlag c s).nf = s.nf := by cases c <;> simp [setFlag]
@[simp] theorem setFlag_doneIe (c : Condition) (s : State) : (setFlag c s).doneIe = s.doneIe := by cases c <;> simp [setFlag]
@[simp] theorem setFlag_errIe (c : Condition) (s : State) : (setFlag c s).errIe = s.errIe := by cases c <;> simp [setFlag]
@[simp] theorem setFlag_binK (c : Condition) (s : State) : (setFlag c s).binK = s.binK := by cases c <;> simp [setFlag]
@[simp] theorem setFlag_cal (c : Condition) (s : State) : (setFlag c s).cal = s.cal := by cases c <;> simp [setFlag]
@[simp] theorem setFlag_phase (c : Condition) (s : State) : (setFlag c s).phase = s.phase := by cases c <;> simp [setFlag]
@[simp] theorem setFlag_buf (c : Condition) (s : State) : (setFlag c s).buf = s.buf := by cases c <;> simp [setFlag]
@[simp] theorem setFlag_resp (c : Condition) (s : State) : (setFlag c s).resp = s.resp := by cases c <;> simp [setFlag]
@[simp] theorem setFlag_rdata (c : Condition) (s : State) : (setFlag c s).rdata = s.rdata := by cases c <;> simp [setFlag]
@[simp] theorem setFlag_events (c : Condition) (s : State) : (setFlag c s).events = s.events := by cases c <;> simp [setFlag]

/-! ### accept -/

@[simp] theorem accept_cfg (op : Op) (s : State) : (accept op s).cfg = s.cfg := by cases op <;> rfl
@[simp] theorem accept_busy (op : Op) (s : State) : (accept op s).busy = true := by cases op <;> rfl
@[simp] theorem accept_curOp (op : Op) (s : State) : (accept op s).curOp = op := by cases op <;> rfl
@[simp] theorem accept_lk (op : Op) (s : State) : (accept op s).lk = (if op = .phase then s.binK else s.lk) := by cases op <;> rfl
@[simp] theorem accept_lcal (op : Op) (s : State) : (accept op s).lcal = (if op = .phase then s.cal else s.lcal) := by cases op <;> rfl
@[simp] theorem accept_done (op : Op) (s : State) : (accept op s).done = false := by cases op <;> rfl
@[simp] theorem accept_errCmd (op : Op) (s : State) : (accept op s).errCmd = s.errCmd := by cases op <;> rfl
@[simp] theorem accept_errBusy (op : Op) (s : State) : (accept op s).errBusy = s.errBusy := by cases op <;> rfl
@[simp] theorem accept_errAddr (op : Op) (s : State) : (accept op s).errAddr = s.errAddr := by cases op <;> rfl
@[simp] theorem accept_oor (op : Op) (s : State) : (accept op s).oor = s.oor := by cases op <;> rfl
@[simp] theorem accept_und (op : Op) (s : State) : (accept op s).und = s.und := by cases op <;> rfl
@[simp] theorem accept_nf (op : Op) (s : State) : (accept op s).nf = s.nf := by cases op <;> rfl
@[simp] theorem accept_doneIe (op : Op) (s : State) : (accept op s).doneIe = s.doneIe := by cases op <;> rfl
@[simp] theorem accept_errIe (op : Op) (s : State) : (accept op s).errIe = s.errIe := by cases op <;> rfl
@[simp] theorem accept_binK (op : Op) (s : State) : (accept op s).binK = s.binK := by cases op <;> rfl
@[simp] theorem accept_cal (op : Op) (s : State) : (accept op s).cal = s.cal := by cases op <;> rfl
@[simp] theorem accept_phase (op : Op) (s : State) : (accept op s).phase = s.phase := by cases op <;> rfl
@[simp] theorem accept_buf (op : Op) (s : State) : (accept op s).buf = s.buf := by cases op <;> rfl
@[simp] theorem accept_resp (op : Op) (s : State) : (accept op s).resp = s.resp := by cases op <;> rfl
@[simp] theorem accept_rdata (op : Op) (s : State) : (accept op s).rdata = s.rdata := by cases op <;> rfl
@[simp] theorem accept_events (op : Op) (s : State) : (accept op s).events = s.events := by cases op <;> rfl

/-! ### resetOf -/

@[simp] theorem resetOf_cfg (c : Config) (l : List Event) : (State.resetOf c l).cfg = c := rfl
@[simp] theorem resetOf_events (c : Config) (l : List Event) : (State.resetOf c l).events = l := rfl
@[simp] theorem resetOf_busy (c : Config) (l : List Event) : (State.resetOf c l).busy = false := rfl
@[simp] theorem resetOf_done (c : Config) (l : List Event) : (State.resetOf c l).done = false := rfl
@[simp] theorem resetOf_buf (c : Config) (l : List Event) : (State.resetOf c l).buf = [] := rfl
@[simp] theorem resetOf_phase (c : Config) (l : List Event) : (State.resetOf c l).phase = 0#64 := rfl
@[simp] theorem resetOf_oor (c : Config) (l : List Event) : (State.resetOf c l).oor = false := rfl
@[simp] theorem resetOf_und (c : Config) (l : List Event) : (State.resetOf c l).und = false := rfl
@[simp] theorem resetOf_nf (c : Config) (l : List Event) : (State.resetOf c l).nf = false := rfl

end Sys2Proof.Machine
end

