-- ==== Sys2Proof/Laws/Ops.lean ====
section
/-! SUPPORT. What the shared operations, an instruction, the engine and a step can do, each said once. -/

namespace Sys2Proof.Machine

/-! ### The shared operations -/

@[simp] theorem readOkay_eq (d : Word) (s : State) : readOkay d s = .next (respond .okay d s) := rfl

@[simp] theorem writeOkay_eq (s : State) : writeOkay s = .next (respond .okay 0#32 s) := rfl

@[simp] theorem raise_eq (c : Condition) (s : State) :
    raise c s = .next (respond .error 0#32 (setFlag c s)) := rfl

/-- A CTRL write always answers OKAY; while BUSY it only sets ERR_BUSY. -/
theorem ctrlWrite_eq (effect : State → State) (s : State) :
    ctrlWrite effect s =
      .next (respond .okay 0#32 (if s.busy then setFlag .busy s else effect s)) := by
  unfold ctrlWrite; split <;> rfl

@[simp] theorem commandEffect_nop (s : State) : commandEffect 0#32 s = s := rfl
@[simp] theorem commandEffect_transform (s : State) : commandEffect 1#32 s = accept .transform s := rfl
@[simp] theorem commandEffect_phase (s : State) : commandEffect 2#32 s = accept .phase s := rfl

theorem commandEffect_reserved {w : Word} (h0 : w ≠ 0#32) (h1 : w ≠ 1#32) (h2 : w ≠ 2#32) (s : State) :
    commandEffect w s = setFlag .command s := by
  unfold commandEffect; rw [if_neg h0, if_neg h1, if_neg h2]

/-- The four things a command word can do while idle. -/
theorem commandEffect_cases (w : Word) (s : State) :
    (w = 0#32 ∧ commandEffect w s = s) ∨ (w = 1#32 ∧ commandEffect w s = accept .transform s) ∨
      (w = 2#32 ∧ commandEffect w s = accept .phase s) ∨
      ((w ≠ 0#32 ∧ w ≠ 1#32 ∧ w ≠ 2#32) ∧ commandEffect w s = setFlag .command s) := by
  by_cases h0 : w = 0#32
  · exact .inl ⟨h0, by rw [h0]; rfl⟩
  by_cases h1 : w = 1#32
  · exact .inr (.inl ⟨h1, by rw [h1]; rfl⟩)
  by_cases h2 : w = 2#32
  · exact .inr (.inr (.inl ⟨h2, by rw [h2]; rfl⟩))
  · exact .inr (.inr (.inr ⟨⟨h0, h1, h2⟩, commandEffect_reserved h0 h1 h2 s⟩))

/-! ### One instruction -/

/-- Everything an instruction that answers a next state can have done. -/
inductive Did (i : Instr) (s : State) : State → Prop
  /-- A transaction error with ERR_ADDR. -/
  | addressError : Did i s (respond .error 0#32 (setFlag .address s))
  /-- A buffer access while BUSY. -/
  | busyError (hb : s.busy = true) (hi : (∃ e, i = .rdBuf e) ∨ ∃ e d, i = .wrBuf e d) :
      Did i s (respond .error 0#32 (setFlag .busy s))
  /-- A read of a register, the buffer or a ROM. -/
  | read (d : Word) : Did i s (respond .okay d s)
  | status (d : Word) (hi : i = .wrStatus d) : Did i s (respond .okay 0#32 (clearStatus d s))
  | irqEn (d : Word) (hi : i = .wrIrqEn d) :
      Did i s (respond .okay 0#32 { s with doneIe := d.getLsbD 0, errIe := d.getLsbD 1 })
  | binK (d : Word) (hi : i = .wrBinK d) : Did i s (respond .okay 0#32 { s with binK := d })
  | cal (c : WBits) (hi : (∃ d, i = .wrCalLo d) ∨ ∃ d, i = .wrCalHi d) :
      Did i s (respond .okay 0#32 { s with cal := c })
  | buf (e : BitVec 17) (d : Word) (hi : i = .wrBuf e d) (hb : s.busy = false) :
      Did i s (respond .okay 0#32 { s with buf := writeElement s.buf e.toNat d })
  /-- A command word while BUSY. -/
  | busyCommand (hb : s.busy = true) : Did i s (respond .okay 0#32 (setFlag .busy s))
  /-- NOP while idle. -/
  | nothing (hb : s.busy = false) : Did i s (respond .okay 0#32 s)
  | accept (op : Op) (hb : s.busy = false)
      (hi : (op = .transform ∧ (i = .transform ∨ i = .wrCtrl 1#32)) ∨
        (op = .phase ∧ (i = .phase ∨ i = .wrCtrl 2#32))) :
      Did i s (respond .okay 0#32 (accept op s))
  | commandError (hb : s.busy = false) : Did i s (respond .okay 0#32 (setFlag .command s))

/-- An instruction does one of these things. -/
theorem exec_did {i : Instr} {s t : State} (h : exec i s = .next t) : Did i s t := by
  have command : ∀ (effect : State → State), ctrlWrite effect s = .next t →
      (s.busy = false → Did i s (respond .okay 0#32 (effect s))) → Did i s t := by
    intro effect h hd
    rw [ctrlWrite_eq] at h
    cases h
    by_cases hb : s.busy = true
    · rw [if_pos hb]; exact .busyCommand hb
    · rw [if_neg hb]; exact hd (by simpa using hb)
  cases i with
  | misaligned01 | misaligned10 | misaligned11 | wrCfg | wrPhaseLo | wrPhaseHi | wrWinFt | wrWinHn
    | unmapped => cases h; exact .addressError
  | rdCtrl | rdStatus | rdIrqEn | rdCfg | rdBinK | rdCalLo | rdCalHi | rdPhaseLo | rdPhaseHi
    | rdWinFt | rdWinHn => cases h; exact .read _
  | wrStatus d => cases h; exact .status d rfl
  | wrIrqEn d => cases h; exact .irqEn d rfl
  | wrBinK d => cases h; exact .binK d rfl
  | wrCalLo d => cases h; exact .cal _ (.inl ⟨d, rfl⟩)
  | wrCalHi d => cases h; exact .cal _ (.inr ⟨d, rfl⟩)
  | rdBuf e =>
    simp only [exec, execRdBuf] at h
    split at h
    · next hb => cases h; exact .busyError hb (.inl ⟨e, rfl⟩)
    · split at h
      · cases h
      · cases h; exact .read _
  | wrBuf e d =>
    simp only [exec, execWrBuf] at h
    split at h
    · next hb => cases h; exact .busyError hb (.inr ⟨e, d, rfl⟩)
    · next hb => cases h; exact .buf e d rfl (by simpa using hb)
  | wrCtrl d =>
    refine command _ h fun hb => ?_
    rcases commandEffect_cases d s with ⟨-, hw⟩ | ⟨rfl, hw⟩ | ⟨rfl, hw⟩ | ⟨-, hw⟩ <;> rw [hw]
    · exact .nothing hb
    · exact .accept .transform hb (.inl ⟨rfl, .inr rfl⟩)
    · exact .accept .phase hb (.inr ⟨rfl, .inr rfl⟩)
    · exact .commandError hb
  | nop => exact command (fun idle => idle) h fun hb => .nothing hb
  | transform => exact command _ h fun hb => .accept .transform hb (.inl ⟨rfl, .inl rfl⟩)
  | phase => exact command _ h fun hb => .accept .phase hb (.inr ⟨rfl, .inl rfl⟩)
  | reservedCmd w => exact command _ h fun hb => .commandError hb

/-- The only instruction that can fail to answer a next state is a read of an unwritten element. -/
theorem exec_stops {i : Instr} {s : State} (h : ∀ t, exec i s ≠ .next t) :
    ∃ e, i = .rdBuf e ∧ s.busy = false ∧ readElement s.buf e.toNat = none ∧
      exec i s = .fault .unwrittenRead := by
  cases i with
  | rdBuf e =>
    simp only [exec, execRdBuf] at h ⊢
    by_cases hb : s.busy = true
    · rw [if_pos hb] at h; exact absurd rfl (h _)
    · rw [if_neg hb] at h
      cases hr : readElement s.buf e.toNat with
      | some d => rw [hr] at h; exact absurd rfl (h _)
      | none => exact ⟨e, rfl, by simpa using hb, hr, by rw [if_neg hb]⟩
  | wrBuf e d =>
    simp only [exec, execWrBuf] at h
    split at h <;> exact absurd rfl (h _)
  | nop => exact absurd (ctrlWrite_eq (fun idle => idle) s) (h _)
  | wrCtrl | transform | phase | reservedCmd => exact absurd (ctrlWrite_eq _ _) (h _)
  | _ => exact absurd rfl (h _)

/-! ### The engine -/

/-- Everything the engine's step can do when it answers a next state. -/
theorem engineStep_cases {s t : State} (h : engineStep s = .next t) :
    (s.busy = false ∧ t = s) ∨
    (s.busy = true ∧ s.curOp = .transform ∧ ∃ x, readPairs s.buf 0 s.cfg.size = some x ∧
      t = complete { s with buf := writePairs s.buf 0 (transformPairs s.cfg.log2n x) }) ∨
    (s.busy = true ∧ s.curOp = .phase ∧ ∃ r, phaseResult s = some r ∧
      t = complete { s with phase := r.value, oor := r.oor, und := r.und, nf := r.nf }) := by
  unfold engineStep at h
  split at h
  · next hb =>
    split at h
    · next hop =>
      unfold completeTransform at h
      split at h
      · cases h
      · next x hx => cases h; exact .inr (.inl ⟨hb, hop, x, hx, rfl⟩)
    · next hop =>
      unfold completePhase at h
      split at h
      · cases h
      · next r hr => cases h; exact .inr (.inr ⟨hb, hop, r, hr, rfl⟩)
  · next hb => cases h; exact .inl ⟨by simpa using hb, rfl⟩

/-! ### The step relation over the record (R30) -/

/-- An instruction reads the record and the build alone, and writes the record and the answer. -/
theorem exec_put (i : Instr) (s : State) :
    exec i s = s.put (blockOut true (exec i (s.toBlock.inBuild s.cfg))) := by
  have command (effect : State → State)
      (h : effect s = { s with toBlock := (effect (s.toBlock.inBuild s.cfg)).toBlock }) :
      ctrlWrite effect s = s.put (blockOut true (ctrlWrite effect (s.toBlock.inBuild s.cfg))) := by
    by_cases hb : s.busy = true
    · rw [ctrlWrite_eq, ctrlWrite_eq, if_pos hb, if_pos (show (s.toBlock.inBuild s.cfg).busy = true from hb)]
      rfl
    · rw [ctrlWrite_eq, ctrlWrite_eq, if_neg hb, if_neg (show ¬ (s.toBlock.inBuild s.cfg).busy = true from hb), h]
      rfl
  cases i with
  | wrCtrl w =>
    refine command _ ?_
    unfold commandEffect
    split_ifs <;> rfl
  | nop => exact command (fun idle => idle) rfl
  | transform | phase | reservedCmd => exact command _ rfl
  | rdBuf e =>
    obtain ⟨⟨busy⟩, cfg, resp, rdata, events⟩ := s
    cases busy
    · simp only [exec, execRdBuf, Block.inBuild, Bool.false_eq_true, if_false]
      generalize readElement _ _ = found
      cases found <;> rfl
    · rfl
  | wrBuf e w =>
    obtain ⟨⟨busy⟩, cfg, resp, rdata, events⟩ := s
    cases busy <;> rfl
  | _ => rfl

/-- The engine reads the record and the build alone, and writes the record. -/
theorem engineStep_put (s : State) :
    engineStep s = s.put (blockOut false (engineStep (s.toBlock.inBuild s.cfg))) := by
  have transform : completeTransform s = s.put (blockOut false (completeTransform (s.toBlock.inBuild s.cfg))) := by
    unfold completeTransform Block.inBuild
    dsimp only
    generalize readPairs s.buf 0 s.cfg.size = found
    cases found <;> rfl
  have phase : completePhase s = s.put (blockOut false (completePhase (s.toBlock.inBuild s.cfg))) := by
    have hr : phaseResult (s.toBlock.inBuild s.cfg) = phaseResult s := rfl
    unfold completePhase
    rw [hr]
    generalize phaseResult s = result
    cases result <;> rfl
  obtain ⟨⟨busy, curOp⟩, cfg, resp, rdata, events⟩ := s
  cases busy
  · rfl
  · cases curOp
    · exact transform
    · exact phase

/-- A host input runs the instruction it decodes to. -/
@[simp] theorem eventStep_host (e : Encoded) (s : State) :
    eventStep (.host e) s = exec (decode s.cfg.log2n e) s := (exec_put _ s).symm

@[simp] theorem eventStep_engine (s : State) : eventStep .engine s = engineStep s := (engineStep_put s).symm

@[simp] theorem eventStep_reset (s : State) : eventStep .reset s = resetStep s := rfl

/-! ### The step -/

/-- What a step that answers a next state took: the engine's turn, a host input or a reset. -/
theorem step_cases {s t : State} (h : step s = .next t) :
    s.cfg.valid = true ∧
      ((s.events = [] ∧ engineStep s = .next t) ∨
        (∃ rest, s.events = .engine :: rest ∧ engineStep { s with events := rest } = .next t) ∨
        (∃ e rest, s.events = .host e :: rest ∧
          exec (decode s.cfg.log2n e) { s with events := rest } = .next t) ∨
        (∃ rest, s.events = .reset :: rest ∧ t = State.resetOf s.cfg rest)) := by
  unfold step at h
  split at h
  · next hv =>
    refine ⟨hv, ?_⟩
    split at h
    · next he => exact .inl ⟨he, eventStep_engine s ▸ h⟩
    · next event rest he =>
      cases event with
      | host e => exact .inr (.inr (.inl ⟨e, rest, he, eventStep_host e { s with events := rest } ▸ h⟩))
      | engine => exact .inr (.inl ⟨rest, he, eventStep_engine { s with events := rest } ▸ h⟩)
      | reset => cases h; exact .inr (.inr (.inr ⟨rest, he, rfl⟩))
  · cases h

end Sys2Proof.Machine
end

