-- ==== Sys2Proof/Laws/Block.lean ====
section
/-! SUPPORT. The record of R30 is the state of FFTPC: a step is the step relation of the build over the record,
and what else `State` holds is no state of the block. -/

namespace Sys2Proof.Machine

/-- A step is the step relation of the build on the next event, or on the engine's turn where none is
pending. -/
theorem step_eq (s : State) (hv : s.cfg.valid = true) :
    step s = { s with events := s.events.tail }.put
      (Block.step s.cfg (s.events.head?.getD .engine) s.toBlock) := by
  obtain ⟨b, cfg, resp, rdata, events⟩ := s
  unfold step
  rw [if_pos hv]
  cases events <;> rfl

theorem put_cfg {s t : State} {o : BlockOut} (h : s.put o = .next t) : t.cfg = s.cfg := by
  match o with
  | .next (b, some (r, d)) => cases h; rfl
  | .next (b, none) => cases h; rfl
  | .fault _ => cases h
  | .refused _ => cases h

/-- No step writes the build: it is a parameter (R30). -/
theorem step_cfg {s t : State} (h : step s = .next t) : t.cfg = s.cfg := by
  rw [step_eq s (step_cases h).1] at h
  exact put_cfg (s := { s with events := s.events.tail }) h

end Sys2Proof.Machine
end

