-- ==== Sys2Proof/Laws/Decode.lean ====
section
/-! SUPPORT. The fields of selectors and addresses. -/

namespace Sys2Proof

@[simp] theorem selectorWe_selector (we : Bool) (a : Addr) : selectorWe (selector we a) = we := by
  simp [selectorWe, selector]

@[simp] theorem selectorAddr_selector (we : Bool) (a : Addr) : selectorAddr (selector we a) = a := by
  simp [selectorAddr, selector]

/-- Every selector is its direction and its address. -/
theorem selector_eta (t : Selector) : selector (selectorWe t) (selectorAddr t) = t := by
  simp [selectorWe, selectorAddr, selector]

theorem toNat_append_lt {m n : Nat} (x : BitVec m) (y : BitVec n) :
    (x ++ y).toNat = x.toNat * 2 ^ n + y.toNat := by
  rw [BitVec.toNat_append, ← Nat.shiftLeft_add_eq_or_of_lt y.isLt, Nat.shiftLeft_eq]

/-- A field of an address, as a number. -/
theorem toNat_field (a : Addr) (start len : Nat) :
    (a.extractLsb' start len).toNat = a.toNat / 2 ^ start % 2 ^ len := by
  rw [BitVec.extractLsb'_toNat, Nat.shiftRight_eq_div_pow]

theorem toNat_bufAddr (e : BitVec 17) : (bufAddr e).toNat = 0x100000 + 4 * e.toNat := by
  unfold bufAddr
  rw [toNat_append_lt, toNat_append_lt]
  have := e.isLt
  simp; omega

theorem toNat_winFtAddr (n : BitVec 16) : (winFtAddr n).toNat = 0x200000 + 4 * n.toNat := by
  unfold winFtAddr
  rw [toNat_append_lt, toNat_append_lt]
  have := n.isLt
  simp; omega

theorem toNat_winHnAddr (n : BitVec 16) : (winHnAddr n).toNat = 0x300000 + 4 * n.toNat := by
  unfold winHnAddr
  rw [toNat_append_lt, toNat_append_lt]
  have := n.isLt
  simp; omega

/-- Two low bits are the address modulo four. -/
theorem lowBits_eq_iff (a : Addr) (v : BitVec 2) : a.extractLsb' 0 2 = v ↔ a.toNat % 4 = v.toNat := by
  rw [← BitVec.toNat_inj, toNat_field]; simp

/-- Every address is its word address and its two low bits. -/
theorem wordAddr_append (a : Addr) (v : BitVec 2) (h : a.extractLsb' 0 2 = v) :
    a.extractLsb' 2 20 ++ v = a := by
  apply BitVec.eq_of_toNat_eq
  rw [toNat_append_lt, toNat_field]
  rw [lowBits_eq_iff] at h
  have := a.isLt
  omega

/-- An aligned address is decoded by rows 2 to 14 of R112. -/
theorem decode_aligned (log2n : Nat) (we : Bool) (a : Addr) (d : Word) (h : a.toNat % 4 = 0) :
    decode log2n (.hostbus (selector we a) d) = decodeAligned log2n we a d := by
  simp only [decode, decodeHostbus, selectorWe_selector, selectorAddr_selector, lowBits_eq_iff, h]
  rfl

/-- Which region of R81 an aligned address is decoded to. -/
theorem decodeAligned_buf (log2n : Nat) (we : Bool) (a : Addr) (d : Word) (e : BitVec 17)
    (ha : a.toNat = 0x100000 + 4 * e.toNat) (he : e.toNat < 2 * 2 ^ log2n) :
    decodeAligned log2n we a d = if we then .wrBuf e d else .rdBuf e := by
  have hlt := e.isLt
  have hf : a.extractLsb' 2 17 = e := by
    apply BitVec.eq_of_toNat_eq; rw [toNat_field]; omega
  have hr : a.extractLsb' 19 3 = 0b010#3 := by
    apply BitVec.eq_of_toNat_eq; rw [toNat_field, ha]; simp; omega
  have hne : ∀ k : Addr, k.toNat < 0x100000 → a ≠ k := by rintro k hk rfl; omega
  unfold decodeAligned
  rw [if_neg (hne _ (by decide)), if_neg (hne _ (by decide)), if_neg (hne _ (by decide)),
    if_neg (hne _ (by decide)), if_neg (hne _ (by decide)), if_neg (hne _ (by decide)),
    if_neg (hne _ (by decide)), if_neg (hne _ (by decide)), if_neg (hne _ (by decide)), hf, if_pos ⟨hr, he⟩]

theorem decodeAligned_winFt (log2n : Nat) (we : Bool) (a : Addr) (d : Word) (n : BitVec 16)
    (ha : a.toNat = 0x200000 + 4 * n.toNat) (hn : n.toNat < 2 ^ log2n) :
    decodeAligned log2n we a d = if we then .wrWinFt n d else .rdWinFt n := by
  have hlt := n.isLt
  have hf : a.extractLsb' 2 16 = n := by
    apply BitVec.eq_of_toNat_eq; rw [toNat_field]; omega
  have hr : a.extractLsb' 18 4 = 0b1000#4 := by
    apply BitVec.eq_of_toNat_eq; rw [toNat_field, ha]; simp; omega
  have hb : a.extractLsb' 19 3 ≠ 0b010#3 := by
    intro h; have := congrArg BitVec.toNat h; rw [toNat_field, ha] at this; simp at this; omega
  have hne : ∀ k : Addr, k.toNat < 0x100000 → a ≠ k := by rintro k hk rfl; omega
  unfold decodeAligned
  rw [if_neg (hne _ (by decide)), if_neg (hne _ (by decide)), if_neg (hne _ (by decide)),
    if_neg (hne _ (by decide)), if_neg (hne _ (by decide)), if_neg (hne _ (by decide)),
    if_neg (hne _ (by decide)), if_neg (hne _ (by decide)), if_neg (hne _ (by decide)),
    if_neg (fun h => hb h.1), hf, if_pos ⟨hr, hn⟩]

theorem decodeAligned_winHn (log2n : Nat) (we : Bool) (a : Addr) (d : Word) (n : BitVec 16)
    (ha : a.toNat = 0x300000 + 4 * n.toNat) (hn : n.toNat < 2 ^ log2n) :
    decodeAligned log2n we a d = if we then .wrWinHn n d else .rdWinHn n := by
  have hlt := n.isLt
  have hf : a.extractLsb' 2 16 = n := by
    apply BitVec.eq_of_toNat_eq; rw [toNat_field]; omega
  have hr : a.extractLsb' 18 4 = 0b1100#4 := by
    apply BitVec.eq_of_toNat_eq; rw [toNat_field, ha]; simp; omega
  have hb : a.extractLsb' 19 3 ≠ 0b010#3 := by
    intro h; have := congrArg BitVec.toNat h; rw [toNat_field, ha] at this; simp at this; omega
  have hw : a.extractLsb' 18 4 ≠ 0b1000#4 := by rw [hr]; decide
  have hne : ∀ k : Addr, k.toNat < 0x100000 → a ≠ k := by rintro k hk rfl; omega
  unfold decodeAligned
  rw [if_neg (hne _ (by decide)), if_neg (hne _ (by decide)), if_neg (hne _ (by decide)),
    if_neg (hne _ (by decide)), if_neg (hne _ (by decide)), if_neg (hne _ (by decide)),
    if_neg (hne _ (by decide)), if_neg (hne _ (by decide)), if_neg (hne _ (by decide)),
    if_neg (fun h => hb h.1), if_neg (fun h => hw h.1), hf, if_pos ⟨hr, hn⟩]

/-- An aligned address in no region is decoded to row 14 of R112. -/
theorem decodeAligned_unmapped (log2n : Nat) (we : Bool) (a : Addr) (d : Word) (h4 : a.toNat % 4 = 0)
    (h : mappedAddress log2n a.toNat = false) : decodeAligned log2n we a d = .unmapped we a d := by
  simp only [mappedAddress, registerOffset, Bool.or_eq_false_iff, decide_eq_false_iff_not,
    Bool.and_eq_false_iff] at h
  obtain ⟨⟨⟨⟨⟨⟨⟨⟨⟨⟨⟨h0, h1⟩, h2⟩, h3⟩, h5⟩, h6⟩, h7⟩, h8⟩, h9⟩, hb⟩, hf⟩, hh⟩ := h
  have hne : ∀ n : Nat, n < 2 ^ 22 → ¬ a.toNat = n → a ≠ BitVec.ofNat 22 n := by
    rintro n hn hk rfl
    exact hk (by rw [BitVec.toNat_ofNat, Nat.mod_eq_of_lt hn])
  have ha := a.isLt
  have hbuf : ¬ (a.extractLsb' 19 3 = 0b010#3 ∧ (a.extractLsb' 2 17).toNat < 2 * 2 ^ log2n) := by
    rintro ⟨hr, hlt⟩
    have := congrArg BitVec.toNat hr; rw [toNat_field] at this hlt; simp at this
    omega
  have hft : ¬ (a.extractLsb' 18 4 = 0b1000#4 ∧ (a.extractLsb' 2 16).toNat < 2 ^ log2n) := by
    rintro ⟨hr, hlt⟩
    have := congrArg BitVec.toNat hr; rw [toNat_field] at this hlt; simp at this
    omega
  have hhn : ¬ (a.extractLsb' 18 4 = 0b1100#4 ∧ (a.extractLsb' 2 16).toNat < 2 ^ log2n) := by
    rintro ⟨hr, hlt⟩
    have := congrArg BitVec.toNat hr; rw [toNat_field] at this hlt; simp at this
    omega
  unfold decodeAligned
  rw [if_neg (hne _ (by decide) h0), if_neg (hne _ (by decide) h1), if_neg (hne _ (by decide) h2),
    if_neg (hne _ (by decide) h3), if_neg (hne _ (by decide) h5), if_neg (hne _ (by decide) h6),
    if_neg (hne _ (by decide) h7), if_neg (hne _ (by decide) h8), if_neg (hne _ (by decide) h9),
    if_neg hbuf, if_neg hft, if_neg hhn]

end Sys2Proof
end

