-- ==== Sys2Proof/Laws/Flags.lean ====
section
/-! SUPPORT. The bits of the words that STATUS, IRQ_EN and CFG read as. -/

namespace Sys2Proof.Machine

/-- A flag stands in its bit alone. -/
theorem flagAt_getLsbD (flag : Bool) (bit i : Nat) (h : bit < 32) :
    (flagAt flag bit).getLsbD i = (flag && decide (i = bit)) := by
  cases flag
  · simp [flagAt]
  · simp only [flagAt, Bool.toNat_true, BitVec.getLsbD_ofNat, Nat.testBit_shiftLeft, Bool.true_and]
    by_cases hi : i = bit
    · subst hi; simp [h]
    · by_cases hle : bit ≤ i
      · have hne : i - bit ≠ 0 := by omega
        have hbit : Nat.testBit 1 (i - bit) = false := by
          rw [← Bool.not_eq_true, Nat.testBit_one_eq_true_iff_self_eq_zero]; exact hne
        simp [hi, hbit]
      · simp [hi, hle]

theorem statusWord_getLsbD (s : State) (i : Nat) :
    (statusWord s).getLsbD i =
      ((s.busy && decide (i = 0)) || (s.done && decide (i = 1)) || (s.errCmd && decide (i = 2))
        || (s.errBusy && decide (i = 3)) || (s.errAddr && decide (i = 4)) || (s.oor && decide (i = 8))
        || (s.und && decide (i = 9)) || (s.nf && decide (i = 10))) := by
  simp only [statusWord, BitVec.getLsbD_or]
  rw [flagAt_getLsbD _ _ _ (by decide), flagAt_getLsbD _ _ _ (by decide), flagAt_getLsbD _ _ _ (by decide),
    flagAt_getLsbD _ _ _ (by decide), flagAt_getLsbD _ _ _ (by decide), flagAt_getLsbD _ _ _ (by decide),
    flagAt_getLsbD _ _ _ (by decide), flagAt_getLsbD _ _ _ (by decide)]

theorem irqEnWord_getLsbD (s : State) (i : Nat) :
    (irqEnWord s).getLsbD i = ((s.doneIe && decide (i = 0)) || (s.errIe && decide (i = 1))) := by
  simp only [irqEnWord, BitVec.getLsbD_or]
  rw [flagAt_getLsbD _ _ _ (by decide), flagAt_getLsbD _ _ _ (by decide)]

theorem halfUlp_eq : halfUlp = 1 / 2 := by
  rw [← Rat.num_div_den halfUlp]
  norm_num [halfUlp]

/-- A rational number is at least 1/2 when twice its numerator is at least its denominator. -/
theorem half_le_iff (q : ℚ) : (q.den : Int) ≤ 2 * q.num ↔ 1 / 2 ≤ q := by
  have hd : (0 : ℚ) < q.den := by exact_mod_cast q.pos
  conv_rhs => rw [← Rat.num_div_den q]
  rw [div_le_div_iff₀ two_pos hd, one_mul, mul_comm]
  exact ⟨fun h => by exact_mod_cast h, fun h => by exact_mod_cast h⟩

/-- What a valid build says of its parameters. -/
theorem Config.valid_iff (c : Config) :
    c.valid = true ↔
      1 ≤ c.log2n ∧ c.log2n ≤ 16 ∧ 0 < c.eps.toNat ∧ c.eps.toNat < 0x7FF0000000000000 ∧
        1 / 2 ≤ c.atan2Ulps := by
  simp only [Config.valid, Bool.and_eq_true, decide_eq_true_eq, and_assoc, half_le_iff]

end Sys2Proof.Machine
end

