-- ==== Sys2Proof/Laws/PerInstr.lean ====
section
/-! SUPPORT. The per-instruction family `TableRow`: the encoding of every instruction carries the fixed
bits of its row of spec/opcode_table.json. -/

namespace Sys2Proof.Laws.TableRow

/-- The bits of an input, as the opcode table numbers them. -/
def tableBits : Encoded → BitVec 32
  | .hostbus t _ => t.setWidth 32
  | .cmd w => w

/-- The mask and the match of each row, copied from spec/opcode_table.json. -/
def row : Instr → BitVec 32 × BitVec 32
  | .misaligned01 _ _ _ => (0x000003#32, 0x000001#32)
  | .misaligned10 _ _ _ => (0x000003#32, 0x000002#32)
  | .misaligned11 _ _ _ => (0x000003#32, 0x000003#32)
  | .rdCtrl => (0x7FFFFF#32, 0x000000#32)
  | .wrCtrl _ => (0x7FFFFF#32, 0x400000#32)
  | .rdStatus => (0x7FFFFF#32, 0x000004#32)
  | .wrStatus _ => (0x7FFFFF#32, 0x400004#32)
  | .rdIrqEn => (0x7FFFFF#32, 0x000008#32)
  | .wrIrqEn _ => (0x7FFFFF#32, 0x400008#32)
  | .rdCfg => (0x7FFFFF#32, 0x00000C#32)
  | .wrCfg _ => (0x7FFFFF#32, 0x40000C#32)
  | .rdBinK => (0x7FFFFF#32, 0x000010#32)
  | .wrBinK _ => (0x7FFFFF#32, 0x400010#32)
  | .rdCalLo => (0x7FFFFF#32, 0x000018#32)
  | .wrCalLo _ => (0x7FFFFF#32, 0x400018#32)
  | .rdCalHi => (0x7FFFFF#32, 0x00001C#32)
  | .wrCalHi _ => (0x7FFFFF#32, 0x40001C#32)
  | .rdPhaseLo => (0x7FFFFF#32, 0x000020#32)
  | .wrPhaseLo _ => (0x7FFFFF#32, 0x400020#32)
  | .rdPhaseHi => (0x7FFFFF#32, 0x000024#32)
  | .wrPhaseHi _ => (0x7FFFFF#32, 0x400024#32)
  | .rdBuf _ => (0x780003#32, 0x100000#32)
  | .wrBuf _ _ => (0x780003#32, 0x500000#32)
  | .rdWinFt _ => (0x7C0003#32, 0x200000#32)
  | .wrWinFt _ _ => (0x7C0003#32, 0x600000#32)
  | .rdWinHn _ => (0x7C0003#32, 0x300000#32)
  | .wrWinHn _ _ => (0x7C0003#32, 0x700000#32)
  | .unmapped _ _ _ => (0x000000#32, 0x000000#32)
  | .nop => (0xFFFFFFFF#32, 0x00000000#32)
  | .transform => (0xFFFFFFFF#32, 0x00000001#32)
  | .phase => (0xFFFFFFFF#32, 0x00000002#32)
  | .reservedCmd _ => (0x00000000#32, 0x00000000#32)

/-- The encoding has the fixed bits of the instruction's row. -/
def Statement (i : Instr) : Prop := tableBits (encode i) &&& (row i).1 = (row i).2

/-- Two words of 32 bits are equal when their bits are. -/
theorem of_bits {v w : BitVec 32} (h : ∀ i : Fin 32, v.getLsbD i = w.getLsbD i) : v = w :=
  BitVec.eq_of_getLsbD_eq fun i hi => h ⟨i, hi⟩

theorem bit_wordAddr (a : BitVec 20) (v : BitVec 2) (i : Nat) :
    BitVec.getLsbD (w := 22) (a ++ v) i = if i < 2 then v.getLsbD i else a.getLsbD (i - 2) := by
  rw [BitVec.getLsbD_append]

theorem bit_bufAddr (e : BitVec 17) (i : Nat) :
    (bufAddr e).getLsbD i =
      if i < 2 then (0b00#2).getLsbD i
      else if i - 2 < 17 then e.getLsbD (i - 2) else (0b010#3).getLsbD (i - 2 - 17) := by
  unfold bufAddr
  rw [BitVec.getLsbD_append, BitVec.getLsbD_append]

theorem bit_winFtAddr (n : BitVec 16) (i : Nat) :
    (winFtAddr n).getLsbD i =
      if i < 2 then (0b00#2).getLsbD i
      else if i - 2 < 16 then n.getLsbD (i - 2) else (0b1000#4).getLsbD (i - 2 - 16) := by
  unfold winFtAddr
  rw [BitVec.getLsbD_append, BitVec.getLsbD_append]

theorem bit_winHnAddr (n : BitVec 16) (i : Nat) :
    (winHnAddr n).getLsbD i =
      if i < 2 then (0b00#2).getLsbD i
      else if i - 2 < 16 then n.getLsbD (i - 2) else (0b1100#4).getLsbD (i - 2 - 16) := by
  unfold winHnAddr
  rw [BitVec.getLsbD_append, BitVec.getLsbD_append]

theorem misaligned01 (we : Bool) (a : BitVec 20) (d : Word) : Statement (.misaligned01 we a d) := by
  apply of_bits
  intro i
  simp only [tableBits, encode, row, selector, BitVec.getLsbD_and, BitVec.getLsbD_setWidth,
    BitVec.getLsbD_cons, bit_wordAddr]
  fin_cases i <;> simp

theorem misaligned10 (we : Bool) (a : BitVec 20) (d : Word) : Statement (.misaligned10 we a d) := by
  apply of_bits
  intro i
  simp only [tableBits, encode, row, selector, BitVec.getLsbD_and, BitVec.getLsbD_setWidth,
    BitVec.getLsbD_cons, bit_wordAddr]
  fin_cases i <;> simp

theorem misaligned11 (we : Bool) (a : BitVec 20) (d : Word) : Statement (.misaligned11 we a d) := by
  apply of_bits
  intro i
  simp only [tableBits, encode, row, selector, BitVec.getLsbD_and, BitVec.getLsbD_setWidth,
    BitVec.getLsbD_cons, bit_wordAddr]
  fin_cases i <;> simp

theorem rdCtrl : Statement .rdCtrl := by unfold Statement; decide

theorem wrCtrl (d : Word) : Statement (.wrCtrl d) :=
  (by decide : (selector true 0x000000#22).setWidth 32 &&& 0x7FFFFF#32 = 0x400000#32)

theorem rdStatus : Statement .rdStatus := by unfold Statement; decide

theorem wrStatus (d : Word) : Statement (.wrStatus d) :=
  (by decide : (selector true 0x000004#22).setWidth 32 &&& 0x7FFFFF#32 = 0x400004#32)

theorem rdIrqEn : Statement .rdIrqEn := by unfold Statement; decide

theorem wrIrqEn (d : Word) : Statement (.wrIrqEn d) :=
  (by decide : (selector true 0x000008#22).setWidth 32 &&& 0x7FFFFF#32 = 0x400008#32)

theorem rdCfg : Statement .rdCfg := by unfold Statement; decide

theorem wrCfg (d : Word) : Statement (.wrCfg d) :=
  (by decide : (selector true 0x00000C#22).setWidth 32 &&& 0x7FFFFF#32 = 0x40000C#32)

theorem rdBinK : Statement .rdBinK := by unfold Statement; decide

theorem wrBinK (d : Word) : Statement (.wrBinK d) :=
  (by decide : (selector true 0x000010#22).setWidth 32 &&& 0x7FFFFF#32 = 0x400010#32)

theorem rdCalLo : Statement .rdCalLo := by unfold Statement; decide

theorem wrCalLo (d : Word) : Statement (.wrCalLo d) :=
  (by decide : (selector true 0x000018#22).setWidth 32 &&& 0x7FFFFF#32 = 0x400018#32)

theorem rdCalHi : Statement .rdCalHi := by unfold Statement; decide

theorem wrCalHi (d : Word) : Statement (.wrCalHi d) :=
  (by decide : (selector true 0x00001C#22).setWidth 32 &&& 0x7FFFFF#32 = 0x40001C#32)

theorem rdPhaseLo : Statement .rdPhaseLo := by unfold Statement; decide

theorem wrPhaseLo (d : Word) : Statement (.wrPhaseLo d) :=
  (by decide : (selector true 0x000020#22).setWidth 32 &&& 0x7FFFFF#32 = 0x400020#32)

theorem rdPhaseHi : Statement .rdPhaseHi := by unfold Statement; decide

theorem wrPhaseHi (d : Word) : Statement (.wrPhaseHi d) :=
  (by decide : (selector true 0x000024#22).setWidth 32 &&& 0x7FFFFF#32 = 0x400024#32)

theorem rdBuf (e : BitVec 17) : Statement (.rdBuf e) := by
  apply of_bits
  intro i
  simp only [tableBits, encode, encodeRead, row, selector, BitVec.getLsbD_and, BitVec.getLsbD_setWidth,
    BitVec.getLsbD_cons, bit_bufAddr]
  fin_cases i <;> simp

theorem wrBuf (e : BitVec 17) (d : Word) : Statement (.wrBuf e d) := by
  apply of_bits
  intro i
  simp only [tableBits, encode, encodeWrite, row, selector, BitVec.getLsbD_and, BitVec.getLsbD_setWidth,
    BitVec.getLsbD_cons, bit_bufAddr]
  fin_cases i <;> simp

theorem rdWinFt (n : BitVec 16) : Statement (.rdWinFt n) := by
  apply of_bits
  intro i
  simp only [tableBits, encode, encodeRead, row, selector, BitVec.getLsbD_and, BitVec.getLsbD_setWidth,
    BitVec.getLsbD_cons, bit_winFtAddr]
  fin_cases i <;> simp

theorem wrWinFt (n : BitVec 16) (d : Word) : Statement (.wrWinFt n d) := by
  apply of_bits
  intro i
  simp only [tableBits, encode, encodeWrite, row, selector, BitVec.getLsbD_and, BitVec.getLsbD_setWidth,
    BitVec.getLsbD_cons, bit_winFtAddr]
  fin_cases i <;> simp

theorem rdWinHn (n : BitVec 16) : Statement (.rdWinHn n) := by
  apply of_bits
  intro i
  simp only [tableBits, encode, encodeRead, row, selector, BitVec.getLsbD_and, BitVec.getLsbD_setWidth,
    BitVec.getLsbD_cons, bit_winHnAddr]
  fin_cases i <;> simp

theorem wrWinHn (n : BitVec 16) (d : Word) : Statement (.wrWinHn n d) := by
  apply of_bits
  intro i
  simp only [tableBits, encode, encodeWrite, row, selector, BitVec.getLsbD_and, BitVec.getLsbD_setWidth,
    BitVec.getLsbD_cons, bit_winHnAddr]
  fin_cases i <;> simp

theorem unmapped (we : Bool) (a : Addr) (d : Word) : Statement (.unmapped we a d) := BitVec.and_zero

theorem nop : Statement .nop := by unfold Statement; decide

theorem transform : Statement .transform := by unfold Statement; decide

theorem phase : Statement .phase := by unfold Statement; decide

theorem reservedCmd (w : Word) : Statement (.reservedCmd w) := BitVec.and_zero

end Sys2Proof.Laws.TableRow
end

