-- ==== Sys2Proof/Laws/Safety.lean ====
section
/-! SUPPORT. That writes keep the buffer inside its region and its elements whole, and which element
indices the decoder gives. -/

namespace Sys2Proof.Machine

theorem writeElement_inRegion {log2n : Nat} {m : Memory} (h : m.inRegion log2n) {e : Nat}
    (he : e < 2 * 2 ^ log2n) (w : Word) : (writeElement m e w).inRegion log2n := by
  intro c hc
  rcases mem_writeElement hc with ⟨h1, h2⟩ | hm
  · simp only [elementAddr] at h1 h2; omega
  · exact h c hm

/-- Every byte of an element that is written stays written. -/
theorem readByte_isSome_writeElement {m : Memory} {a : Nat} (h : (readByte m a).isSome) (e : Nat) (w : Word) :
    (readByte (writeElement m e w) a).isSome := by
  rw [readByte_writeElement]; split <;> simp [h]

theorem writeElement_whole {m : Memory} (h : m.wholeElements) (e : Nat) (w : Word) :
    (writeElement m e w).wholeElements := by
  intro c hc lane hl
  rcases mem_writeElement hc with ⟨h1, h2⟩ | hm
  · rw [readByte_writeElement, if_pos]
    · rfl
    · simp only [elementAddr] at *; omega
  · exact readByte_isSome_writeElement (h c hm lane hl) e w

theorem writePairs_inRegion {log2n : Nat} {m : Memory} (h : m.inRegion log2n) (i : Nat) (x : List Pair)
    (hx : i + x.length ≤ 2 ^ log2n) : (writePairs m i x).inRegion log2n := by
  induction x generalizing m i with
  | nil => exact h
  | cons p rest ih =>
    simp only [List.length_cons] at hx
    exact ih (writeElement_inRegion (writeElement_inRegion h (by omega) _) (by omega) _) (i + 1) (by omega)

theorem writePairs_whole {m : Memory} (h : m.wholeElements) (i : Nat) (x : List Pair) :
    (writePairs m i x).wholeElements := by
  induction x generalizing m i with
  | nil => exact h
  | cons p rest ih => exact ih (writeElement_whole (writeElement_whole h _ _) _ _) _

theorem readElement_isSome_writeElement {m : Memory} {f : Nat} (h : (readElement m f).isSome) (e : Nat)
    (w : Word) : (readElement (writeElement m e w) f).isSome := by
  rw [readElement_writeElement]; split <;> simp [h]

theorem readElement_isSome_writePairs {m : Memory} {f : Nat} (h : (readElement m f).isSome) (i : Nat)
    (x : List Pair) : (readElement (writePairs m i x) f).isSome := by
  induction x generalizing m i with
  | nil => exact h
  | cons p rest ih =>
    exact ih (readElement_isSome_writeElement (readElement_isSome_writeElement h _ _) _ _) _

/-- The buffer index of an instruction, where it has one, is below 2N. -/
def bufIndexOk (log2n : Nat) : Instr → Prop
  | .rdBuf e => e.toNat < 2 * 2 ^ log2n
  | .wrBuf e _ => e.toNat < 2 * 2 ^ log2n
  | _ => True

theorem bufIndexOk_ite {log2n : Nat} {c : Prop} [Decidable c] {i j : Instr}
    (hi : c → bufIndexOk log2n i) (hj : ¬c → bufIndexOk log2n j) : bufIndexOk log2n (if c then i else j) := by
  by_cases h : c
  · rw [if_pos h]; exact hi h
  · rw [if_neg h]; exact hj h

theorem decodeAligned_bufIndexOk (log2n : Nat) (we : Bool) (a : Addr) (d : Word) :
    bufIndexOk log2n (decodeAligned log2n we a d) := by
  unfold decodeAligned
  iterate 9 refine bufIndexOk_ite (fun _ => bufIndexOk_ite (fun _ => trivial) fun _ => trivial) fun _ => ?_
  refine bufIndexOk_ite (fun h => bufIndexOk_ite (fun _ => h.2) fun _ => h.2) fun _ => ?_
  iterate 2 refine bufIndexOk_ite (fun _ => bufIndexOk_ite (fun _ => trivial) fun _ => trivial) fun _ => ?_
  trivial

/-- The decoder gives a buffer index below 2N only (row 11 of R112). -/
theorem decode_bufIndexOk (log2n : Nat) (x : Encoded) : bufIndexOk log2n (decode log2n x) := by
  cases x with
  | cmd w =>
    show bufIndexOk log2n (decodeCmd w)
    unfold decodeCmd
    iterate 3 refine bufIndexOk_ite (fun _ => trivial) fun _ => ?_
    trivial
  | hostbus t v =>
    show bufIndexOk log2n (decodeHostbus log2n t v)
    unfold decodeHostbus
    iterate 3 refine bufIndexOk_ite (fun _ => trivial) fun _ => ?_
    exact decodeAligned_bufIndexOk _ _ _ _

end Sys2Proof.Machine
end

