-- ==== Sys2Proof/Laws/Transform.lean ====
section
/-! SUPPORT. Lengths and single pairs through the transform's operations. -/

namespace Sys2Proof.Machine

/-- A fold keeps what each of its steps keeps. -/
theorem foldl_keeps {α β : Type} (P : α → Prop) (f : α → β → α) (l : List β) (a : α)
    (h0 : P a) (h : ∀ a b, P a → P (f a b)) : P (l.foldl f a) := by
  induction l generalizing a with
  | nil => exact h0
  | cons b rest ih => exact ih _ (h a b h0)

theorem pairAt_set (x : List Pair) (i j : Nat) (p : Pair) (hi : i < x.length) :
    pairAt (x.set i p) j = if j = i then p else pairAt x j := by
  unfold pairAt
  by_cases h : j = i
  · subst h; simp [List.getD_eq_getElem?_getD, hi]
  · simp [List.getD_eq_getElem?_getD, h, Ne.symm h]

@[simp] theorem swapPairs_length (x : List Pair) (i r : Nat) : (swapPairs x i r).length = x.length := by
  simp [swapPairs]

theorem pairAt_swapPairs (x : List Pair) (i r j : Nat) (hi : i < x.length) (hr : r < x.length) :
    pairAt (swapPairs x i r) j = if j = r then pairAt x i else if j = i then pairAt x r else pairAt x j := by
  unfold swapPairs
  rw [pairAt_set _ _ _ _ (by simpa using hr), pairAt_set _ _ _ _ hi]

@[simp] theorem butterfly_length (x : List Pair) (a c : Nat) (w : Twiddle) :
    (butterfly x a c w).length = x.length := by
  simp [butterfly]

theorem passBlocks_length (log2n p t : Nat) (w : Twiddle) (x : List Pair) :
    (passBlocks log2n p t w x).length = x.length :=
  foldl_keeps (fun y : List Pair => y.length = x.length) _ _ _ rfl fun y b h => by simp [h]

theorem pass_length (log2n p : Nat) (x : List Pair) : (pass log2n p x).length = x.length :=
  foldl_keeps (fun acc : List Pair × Twiddle => acc.1.length = x.length) _ _ _ rfl
    fun acc t h => by simp [passBlocks_length, h]

theorem bitReversePairs_length (log2n : Nat) (x : List Pair) :
    (bitReversePairs log2n x).length = x.length :=
  foldl_keeps (fun y : List Pair => y.length = x.length) _ _ _ rfl fun y i h => by
    show (if i < bitReverse log2n i then swapPairs y i (bitReverse log2n i) else y).length = _
    split <;> simp [h]

/-- The transform of N pairs has N pairs. -/
theorem transformPairs_length (log2n : Nat) (x : List Pair) :
    (transformPairs log2n x).length = x.length :=
  foldl_keeps (fun y : List Pair => y.length = x.length) _ _ _ (bitReversePairs_length log2n x)
    fun y p h => by simp [pass_length, h]

theorem bitReverse_lt (bits i : Nat) : bitReverse bits i < 2 ^ bits := by
  induction bits generalizing i with
  | zero => simp [bitReverse]
  | succ bits ih =>
    have := ih (i / 2)
    have h2 : i % 2 < 2 := Nat.mod_lt _ (by norm_num)
    simp only [bitReverse, pow_succ]
    have : i % 2 = 0 ∨ i % 2 = 1 := by omega
    rcases this with h | h <;> rw [h] <;> omega

end Sys2Proof.Machine
end

