-- ==== Sys2Proof/Tests/Slice0.lean ====
section
/-! SUPPORT. Tests of the model. Every expected value is copied from spec/ (the place is named), none is
taken from the model. -/

namespace Sys2Proof.Tests

open Sys2Proof.Machine

/-- A build of size 2^log2n, otherwise the default. -/
def buildOf (log2n : Nat) : Config := { Config.default with log2n := log2n }

/-- A memory with the given elements from BUF[e] on. -/
def wordsAt (e : Nat) : List Word → Memory
  | [] => []
  | w :: rest => writeElement (wordsAt (e + 1) rest) e w

/-- An idle machine of size 2^log2n just after reset, its buffer filled with the given elements. -/
def idleWith (log2n : Nat) (elements : List Word) : State :=
  { State.resetOf (buildOf log2n) [] with buf := wordsAt 0 elements }

/-- The same machine while a command runs. -/
def busyWith (log2n : Nat) (op : Op) (elements : List Word) : State :=
  { idleWith log2n elements with busy := true, curOp := op }

/-- What a test reads of an outcome. -/
def result {α : Type} (view : State → α) (o : Out) : Option α :=
  match o with
  | .next s => some (view s)
  | _ => none

/-- RESP, RDATA and STATUS after a step. -/
def bus (s : State) : Resp × Word × Word := (s.resp, s.rdata, statusWord s)

/-- The elements of the buffer. -/
def elements (s : State) : List (Option Word) :=
  (List.range (2 * s.cfg.size)).map (readElement s.buf)

/-- One transaction, given by its selector and WDATA. -/
def transact (t : Selector) (d : Word) (s : State) : Out := eventStep (.host (.hostbus t d)) s

/-! ### Decoding: words written out from R111, R112, R114 and the tables of 95_test_vectors.md -/

-- WE = 0, ADDR[21:0] = 00 0000 0000 0000 0000 0001
theorem test_decode_misaligned01 :
    decode 2 (.hostbus 0b0_00_0000_0000_0000_0000_0001#23 0#32) = .misaligned01 false 0#20 0#32 := by decide

-- 95_test_vectors.md P3 line 16: T = 0x500002
theorem test_decode_misaligned10 :
    decode 2 (.hostbus 0x500002#23 0x3F800000#32) = .misaligned10 true 0x40000#20 0x3F800000#32 := by decide

theorem test_decode_misaligned11 :
    decode 2 (.hostbus 0b1_00_0000_0000_0000_0000_0011#23 0#32) = .misaligned11 true 0#20 0#32 := by decide

theorem test_decode_registers_read :
    [0x000000#23, 0x000004#23, 0x000008#23, 0x00000C#23, 0x000010#23, 0x000018#23, 0x00001C#23,
        0x000020#23, 0x000024#23].map (fun t => decode 11 (.hostbus t 0#32))
      = [.rdCtrl, .rdStatus, .rdIrqEn, .rdCfg, .rdBinK, .rdCalLo, .rdCalHi, .rdPhaseLo, .rdPhaseHi] := by
  decide

theorem test_decode_registers_write :
    [0x400000#23, 0x400004#23, 0x400008#23, 0x40000C#23, 0x400010#23, 0x400018#23, 0x40001C#23,
        0x400020#23, 0x400024#23].map (fun t => decode 11 (.hostbus t 7#32))
      = [.wrCtrl 7#32, .wrStatus 7#32, .wrIrqEn 7#32, .wrCfg 7#32, .wrBinK 7#32, .wrCalLo 7#32,
          .wrCalHi 7#32, .wrPhaseLo 7#32, .wrPhaseHi 7#32] := by
  decide

-- ADDR[21:19] = 010, ADDR[18:2] = e, ADDR[1:0] = 00
theorem test_decode_buffer :
    decode 2 (.hostbus 0b0_010_00000000000000111_00#23 0#32) = .rdBuf 7#17
      ∧ decode 2 (.hostbus 0b1_010_00000000000000111_00#23 5#32) = .wrBuf 7#17 5#32 := by decide

-- ADDR[21:18] = 1000 or 1100, ADDR[17:2] = n, ADDR[1:0] = 00
theorem test_decode_windows :
    decode 3 (.hostbus 0b0_1000_0000000000000011_00#23 0#32) = .rdWinFt 3#16
      ∧ decode 3 (.hostbus 0b0_1100_0000000000000111_00#23 0#32) = .rdWinHn 7#16
      ∧ decode 3 (.hostbus 0b1_1000_0000000000000011_00#23 1#32) = .wrWinFt 3#16 1#32
      ∧ decode 3 (.hostbus 0b1_1100_0000000000000010_00#23 1#32) = .wrWinHn 2#16 1#32 := by decide

-- 95_test_vectors.md H9, H10, H11, H18 and section 2.1 (rd WINFT(8) for N = 8)
theorem test_decode_unmapped :
    decode 2 (.hostbus 0x000014#23 0#32) = .unmapped false 0x000014#22 0#32
      ∧ decode 2 (.hostbus 0x000028#23 0#32) = .unmapped false 0x000028#22 0#32
      ∧ decode 2 (.hostbus 0x100020#23 0#32) = .unmapped false 0x100020#22 0#32
      ∧ decode 2 (.hostbus 0x180000#23 0#32) = .unmapped false 0x180000#22 0#32
      ∧ decode 3 (.hostbus 0x200020#23 0#32) = .unmapped false 0x200020#22 0#32 := by decide

-- R114, R115; 0x00000011 and 0x80000002 are R284's corner cases
theorem test_decode_commands :
    [0x00000000#32, 0x00000001#32, 0x00000002#32, 0x00000003#32, 0x00000011#32, 0x80000002#32].map decodeCmd
      = [.nop, .transform, .phase, .reservedCmd 3#32, .reservedCmd 0x11#32, .reservedCmd 0x80000002#32] := by
  decide

theorem test_decode_table_words :
    decodeTableWord 24 0x400000 = some (.wrCtrl 0#32) ∧ decodeTableWord 32 1 = some .transform
      ∧ decodeTableWord 24 0x100000 = some (.rdBuf 0#17) ∧ decodeTableWord 24 0x800000 = none
      ∧ decodeTableWord 56 0x07_400010 = some (.wrBinK 7#32) := by decide

/-! ### Well-formedness: an ill-formed term for each check -/

theorem test_ill_formed_buffer_index :
    Instr.wellFormed 2 (.rdBuf 8#17) = false ∧ Instr.wellFormed 2 (.wrBuf 8#17 0#32) = false
      ∧ Instr.wellFormed 2 (.rdBuf 7#17) = true := by decide

theorem test_ill_formed_window_index :
    Instr.wellFormed 2 (.rdWinFt 4#16) = false ∧ Instr.wellFormed 2 (.wrWinFt 4#16 0#32) = false
      ∧ Instr.wellFormed 2 (.rdWinHn 4#16) = false ∧ Instr.wellFormed 2 (.wrWinHn 4#16 0#32) = false
      ∧ Instr.wellFormed 2 (.rdWinHn 3#16) = true := by decide

theorem test_ill_formed_unmapped :
    Instr.wellFormed 2 (.unmapped false 0x000015#22 0#32) = false
      ∧ Instr.wellFormed 2 (.unmapped false 0x000004#22 0#32) = false
      ∧ Instr.wellFormed 2 (.unmapped true 0x10001C#22 0#32) = false
      ∧ Instr.wellFormed 2 (.unmapped false 0x20000C#22 0#32) = false
      ∧ Instr.wellFormed 2 (.unmapped false 0x30000C#22 0#32) = false
      ∧ Instr.wellFormed 2 (.unmapped false 0x000014#22 0#32) = true := by decide

theorem test_ill_formed_reserved :
    Instr.wellFormed 2 (.reservedCmd 0#32) = false ∧ Instr.wellFormed 2 (.reservedCmd 2#32) = false
      ∧ Instr.wellFormed 2 (.reservedCmd 3#32) = true := by decide

/-! ### Host transactions (95_test_vectors.md section 2.6 and the examples of 44_host_access.md) -/

-- H1
theorem test_rd_ctrl : result bus (transact 0x000000#23 0#32 (idleWith 2 [])) = some (.okay, 0#32, 0#32) := by
  decide

-- R282 example: acceptance gives STATUS = 1, a second command while busy sets bit 3
theorem test_wr_ctrl :
    result bus (transact 0x400000#23 1#32 (idleWith 2 [])) = some (.okay, 0#32, 0x00000001#32)
      ∧ result bus (transact 0x400000#23 2#32 (busyWith 2 .transform [])) = some (.okay, 0#32, 0x00000009#32) := by
  decide

-- H15, H16, H17
theorem test_wr_ctrl_reserved :
    result bus (transact 0x400000#23 3#32 (busyWith 2 .transform [])) = some (.okay, 0#32, 0x00000009#32)
      ∧ result bus (transact 0x400000#23 0x11#32 (idleWith 2 [])) = some (.okay, 0#32, 0x00000004#32)
      ∧ result bus (transact 0x400000#23 0x80000002#32 (idleWith 2 [])) = some (.okay, 0#32, 0x00000004#32) := by
  decide

-- R285 example: STATUS reads 0x00000102 with OOR and DONE
theorem test_rd_status :
    result (fun s => s.rdata) (transact 0x000004#23 0#32 { idleWith 2 [] with oor := true, done := true })
      = some 0x00000102#32 := by decide

-- R286 example (STATUS = 0x1E, write 0x14 leaves 0x0A); H2: OOR survives; H3: BUSY stays
theorem test_wr_status :
    result statusWord (transact 0x400004#23 0x14#32
        { idleWith 2 [] with done := true, errCmd := true, errBusy := true, errAddr := true }) = some 0x0A#32
      ∧ result statusWord (transact 0x400004#23 0xFFFFFFFF#32
        { idleWith 2 [] with done := true, errBusy := true, oor := true }) = some 0x100#32
      ∧ result statusWord (transact 0x400004#23 1#32 (busyWith 2 .phase [])) = some 1#32 := by decide

-- R287 example
theorem test_rd_irq_en :
    result (fun s => s.rdata) (transact 0x000008#23 0#32 { idleWith 2 [] with doneIe := true, errIe := true })
      = some 3#32 := by decide

-- H4, H23
theorem test_wr_irq_en :
    result irqEnWord (transact 0x400008#23 0xFFFFFFFC#32 { idleWith 2 [] with doneIe := true }) = some 0#32
      ∧ result irq (transact 0x400008#23 1#32 { idleWith 2 [] with done := true }) = some true := by decide

-- H5 and R289 example
theorem test_rd_cfg :
    result (fun s => s.rdata) (transact 0x00000C#23 0#32 (idleWith 2 [])) = some 0x00000102#32
      ∧ result (fun s => s.rdata) (transact 0x00000C#23 0#32 State.reset) = some 0x0000010B#32 := by decide

-- H6
theorem test_wr_cfg :
    result bus (transact 0x40000C#23 0x10B#32 (idleWith 2 [])) = some (.error, 0#32, 0x10#32) := by decide

-- H7
theorem test_bin_k :
    result (fun s => s.binK) (transact 0x400010#23 0xFFFFFFFF#32 (idleWith 2 [])) = some 0xFFFFFFFF#32
      ∧ result (fun s => s.rdata) (transact 0x000010#23 0#32 { idleWith 2 [] with binK := 9#32 }) = some 9#32 := by
  decide

-- H8, R293, R295 examples
theorem test_wr_cal :
    result (fun s => s.cal) (transact 0x400018#23 0x72B020C5#32
        { idleWith 2 [] with cal := 0xC057916800000000#64 }) = some 0xC057916872B020C5#64
      ∧ result (fun s => s.cal) (transact 0x40001C#23 0xC0579168#32
        { idleWith 2 [] with cal := 0x0000000072B020C5#64 }) = some 0xC057916872B020C5#64 := by decide

theorem test_rd_cal :
    result (fun s => s.rdata) (transact 0x000018#23 0#32
        { idleWith 2 [] with cal := 0x40709BA5E353F7CF#64 }) = some 0xE353F7CF#32
      ∧ result (fun s => s.rdata) (transact 0x00001C#23 0#32
        { idleWith 2 [] with cal := 0x40709BA5E353F7CF#64 }) = some 0x40709BA5#32 := by decide

-- R297, R298 examples; H19
theorem test_phase_halves :
    result (fun s => s.rdata) (transact 0x000020#23 0#32
        { idleWith 2 [] with phase := 0x4070C1889B79E5FE#64 }) = some 0x9B79E5FE#32
      ∧ result (fun s => s.rdata) (transact 0x000024#23 0#32
        { idleWith 2 [] with phase := 0x4070C1889B79E5FE#64 }) = some 0x4070C188#32
      ∧ result bus (transact 0x400020#23 0#32 (idleWith 2 [])) = some (.error, 0#32, 0x10#32)
      ∧ result bus (transact 0x400024#23 0#32 (idleWith 2 [])) = some (.error, 0#32, 0x10#32) := by decide

-- H21, H13 and R301
theorem test_rd_buf :
    result bus (transact 0x100000#23 0#32 (idleWith 2 [])) = none
      ∧ result bus (transact 0x100004#23 0#32 (idleWith 2 [0#32, 0x7FA00001#32])) = some (.okay, 0x7FA00001#32, 0#32)
      ∧ result bus (transact 0x100000#23 0#32 (busyWith 2 .phase [5#32])) = some (.error, 0#32, 0x09#32) := by
  decide

-- R302 example; H13; the bytes in little-endian order (R86)
theorem test_wr_buf :
    result (fun s => s.buf) (transact 0x500004#23 0x3F800001#32 (idleWith 2 []))
        = some [(0x100004, 0x01#8), (0x100005, 0x00#8), (0x100006, 0x80#8), (0x100007, 0x3F#8)]
      ∧ result bus (transact 0x500000#23 0x3F800000#32 (busyWith 2 .transform [])) = some (.error, 0#32, 0x09#32) := by
  decide

-- H12, H14; P3 line 25
theorem test_address_errors :
    result bus (transact 0x500020#23 0#32 (busyWith 2 .phase [])) = some (.error, 0#32, 0x11#32)
      ∧ result bus (transact 0x400001#23 2#32 (busyWith 2 .phase [])) = some (.error, 0#32, 0x11#32)
      ∧ result bus (transact 0x000014#23 0#32 (idleWith 2 [])) = some (.error, 0#32, 0x10#32) := by decide

-- 95_test_vectors.md section 2.1: N = 8 operations
theorem test_rd_win :
    result bus (transact 0x20000C#23 0#32 (idleWith 3 [])) = some (.okay, 0x4067E3CF#32, 0#32)
      ∧ result bus (transact 0x30001C#23 0#32 (idleWith 3 [])) = some (.okay, 0x00000000#32, 0#32)
      ∧ result bus (transact 0x700008#23 0x3F800000#32 (idleWith 3 [])) = some (.error, 0#32, 0x10#32) := by
  decide +kernel

-- 95_test_vectors.md section 2.1: N = 8, 16 and 2048
theorem test_win_ft :
    (List.range 8).map (winFt 3) = [0x00000000#32, 0xBE2A0601#32, 0x3D2F244F#32, 0x4067E3CF#32, 0x4067E3CF#32,
        0x3D2F244F#32, 0xBE2A0601#32, 0x00000000#32]
      ∧ (List.range 8).map (winFt 4) = [0x00000000#32, 0xBCBAB158#32, 0xBE0F1B7F#32, 0xBEA28D38#32,
        0xBE1E185C#32, 0x3F6B020C#32, 0x403451A7#32, 0x408CC40F#32]
      ∧ winFt 11 1 = 0xB56B35F0#32 ∧ winFt 11 1024 = 0x40945A01#32 ∧ winFt 11 1601 = 0xBEAA8167#32 := by
  decide +kernel

theorem test_win_hn :
    (List.range 8).map (winHn 3) = [0x00000000#32, 0x3E40C5F2#32, 0x3F1C7B91#32, 0x3F7352F3#32, 0x3F7352F3#32,
        0x3F1C7B91#32, 0x3E40C5F2#32, 0x00000000#32]
      ∧ (List.range 8).map (winHn 4) = [0x00000000#32, 0x3D310F14#32, 0x3E2967B7#32, 0x3EB0E443#32,
        0x3F0D6130#32, 0x3F400000#32, 0x3F678DDE#32, 0x3F7D33F1#32]
      ∧ winHn 11 1 = 0x361E1160#32 ∧ winHn 11 1023 = 0x3F7FFFF6#32 := by
  decide +kernel

/-! ### Command words -/

-- R283 example: STATUS stays 0x00000002
theorem test_nop : result bus (exec .nop { idleWith 2 [] with done := true }) = some (.okay, 0#32, 2#32) := by decide

-- R284 example
theorem test_reserved_cmd : result bus (exec (.reservedCmd 3#32) (idleWith 2 [])) = some (.okay, 0#32, 4#32) := by
  decide

-- R200: acceptance
theorem test_transform_accepted :
    result (fun s => (s.busy, s.done, s.curOp)) (exec .transform { idleWith 2 [] with done := true })
      = some (true, false, .transform) := by decide

-- R240, R282: acceptance latches BIN_K and CAL
theorem test_phase_accepted :
    result (fun s => (s.busy, s.curOp, s.lk, s.lcal)) (exec .phase { idleWith 2 [] with binK := 1#32, cal := 7#64 })
      = some (true, .phase, 1#32, 7#64) := by decide

/-! ### TRANSFORM (95_test_vectors.md section 2.2) -/

theorem test_bit_reverse :
    (List.range 16).map (bitReverse 4) = [0, 8, 4, 12, 2, 10, 6, 14, 1, 9, 5, 13, 3, 11, 7, 15] := by decide

-- the twiddle table, passes 1, 2 and 3
theorem test_twiddles :
    twiddle 1 1 = (0x0000000000000000#64, 0xBFF0000000000000#64)
      ∧ twiddle 2 1 = (0x3FE6A09E667F3BCC#64, 0xBFE6A09E667F3BCD#64)
      ∧ twiddle 2 3 = (0xBFE6A09E667F3BCE#64, 0xBFE6A09E667F3BCB#64)
      ∧ twiddle 2 4 = (0xBFF0000000000000#64, 0x3CB0000000000000#64)
      ∧ twiddle 3 7 = (0xBFED906BCF328D47#64, 0xBFD87DE2A6AEA960#64) := by
  decide +kernel

-- the twiddle table, pass 10 and the drift of pass 3
theorem test_twiddle_drift :
    twiddle 10 1 = (0x3FEFFFF621621D02#64, 0xBF6921F8BECCA4BA#64)
      ∧ twiddle 3 4 = (0xBC90000000000000#64, 0xBFF0000000000000#64) := by
  decide +kernel

-- T5
theorem test_transform_T5 :
    result (fun s => (elements s, statusWord s)) (engineStep (busyWith 2 .transform
        [0x3F800000#32, 0#32, 0x40000000#32, 0#32, 0x40400000#32, 0#32, 0x40800000#32, 0#32]))
      = some ([some 0x41200000#32, some 0#32, some 0xC0000000#32, some 0x40000000#32, some 0xC0000000#32,
          some 0#32, some 0xC0000000#32, some 0xC0000000#32], 2#32) := by
  decide +kernel

-- T7: the residues of the twiddle recurrence
theorem test_transform_T7 :
    transformPairs 3 ([0x3F800000#32, 0x3F3504F3#32, 0#32, 0xBF3504F3#32, 0xBF800000#32, 0xBF3504F3#32, 0#32,
        0x3F3504F3#32].map (fun re => (re, 0#32)))
      = [(0#32, 0#32), (0x40800000#32, 0xA5000000#32), (0#32, 0#32), (0#32, 0x26200000#32), (0#32, 0#32),
          (0#32, 0x25000000#32), (0#32, 0#32), (0x40800000#32, 0xA6200000#32)] := by
  decide +kernel

-- T-C3, T-C5, T-C6, T-C7, T-C8
theorem test_transform_corners :
    transformPairs 1 [(0x80000000#32, 0x80000000#32), (0x80000000#32, 0x80000000#32)]
        = [(0#32, 0x80000000#32), (0x80000000#32, 0#32)]
      ∧ transformPairs 1 [(0#32, 0#32), (0x7F800000#32, 0#32)]
        = [(0x7F800000#32, 0x7FC00000#32), (0xFF800000#32, 0x7FC00000#32)]
      ∧ transformPairs 1 [(0x7FC00000#32, 0#32), (0x3F800000#32, 0#32)]
        = [(0x7FC00000#32, 0#32), (0x7FC00000#32, 0#32)]
      ∧ transformPairs 1 [(0x7F61B1E6#32, 0#32), (0x7F61B1E6#32, 0#32)]
        = [(0x7F800000#32, 0#32), (0#32, 0#32)]
      ∧ transformPairs 1 [(0x7FA00001#32, 0#32), (0#32, 0#32)]
        = [(0x7FC00000#32, 0#32), (0x7FC00000#32, 0#32)] := by
  decide +kernel

/-- INV of R219, which the spec defines for tests only: the transform with every WPI[p] negated. -/
def inversePairs (log2n : Nat) (x : List Pair) : List Pair :=
  (List.range log2n).foldl
    (fun x p =>
      let conjugate : Twiddle := ((seed p).1, (seed p).2 ^^^ 0x8000000000000000#64)
      ((List.range (2 ^ p)).foldl
        (fun acc t => (passBlocks log2n p t acc.2 acc.1, twiddleStep acc.2 conjugate)) (x, twiddleOne)).1)
    (bitReversePairs log2n x)

-- R219: INV(TRANSFORM(x)) = N · x, exact for the real parts 1, 2, 3, 4 of R208
theorem test_inverse :
    (inversePairs 2 (transformPairs 2
        [(0x3F800000#32, 0#32), (0x40000000#32, 0#32), (0x40400000#32, 0#32), (0x40800000#32, 0#32)])).map
        (fun pair => pair.1)
      = [0x40800000#32, 0x41000000#32, 0x41400000#32, 0x41800000#32] := by
  decide +kernel

-- 95_test_vectors.md P4: the transform of the windowed tone
theorem test_transform_P4 :
    transformPairs 3 ([0x00000000#32, 0x3E084FAE#32, 0x00000000#32, 0xBF2C0E5A#32, 0xBF7352F3#32, 0xBEDD4CC8#32,
        0x00000000#32, 0x00000000#32].map (fun re => (re, 0#32)))
      = [(0xBFF5F9E2#32, 0x00000000#32), (0x3FE9A97A#32, 0x3D9A9793#32), (0xBF7352F3#32, 0xBEBEF7C3#32),
          (0x3D9A9798#32, 0x3D9A9793#32), (0x3CA9BBE0#32, 0x00000000#32), (0x3D9A9798#32, 0xBD9A9793#32),
          (0xBF7352F3#32, 0x3EBEF7C3#32), (0x3FE9A97A#32, 0xBD9A9793#32)] := by
  decide +kernel

-- R216
theorem test_transform_unwritten :
    engineStep (busyWith 2 .transform [0#32, 0#32, 0#32, 0#32, 0#32, 0#32, 0#32]) = .fault .unwrittenTransform := by
  rfl

/-! ### PHASE (95_test_vectors.md section 2.3) -/

/-- A PHASE completion with N = 4, k = 1: PHASE and STATUS. -/
def phaseOf (re im : SBits) (cal : WBits) : Option (WBits × Word) :=
  result (fun s => (s.phase, statusWord s))
    (engineStep { busyWith 2 .phase [] with buf := wordsAt 2 [re, im], lk := 1#32, lcal := cal })

-- P-M1 to P-M5
theorem test_phase_axes :
    phaseOf 0x3F800000#32 0#32 0#64 = some (0#64, 2#32)
      ∧ phaseOf 0#32 0x3F800000#32 0#64 = some (0x4056800000000000#64, 2#32)
      ∧ phaseOf 0xBF800000#32 0#32 0#64 = some (0x4066800000000000#64, 2#32)
      ∧ phaseOf 0xBF800000#32 0x80000000#32 0#64 = some (0x4066800000000000#64, 2#32)
      ∧ phaseOf 0#32 0xBF800000#32 0#64 = some (0x4070E00000000000#64, 2#32) := by
  decide +kernel

-- P-M7, P-M8, P-M9, P-M10, P-M11
theorem test_phase_quadrants :
    phaseOf 0xBF800000#32 0x3F800000#32 0#64 = some (0x4060E00000000000#64, 2#32)
      ∧ phaseOf 0xBF800000#32 0xBF800000#32 0#64 = some (0x406C200000000000#64, 2#32)
      ∧ phaseOf 0x3F800000#32 0xBF800000#32 0#64 = some (0x4073B00000000000#64, 2#32)
      ∧ phaseOf 0x40400000#32 0x40800000#32 0#64 = some (0x404A90A731A61DC4#64, 2#32)
      ∧ phaseOf 0xC0400000#32 0x40800000#32 0#64 = some (0x405FB7AC672CF11E#64, 2#32) := by
  decide +kernel

-- P-C2, P-C3, P-C5, P-C7, P-C9, P-C11, P-C12, P-C14
theorem test_phase_offsets :
    phaseOf 0x3F800000#32 0#32 0xC057916872B020C5#64 = some (0x40709BA5E353F7CF#64, 2#32)
      ∧ phaseOf 0#32 0xC0000000#32 0x40709BA5E353F7CF#64 = some (0x4065F74BC6A7EF9E#64, 2#32)
      ∧ phaseOf 0x3F800000#32 0#32 0xC086840000000000#64 = some (0x4076780000000000#64, 2#32)
      ∧ phaseOf 0x3F800000#32 0#32 0xC076800000000000#64 = some (0#64, 2#32)
      ∧ phaseOf 0x3F800000#32 0x8DA24260#32 0#64 = some (0#64, 2#32)
      ∧ phaseOf 0xBF800000#32 0x8DA24260#32 0#64 = some (0x4066800000000000#64, 2#32)
      ∧ phaseOf 0x3F800000#32 0x80000000#32 0x8000000000000000#64 = some (0#64, 2#32)
      ∧ phaseOf 0#32 0x3F800000#32 0x4415AF1D78B58C40#64 = some (0x4071800000000000#64, 2#32) := by
  decide +kernel

-- P-U1, P-U2, P-U3, P-U5, P-U7, P-U8, P-N1, P-N2, P-N5
theorem test_phase_sentinels :
    phaseOf 0x3089705F#32 0x3089705F#32 0#64 = some (0#64, 0x202#32)
      ∧ phaseOf 0x322BCC77#32 0#32 0#64 = some (0#64, 0x202#32)
      ∧ phaseOf 0x322BCC78#32 0#32 0#64 = some (0#64, 2#32)
      ∧ phaseOf 0xB22BCC78#32 0#32 0#64 = some (0x4066800000000000#64, 2#32)
      ∧ phaseOf 0x80000000#32 0x80000000#32 0#64 = some (0#64, 0x202#32)
      ∧ phaseOf 0x3089705F#32 0x3089705F#32 0x7FF8000000000000#64 = some (0#64, 0x202#32)
      ∧ phaseOf 0x7F800000#32 0#32 0#64 = some (0#64, 0x402#32)
      ∧ phaseOf 0x7FC00000#32 0x3089705F#32 0#64 = some (0#64, 0x402#32)
      ∧ phaseOf 0x3F800000#32 0#32 0x7FF8000000000000#64 = some (0#64, 0x402#32) := by
  decide +kernel

-- P-O2 (no element is read), R243
theorem test_phase_range :
    result (fun s => (s.phase, statusWord s))
        (engineStep { busyWith 2 .phase [] with lk := 0xFFFFFFFF#32, lcal := 0x7FF8000000000000#64 })
        = some (0#64, 0x102#32)
      ∧ engineStep { busyWith 2 .phase [] with lk := 1#32 } = .fault .unwrittenPhase := by
  exact ⟨by decide +kernel, rfl⟩

-- 95_test_vectors.md section 1 (S6) and P4: measured bins
theorem test_phase_measured :
    measure Config.default 0#64 (0x447FE30A#32, 0xBBE77728#32) = 0x40767FFE61612543#64
      ∧ measure Config.default 0xC057916872B020C5#64 (0x447FE30A#32, 0xBBE77728#32) = 0x40709BA444B51D12#64
      ∧ measure Config.default 0x40709BA5E353F7CF#64 (0x3FE9A97A#32, 0x3D9A9793#32) = 0x4070C1889B79E5FE#64
      ∧ measure Config.default 0#64 (0x3FE9A97A#32, 0x3D9A9793#32) = 0x4002F15C12F7175C#64
      ∧ measure Config.default 0#64 (0x445DB3D7#32, 0x43FFFFFF#32) = 0x403DFFFFEEA934AC#64 := by
  decide +kernel

-- R157, by hand: z − z³/3 < arctan z < z. At z = 3·2^−1075, half way between two subnormal values, the
-- nearest value is therefore the lower one, 2^−1074; at z = 2^−27 it is z
theorem test_arctan_tiny :
    atan2 Config.default 3#64 0x4000000000000000#64 = 1#64
      ∧ atan2 Config.default 0x8000000000000003#64 0x4000000000000000#64 = 0x8000000000000001#64
      ∧ atan2 Config.default 0x3E40000000000000#64 0x3FF0000000000000#64 = 0x3E40000000000000#64 := by
  decide +kernel

-- R154, R157: arctan 1 = π/4, and the angle of (−1, 1) is 3π/4 (0x4002D97C7F3321D2 is the W value next to it)
theorem test_arctan_diagonal :
    atan2 Config.default 0x3FF0000000000000#64 0x3FF0000000000000#64 = 0x3FE921FB54442D18#64
      ∧ atan2 Config.default 0x3FF0000000000000#64 0xBFF0000000000000#64 = 0x4002D97C7F3321D2#64 := by
  decide +kernel

-- R154, R247
theorem test_phase_constants :
    mulW (packW false pi64) rad2deg = 0x4066800000000000#64
      ∧ mulW (packW false halfPi64) rad2deg = 0x4056800000000000#64
      ∧ roundMagW (piFixed / 2 ^ 192) (-320) = pi64 := by
  decide +kernel

/-- Machin's formula for π · 2^bits, π = 16·arctan(1/5) − 4·arctan(1/239), by the alternating series. -/
def machinSum (square : Nat) : Nat → Nat → Nat → Int → Int
  | 0, _, _, sum => sum
  | fuel + 1, k, power, sum =>
    machinSum square fuel (k + 1) (power / square)
      (if k % 2 = 0 then sum + power / (2 * k + 1) else sum - power / (2 * k + 1))

-- the constant of Roms.lean against Machin's formula, with 88 further bits
theorem test_pi_fixed :
    (16 * machinSum 25 130 0 (2 ^ 600 / 5) 0 - 4 * machinSum 57121 40 0 (2 ^ 600 / 239) 0) / 2 ^ 88 = piFixed := by
  decide +kernel

/-! ### Steps, reset and the schedule -/

-- 95_test_vectors.md P3 line 14: a dropped command; then the engine's turn
theorem test_step_schedule :
    result bus (step { busyWith 2 .transform [] with events := .host (lineCommand 2#32) :: [.engine] })
      = some (.okay, 0#32, 9#32) := by decide

-- R350, R351: a reset aborts a running command
theorem test_step_reset :
    result (fun s => (statusWord s, s.buf, s.binK))
      (step { busyWith 2 .transform [1#32] with binK := 5#32, events := [.reset] }) = some (0#32, [], 0#32) := by
  decide

-- R7: a build outside 1 to 16 is refused
theorem test_step_invalid_build :
    step { State.reset with cfg := buildOf 17 } = .refused .invalidArgument := by rfl

theorem test_fetch_word :
    result bus (step (State.reset.withFetchWord 24 0x000004)) = some (.okay, 0#32, 0#32)
      ∧ result bus (step (State.reset.withFetchWord 32 2)) = some (.okay, 0#32, 1#32) := by decide

/-! ### Witnesses: for each statement with hypotheses, states and operands that meet them, one for each
clause, at the ends of ranges -/

theorem witness_MisalignedRaisesAddressError :
    (1#23).toNat % 4 ≠ 0 ∧ (0x500002#23).toNat % 4 ≠ 0 ∧ (0x7FFFFF#23).toNat % 4 ≠ 0 := by decide

-- the first and last addresses of the gaps of R81 and R85
theorem witness_UnmappedRaisesAddressError :
    (∀ a ∈ [0x000014, 0x000028, 0x0FFFFC, 0x100020, 0x1FFFFC, 0x200010, 0x2FFFFC, 0x300010, 0x3FFFFC],
      a % 4 = 0 ∧ mappedAddress 2 a = false) ∧
    ∀ a ∈ [0x000014, 0x000028, 0x0FFFFC, 0x180000, 0x1FFFFC, 0x240000, 0x2FFFFC, 0x340000, 0x3FFFFC],
      a % 4 = 0 ∧ mappedAddress 16 a = false := by decide

theorem witness_ReadOnlyRegistersRead : State.reset.cfg.valid = true := by decide

theorem witness_StatusReadShowsEveryFlag :
    ((5 ≤ 5 ∧ 5 ≤ 7) ∨ 11 ≤ 5) ∧ ((5 ≤ 7 ∧ 7 ≤ 7) ∨ 11 ≤ 7) ∧ ((5 ≤ 11 ∧ 11 ≤ 7) ∨ 11 ≤ 11) := by decide

theorem witness_IrqEnableReadAndWrite : 2 ≤ 2 := by decide

theorem witness_BufferRead :
    ((idleWith 2 [0#32, 0x7FA00001#32]).busy = false
        ∧ readElement (idleWith 2 [0#32, 0x7FA00001#32]).buf (1#17).toNat = some 0x7FA00001#32)
      ∧ (busyWith 2 .phase []).busy = true
      ∧ readElement (idleWith 2 [0#32]).buf (7#17).toNat = none := by decide

theorem witness_BufferWrite :
    (idleWith 2 []).busy = false ∧ (busyWith 2 .transform []).busy = true
      ∧ 0x0FFFFF < elementAddr 0 ∧ elementAddr (131071#17).toNat + 4 ≤ 0x180000 := by decide

-- the first and last index inside, the first outside, and the last of the window
theorem witness_AddressMapDecodes :
    (∀ i ∈ [0, 3, 4, 131071], i < 2 ^ 17 ∧ (BitVec.ofNat 22 (0x100000 + 4 * i)).toNat = 0x100000 + 4 * i)
      ∧ ∀ i ∈ [0, 1, 2, 65535], i < 2 ^ 16
        ∧ (BitVec.ofNat 22 (0x200000 + 4 * i)).toNat = 0x200000 + 4 * i
        ∧ (BitVec.ofNat 22 (0x300000 + 4 * i)).toNat = 0x300000 + 4 * i := by decide

theorem witness_WindowSymmetricWithZeroEnds : 0 < 2 ^ 1 ∧ 65535 < 2 ^ 16 := by decide

theorem witness_WindowMatchesFormulaAtSizeFour : 0 < 4 ∧ 3 < 4 := by decide

theorem witness_ReservedCommandSetsErrCmd :
    (idleWith 2 []).busy = false ∧ 3 ≤ (3#32).toNat ∧ 3 ≤ (0xFFFFFFFF#32).toNat := by decide

-- for NopHasNoEffect, CommandAcceptance, CtrlWriteDeliversCommand, CtrlWriteWhileBusy and RunningCommandIsUndisturbed
theorem witness_idle_and_busy : State.reset.busy = false ∧ (busyWith 2 .phase []).busy = true := by decide

theorem witness_TransformReplacesBuffer :
    (busyWith 1 .transform [1#32, 2#32, 3#32, 4#32]).curOp = .transform
      ∧ readPairs (busyWith 1 .transform [1#32, 2#32, 3#32, 4#32]).buf 0 2 = some [(1#32, 2#32), (3#32, 4#32)]
      ∧ elementAddr (2 * 2) ≤ 0x100010 := by decide

theorem witness_TransformFaultsOnUnwritten :
    3 < 2 * (busyWith 1 .transform [1#32, 2#32, 3#32]).cfg.size
      ∧ readElement (busyWith 1 .transform [1#32, 2#32, 3#32]).buf 3 = none := by decide

theorem witness_BitReversalPermutation :
    7 < 2 ^ 3 ∧ 2 < 3 ∧ (List.replicate 8 ((0#32, 0#32) : Pair)).length = 2 ^ 3 := by decide

-- for ButterflyCombinesOldValues and ZeroButterflyStaysZero
theorem witness_butterfly :
    (0 : Nat) ≠ 1 ∧ 1 < [((0#32, 0#32) : Pair), (0#32, 0#32)].length
      ∧ pairAt [(0#32, 0#32), (0#32, 0#32)] 1 = (0#32, 0#32)
      ∧ (numOfW (twiddle 2 1).1).isFinite = true ∧ (numOfW (twiddle 2 1).2).isFinite = true := by decide +kernel

theorem witness_DisjointButterfliesCommute : (0 : Nat) ≠ 2 ∧ 0 ≠ 3 ∧ 1 ≠ 2 ∧ 1 ≠ 3 := by decide

/-- A PHASE that runs on bin k of a machine of size 4. -/
def phaseOn (k : Word) (re im : SBits) (cal : WBits) : State :=
  { busyWith 2 .phase [] with buf := wordsAt 2 [re, im], lk := k, lcal := cal }

-- k = N/2 is out of range, k = N/2 − 1 is the last bin
theorem witness_PhaseWritesResult :
    ({ idleWith 2 [] with binK := 2#32 }).cfg.size / 2 ≤ ({ idleWith 2 [] with binK := 2#32 }).binK.toNat
      ∧ (1#32).toNat < (idleWith 2 [0#32, 0#32, 5#32, 6#32]).cfg.size / 2
      ∧ readPair (idleWith 2 [0#32, 0#32, 5#32, 6#32]).buf (1#32).toNat = some (5#32, 6#32) := by decide

theorem witness_PhaseOutOfRangeSentinel :
    (phaseOn 2#32 0#32 0#32 0#64).busy = true ∧ (phaseOn 2#32 0#32 0#32 0#64).curOp = .phase
      ∧ (phaseOn 2#32 0#32 0#32 0#64).cfg.size / 2 ≤ (phaseOn 2#32 0#32 0#32 0#64).lk.toNat := by decide

theorem witness_PhaseFaultsOnUnwrittenBin :
    (phaseOn 0#32 0#32 0#32 0#64).lk.toNat < (phaseOn 0#32 0#32 0#32 0#64).cfg.size / 2
      ∧ readElement (phaseOn 0#32 0#32 0#32 0#64).buf 0 = none := by decide

theorem value_one_S : (numOfS 0x3F800000#32).value = 1 := by
  rw [show numOfS 0x3F800000#32 = .fin false (2 ^ 23) (-23) by decide]; norm_num [Num.value]

theorem value_one_W : (numOfW 0x3FF0000000000000#64).value = 1 := by
  rw [show numOfW 0x3FF0000000000000#64 = .fin false (2 ^ 52) (-52) by decide]; norm_num [Num.value]

theorem value_minus_one_W : (numOfW 0xBFF0000000000000#64).value = -1 := by
  rw [show numOfW 0xBFF0000000000000#64 = .fin true (2 ^ 52) (-52) by decide]; norm_num [Num.value]

theorem value_zero_S : (numOfS 0#32).value = 0 := by
  rw [show numOfS 0#32 = .fin false 0 (-149) by decide]; norm_num [Num.value]

theorem value_zero_W : (numOfW 0#64).value = 0 := by
  rw [show numOfW 0#64 = .fin false 0 (-1074) by decide]; norm_num [Num.value]

/-- EPS of the default build is greater than 0 and at most 1. -/
theorem value_eps : 0 < (numOfW Config.default.eps).value ∧ (numOfW Config.default.eps).value ≤ 1 := by
  rw [show numOfW Config.default.eps = .fin false 0x15798EE2308C3A (-79) by decide]; norm_num [Num.value]

-- for PhaseUndefinedSentinel, PhaseNonFiniteSentinel and PhaseMeasurement
theorem witness_phase_bin :
    (phaseOn 1#32 0x7FC00000#32 0x3F800000#32 0#64).cfg.valid = true
      ∧ (phaseOn 1#32 0x7FC00000#32 0x3F800000#32 0#64).lk.toNat < 4 / 2
      ∧ readElement (phaseOn 1#32 0x7FC00000#32 0x3F800000#32 0#64).buf 2 = some 0x7FC00000#32
      ∧ readElement (phaseOn 1#32 0x7FC00000#32 0x3F800000#32 0#64).buf 3 = some 0x3F800000#32
      ∧ (numOfS 0x7FC00000#32).isFinite = false ∧ (numOfS 0x3F800000#32).isFinite = true
      ∧ (numOfS 0#32).isFinite = true ∧ (numOfW 0#64).isFinite = true := by decide

theorem witness_PhaseUndefinedSentinel :
    |(numOfS 0#32).value| < (numOfW Config.default.eps).value := by
  rw [value_zero_S, abs_zero]; exact value_eps.1

theorem witness_PhaseMeasurement : ¬ |(numOfS 0x3F800000#32).value| < (numOfW Config.default.eps).value := by
  rw [value_one_S, abs_one]; exact not_lt.2 value_eps.2

theorem witness_ArctangentBoundsInEveryBuild :
    (numOfW 0#64).isFinite = true ∧ (numOfW 0x3FF0000000000000#64).isFinite = true
      ∧ (numOfW 0xBFF0000000000000#64).isFinite = true ∧ (numOfW 0#64).value = 0
      ∧ 0 < (numOfW 0x3FF0000000000000#64).value ∧ (numOfW 0xBFF0000000000000#64).value < 0 := by
  refine ⟨by decide, by decide, by decide, value_zero_W, ?_, ?_⟩
  · rw [value_one_W]; norm_num
  · rw [value_minus_one_W]; norm_num

-- off the axes, in the default build and in another one with the least bound
theorem witness_ArctangentOffTheAxes :
    (numOfW 0x3FF0000000000000#64).value ≠ 0 ∧ (numOfW 0xBFF0000000000000#64).value ≠ 0
      ∧ Config.default.atan2 = .correctlyRounded ∧ 1 / 2 ≤ Config.default.atan2Ulps
      ∧ 1 / 2 ≤ ({ Config.default with atan2 := .other 0 }).atan2Ulps := by
  refine ⟨?_, ?_, rfl, halfUlp_eq.ge, halfUlp_eq.ge⟩
  · rw [value_one_W]; norm_num
  · rw [value_minus_one_W]; norm_num

-- a remainder that is negative, and one that is not
theorem witness_NormaliseReducesModulo360 :
    (numOfW 0xBFF0000000000000#64).isFinite = true ∧ (numOfW (fmodW 0xBFF0000000000000#64 w360)).value < 0
      ∧ (numOfW 0x3FF0000000000000#64).isFinite = true
      ∧ 0 ≤ (numOfW (fmodW 0x3FF0000000000000#64 w360)).value := by
  refine ⟨by decide, ?_, by decide, ?_⟩
  · rw [show fmodW 0xBFF0000000000000#64 w360 = 0xBFF0000000000000#64 by decide +kernel, value_minus_one_W]
    norm_num
  · rw [show fmodW 0x3FF0000000000000#64 w360 = 0x3FF0000000000000#64 by decide +kernel, value_one_W]
    norm_num

-- for WideningIsExact and StorageSumAndDifference
theorem witness_classes_S :
    (numOfS 0#32).isFinite = true ∧ (numOfS 0x7F7FFFFF#32).isFinite = true
      ∧ numOfS 0x7F800000#32 = .inf false ∧ numOfS 0xFF800000#32 = .inf (!false)
      ∧ numOfS 0x7F800001#32 = .nan := by decide

-- for NarrowingRoundsToNearestEven and WideArithmetic
theorem witness_classes_W :
    (numOfW 0#64).isFinite = true ∧ (numOfW 0x7FEFFFFFFFFFFFFF#64).isFinite = true
      ∧ numOfW 0x7FF0000000000000#64 = .inf false ∧ numOfW 0xFFF0000000000000#64 = .inf true
      ∧ numOfW 0x7FF0000000000001#64 = .nan := by decide

-- sums and differences that are zero: 1 + (−1), 1 − 1
theorem witness_zero_sums :
    (numOfW 0x3FF0000000000000#64).value + (numOfW 0xBFF0000000000000#64).value = 0
      ∧ (numOfW 0x3FF0000000000000#64).value - (numOfW 0x3FF0000000000000#64).value = 0
      ∧ (numOfS 0x3F800000#32).value - (numOfS 0x3F800000#32).value = 0
      ∧ (numOfS 0#32).value + (numOfS 0#32).value = 0 := by
  rw [value_one_W, value_minus_one_W, value_one_S, value_zero_S]; norm_num

theorem witness_RemainderIsExact :
    (numOfW 0x8000000000000000#64).isFinite = true ∧ (numOfW 0x3FF0000000000000#64).isFinite = true
      ∧ (numOfW 0x3FF0000000000000#64).value ≠ 0 := by
  refine ⟨by decide, by decide, ?_⟩
  rw [value_one_W]; norm_num

theorem witness_DecodeEncodeRoundTrip :
    (Instr.rdBuf 131071#17).wellFormed 16 = true ∧ (Instr.wrWinHn 1#16 0#32).wellFormed 1 = true
      ∧ (Instr.unmapped true 0x3FFFFC#22 7#32).wellFormed 16 = true
      ∧ (Instr.reservedCmd 3#32).wellFormed 1 = true ∧ Instr.transform.wellFormed 1 = true := by decide

theorem witness_DecodeIsWellFormed : 1 ≤ 1 ∧ 1 ≤ 16 ∧ 1 ≤ 16 ∧ 16 ≤ 16 := by decide

theorem witness_StepRunsDecodedInstruction :
    ({ State.reset with events := [.host (.cmd 1#32)] }).cfg.valid = true
      ∧ ({ State.reset with events := [.host (.cmd 1#32)] }).events = .host (.cmd 1#32) :: [] := by decide

-- the engine's turn, nothing pending, a reset
theorem witness_schedule :
    ({ busyWith 2 .phase [] with events := [] }).cfg.valid = true
      ∧ ({ busyWith 2 .phase [] with events := [.engine] }).events = .engine :: []
      ∧ ({ busyWith 2 .phase [] with events := [.reset] }).events = .reset :: [] := by decide

theorem witness_InvalidBuildIsRefused :
    (buildOf 0).log2n < 1 ∧ 16 < (buildOf 17).log2n ∧ (numOfW 0x7FF0000000000000#64).isFinite = false
      ∧ (numOfW 0#64).value ≤ 0
      ∧ ({ Config.default with atan2Ulps := 1 / 4 } : Config).atan2Ulps < 1 / 2 := by
  exact ⟨by decide, by decide, by decide, value_zero_W.le, by norm_num⟩

-- the least ATAN2_ULPS of 93_implementation_defined.md section 2 is no reason to refuse, a smaller one is
theorem test_valid_ulps :
    Config.default.valid = true ∧ ({ Config.default with atan2Ulps := 1 / 4 } : Config).valid = false := by
  refine ⟨by decide, Bool.eq_false_iff.2 fun h => ?_⟩
  have := ((Config.valid_iff _).1 h).2.2.2.2
  norm_num at this

/-- A machine of size 2 that runs a TRANSFORM on a full buffer. -/
def runningTransform : State := busyWith 1 .transform [0#32, 0#32, 0#32, 0#32]

theorem witness_StepKeepsInvariant :
    Inv runningTransform ∧ (result (fun s => s.busy) (step runningTransform)) = some false := by
  refine ⟨⟨by decide, ?_, ?_, by decide, by decide, by decide⟩, by decide +kernel⟩
  · unfold Memory.inRegion; decide
  · unfold Memory.wholeElements; decide

theorem witness_AtMostOneConditionPerTransaction :
    result (fun t => t.errAddr) (exec (.wrCfg 0#32) State.reset) = some true ∧ State.reset.errCmd = false
      ∧ State.reset.errBusy = false ∧ State.reset.errAddr = false := by decide

-- the two kinds of error response
theorem witness_ErrorResponseSetsOneFlag :
    result (fun t => t.resp) (exec (.wrCfg 0#32) State.reset) = some .error
      ∧ result (fun t => t.resp) (exec (.rdBuf 0#17) runningTransform) = some .error := by decide

-- each error flag is set before a step and clear after it
theorem witness_ErrorFlagsAreSticky :
    result (fun t => (t.errCmd, t.errBusy, t.errAddr))
      (step { State.reset with errCmd := true, errBusy := true, errAddr := true, events := [.host (lineClr 0x1C#32)] })
      = some (false, false, false)
      ∧ ({ State.reset with events := [.host (lineClr 0x1C#32)] }).events ≠ [] := by decide

theorem witness_OnlyPhaseCompletionWritesResults :
    (result (fun t => t.busy) (step runningTransform)).isSome = true ∧ runningTransform.events = []
      ∧ runningTransform.curOp ≠ .phase := by decide +kernel

-- BUSY rises at acceptance and falls at completion
theorem witness_BusyFollowsCommandLifeCycle :
    result (fun t => t.busy) (step { State.reset with events := [.host (lineCommand 1#32)] }) = some true
      ∧ State.reset.busy = false ∧ runningTransform.busy = true
      ∧ result (fun t => t.busy) (step runningTransform) = some false := by decide +kernel

-- idle, with different latches; running a TRANSFORM, with different LK and LCAL
theorem witness_LatchesAreHidden :
    SameVisible { State.reset with curOp := .phase, lk := 5#32, lcal := 9#64 } State.reset
      ∧ SameVisible { runningTransform with lk := 5#32, lcal := 9#64 } runningTransform :=
  ⟨⟨rfl, by simp [State.reset, State.resetOf], by simp [State.reset, State.resetOf]⟩,
    ⟨rfl, fun _ => rfl, fun _ h => by simp [runningTransform, busyWith] at h⟩⟩

theorem witness_FullBufferNeverFaults : runningTransform.cfg.valid = true ∧ bufferFull runningTransform := by
  refine ⟨by decide, ?_⟩
  unfold bufferFull; decide

end Sys2Proof.Tests
end

section
/-! SUPPORT. The family 00_scope.md: how the step is scheduled, and which states have none. -/

namespace Sys2Proof.Machine

/-! ### The schedule (log 1) -/

/-- In an accepted build with nothing pending, the engine moves. -/
theorem step_of_events_nil {s : State} (hv : s.cfg.valid = true) (he : s.events = []) :
    step s = engineStep s := by
  rw [step, if_pos hv, he]
  exact eventStep_engine s

/-- In an accepted build the next event is taken and has its effect. -/
theorem step_of_events_cons {s : State} {event : Event} {rest : List Event} (hv : s.cfg.valid = true)
    (he : s.events = event :: rest) : step s = eventStep event { s with events := rest } := by
  rw [step, if_pos hv, he]

theorem engineStep_of_idle {s : State} (hb : s.busy = false) : engineStep s = .next s := by
  simp [engineStep, hb]

/-- Settles O48: the two equations of the schedule, and the engine's idle turn. -/
theorem engineMovesWhenScheduled : Obligations.EngineMovesWhenScheduled := by
  intro s hv
  refine ⟨step_of_events_nil hv, fun rest he => ?_, engineStep_of_idle⟩
  rw [step_of_events_cons hv he, eventStep_engine]

/-! ### Refusals -/

/-- Every instruction has a meaning: its one way to stop is the fault of R301. -/
theorem exec_ne_refused (i : Instr) (s : State) (r : Refusal) : exec i s ≠ .refused r := by
  intro h
  obtain ⟨e, -, -, -, hfault⟩ := exec_stops (i := i) (s := s) (by simp [h])
  simp [hfault] at h

/-- The engine's step stops only by the faults of R216 and R243. -/
theorem engineStep_ne_refused (s : State) (r : Refusal) : engineStep s ≠ .refused r := by
  unfold engineStep
  split
  · split
    · unfold completeTransform
      split <;> simp
    · unfold completePhase
      split <;> simp
  · simp

theorem eventStep_ne_refused (event : Event) (s : State) (r : Refusal) :
    eventStep event s ≠ .refused r := by
  cases event with
  | host e => rw [eventStep_host]; exact exec_ne_refused _ s r
  | engine => rw [eventStep_engine]; exact engineStep_ne_refused s r
  | reset => simp [resetStep]

theorem step_ne_refused_of_valid {s : State} (hv : s.cfg.valid = true) (r : Refusal) :
    step s ≠ .refused r := by
  cases he : s.events with
  | nil => rw [step_of_events_nil hv he]; exact engineStep_ne_refused s r
  | cons event rest => rw [step_of_events_cons hv he]; exact eventStep_ne_refused event _ r

/-- A refused step is the build's alone: no event and no running command refuses. -/
theorem step_eq_refused_iff (s : State) :
    step s = .refused .invalidArgument ↔ ¬ s.cfg.valid = true :=
  ⟨fun h hv => step_ne_refused_of_valid hv _ h, fun hv => by rw [step, if_neg hv]⟩

/-! ### The range of EPS (R8) -/

/-- A finite W value is positive when its pattern has no sign and is not that of +0. -/
theorem value_numOfW_pos_iff {v : WBits} (h : (numOfW v).isFinite = true) :
    0 < (numOfW v).value ↔ v.msb = false ∧ 0 < v.toNat := by
  have hmono := (magValue_strictMono 52 (-1074)).lt_iff_lt (a := 0) (b := v.toNat % 2 ^ 63)
  rw [show magValue 52 (-1074) 0 = 0 by simp [magValue]] at hmono
  rw [value_numOfW h]
  cases hs : v.msb with
  | true =>
    have hnonneg := magValue_nonneg 52 (-1074) (v.toNat % 2 ^ 63)
    rw [if_pos rfl, neg_one_mul, neg_pos]
    exact iff_of_false hnonneg.not_gt (by simp)
  | false => rw [toNat_mod_of_nonneg hs] at hmono ⊢; simpa using hmono

/-- R8's range of EPS, by patterns: strictly between those of +0 and +∞. -/
theorem finite_and_pos_iff_toNat (v : WBits) :
    ((numOfW v).isFinite = true ∧ 0 < (numOfW v).value) ↔
      0 < v.toNat ∧ v.toNat < 0x7FF0000000000000 := by
  have hsign : v.msb = false ↔ v.toNat < 2 ^ 63 := by rw [BitVec.msb_eq_decide]; simp
  have hfinite : (numOfW v).isFinite = true ↔ v.toNat % 2 ^ 63 < 2047 * 2 ^ 52 := by
    rw [isFinite_numOfW, decide_eq_true_iff]
  constructor
  · rintro ⟨hf, hpos⟩
    obtain ⟨hs, h0⟩ := (value_numOfW_pos_iff hf).1 hpos
    rw [hfinite, toNat_mod_of_nonneg hs] at hf
    exact ⟨h0, by omega⟩
  · rintro ⟨h0, hlt⟩
    have hf := hfinite.2 (by omega)
    exact ⟨hf, (value_numOfW_pos_iff hf).2 ⟨hsign.2 (by omega), h0⟩⟩

/-- The build's check in the words of R7, R8 and 93_implementation_defined.md section 2. -/
theorem valid_iff_in_range (c : Config) :
    c.valid = true ↔
      1 ≤ c.log2n ∧ c.log2n ≤ 16 ∧ (numOfW c.eps).isFinite = true ∧ 0 < (numOfW c.eps).value ∧
        1 / 2 ≤ c.atan2Ulps := by
  have heps := finite_and_pos_iff_toNat c.eps
  rw [Config.valid_iff]
  tauto

/-- Settles O50: a refusal is the build's, and the build's check is the ranges' conjunction. -/
theorem invalidBuildIsRefused : Obligations.InvalidBuildIsRefused := by
  intro s
  rw [step_eq_refused_iff, valid_iff_in_range]
  simp only [not_and_or, not_le, not_lt, Bool.not_eq_true]

end Sys2Proof.Machine
end

section
/-! SUPPORT. The family 10_state.md: what the state holds, when it changes, and what of it can be seen. -/

namespace Sys2Proof.Machine

/-! ### What a step takes -/

/-- What a step that answers a next state took, with the two turns of the engine as one case. -/
theorem step_engine_or_host_or_reset {s t : State} (h : step s = .next t) :
    (engineMoves s ∧ engineStep { s with events := s.events.tail } = .next t) ∨
      (∃ e rest, s.events = .host e :: rest ∧
        exec (decode s.cfg.log2n e) { s with events := rest } = .next t) ∨
      (resets s ∧ t = State.resetOf s.cfg s.events.tail) := by
  rcases (step_cases h).2 with ⟨he, ht⟩ | ⟨rest, he, ht⟩ | hhost | ⟨rest, he, ht⟩
  · refine .inl ⟨.inl he, ?_⟩
    rw [← ht, he, List.tail_nil, ← he]
  · exact .inl ⟨.inr ⟨rest, he⟩, by rwa [he]⟩
  · exact .inr (.inl hhost)
  · exact .inr (.inr ⟨⟨rest, he⟩, by rwa [he]⟩)

/-! ### States that differ only in the latches -/

/-- The state with other latches (R54). -/
def State.withLatches (u : State) (op : Op) (k : Word) (c : WBits) : State :=
  { u with curOp := op, lk := k, lcal := c }

/-- An update that does not look at the latches, and writes neither them nor BUSY. -/
structure LatchFree (f : State → State) : Prop where
  commutes : ∀ u op k c, f (u.withLatches op k c) = (f u).withLatches op k c
  keeps : ∀ u, (f u).busy = u.busy ∧ (f u).curOp = u.curOp ∧ (f u).lk = u.lk ∧ (f u).lcal = u.lcal

/-- Outcomes that the host cannot tell apart: the same stop, or next states that differ in meaningless latches
only. -/
inductive SameOut : Out → Out → Prop
  | next {s t : State} (h : SameVisible s t) : SameOut (.next s) (.next t)
  | fault (f : Fault) : SameOut (.fault f) (.fault f)
  | refused (r : Refusal) : SameOut (.refused r) (.refused r)

theorem SameVisible.refl (s : State) : SameVisible s s := ⟨rfl, fun _ => rfl, fun _ _ => ⟨rfl, rfl⟩⟩

theorem SameOut.refl (o : Out) : SameOut o o := by
  cases o with
  | next s => exact .next (.refl s)
  | fault f => exact .fault f
  | refused r => exact .refused r

/-- Two branches on conditions that agree. -/
theorem SameOut.ite {p q : Bool} {a b c d : Out} (hpq : p = q) (htrue : SameOut a c) (hfalse : SameOut b d) :
    SameOut (if p then a else b) (if q then c else d) := by
  subst hpq
  split
  · exact htrue
  · exact hfalse

section
variable {s t : State} (h : SameVisible s t)
include h

theorem SameVisible.eq_withLatches : s = t.withLatches s.curOp s.lk s.lcal := h.rest

theorem SameVisible.busy_eq : s.busy = t.busy := congrArg (·.busy) h.rest
theorem SameVisible.buf_eq : s.buf = t.buf := congrArg (·.buf) h.rest
theorem SameVisible.cfg_eq : s.cfg = t.cfg := congrArg (·.cfg) h.rest
theorem SameVisible.events_eq : s.events = t.events := congrArg (·.events) h.rest

/-- While PHASE runs every latch means something, so nothing is left to differ. -/
theorem SameVisible.eq_of_running_phase (hb : s.busy = true) (hop : s.curOp = .phase) : s = t := by
  obtain ⟨hk, hc⟩ := h.operands hb hop
  rw [h.rest, h.command hb, hk, hc]

theorem SameVisible.update {f : State → State} (hf : LatchFree f) : SameVisible (f s) (f t) := by
  obtain ⟨hbs, hops, hks, hcs⟩ := hf.keeps s
  obtain ⟨-, hopt, hkt, hct⟩ := hf.keeps t
  constructor
  · rw [hops, hks, hcs]
    exact (congrArg f h.eq_withLatches).trans (hf.commutes t _ _ _)
  · rw [hbs, hops, hopt]
    exact h.command
  · rw [hbs, hops, hks, hkt, hcs, hct]
    exact h.operands

theorem SameVisible.respond (r : Resp) (d : Word) : SameVisible (respond r d s) (respond r d t) :=
  h.update ⟨fun _ _ _ _ => rfl, fun _ => ⟨rfl, rfl, rfl, rfl⟩⟩

theorem SameVisible.setFlag (c : Condition) : SameVisible (setFlag c s) (setFlag c t) :=
  h.update ⟨fun _ _ _ _ => by cases c <;> rfl, fun _ => by simp⟩

/-- Acceptance latches the operands of the command it starts, and leaves only those that it does not use
(R54). -/
theorem SameVisible.accept (op : Op) : SameVisible (accept op s) (accept op t) := by
  cases op with
  | transform =>
    exact ⟨congrArg (Machine.accept .transform) h.rest, fun _ => rfl, fun _ hop => by simp at hop⟩
  | phase =>
    have heq : Machine.accept .phase s = Machine.accept .phase t :=
      (congrArg (Machine.accept .phase) h.eq_withLatches).trans rfl
    exact heq ▸ .refl _

theorem SameVisible.commandEffect (w : Word) : SameVisible (commandEffect w s) (commandEffect w t) := by
  unfold Machine.commandEffect
  split_ifs
  · exact h
  · exact h.accept .transform
  · exact h.accept .phase
  · exact h.setFlag .command

theorem SameVisible.raise (c : Condition) : SameOut (raise c s) (raise c t) :=
  .next ((h.setFlag c).respond .error 0#32)

/-- A read of a word that does not depend on the latches. -/
theorem SameVisible.readOkay {d : State → Word} (hd : ∀ u op k c, d (u.withLatches op k c) = d u) :
    SameOut (readOkay (d s) s) (readOkay (d t) t) := by
  have heq : d s = d t := (congrArg d h.eq_withLatches).trans (hd t _ _ _)
  rw [heq]
  exact .next (h.respond _ _)

theorem SameVisible.writeOkay {f : State → State} (hf : LatchFree f) :
    SameOut (writeOkay (f s)) (writeOkay (f t)) :=
  .next ((h.update hf).respond _ _)

theorem SameVisible.ctrlWrite {effect : State → State} (he : SameVisible (effect s) (effect t)) :
    SameOut (ctrlWrite effect s) (ctrlWrite effect t) :=
  .ite h.busy_eq (.next ((h.setFlag .busy).respond _ _)) (.next (he.respond _ _))

theorem SameVisible.execRdBuf (e : BitVec 17) : SameOut (execRdBuf e s) (execRdBuf e t) := by
  refine .ite h.busy_eq (h.raise .busy) ?_
  rw [h.buf_eq]
  split
  · exact .fault _
  · exact .next (h.respond _ _)

/-- No instruction reads a latch: RD_BIN_K and RD_CAL read the registers (R291, R293, R295), and BUSY alone
says whether a command runs. -/
theorem SameVisible.exec (i : Instr) : SameOut (exec i s) (exec i t) := by
  cases i with
  | wrCtrl w => exact h.ctrlWrite (h.commandEffect w)
  | nop => exact h.ctrlWrite (effect := fun idle => idle) h
  | transform => exact h.ctrlWrite (h.accept .transform)
  | phase => exact h.ctrlWrite (h.accept .phase)
  | reservedCmd w => exact h.ctrlWrite (h.setFlag .command)
  | rdBuf e => exact h.execRdBuf e
  | wrBuf e d =>
    refine .ite h.busy_eq (h.raise .busy) ?_
    apply h.writeOkay (f := fun u => { u with buf := writeElement u.buf e.toNat d })
    exact ⟨fun _ _ _ _ => rfl, fun _ => ⟨rfl, rfl, rfl, rfl⟩⟩
  | rdCtrl | rdStatus | rdIrqEn | rdCfg | rdBinK | rdCalLo | rdCalHi | rdPhaseLo | rdPhaseHi | rdWinFt
    | rdWinHn =>
    apply h.readOkay
    exact fun _ _ _ _ => rfl
  | wrStatus | wrIrqEn | wrBinK | wrCalLo | wrCalHi =>
    apply h.writeOkay
    exact ⟨fun _ _ _ _ => rfl, fun _ => ⟨rfl, rfl, rfl, rfl⟩⟩
  | misaligned01 | misaligned10 | misaligned11 | wrCfg | wrPhaseLo | wrPhaseHi | wrWinFt | wrWinHn
    | unmapped =>
    exact h.raise .address

/-- A TRANSFORM completion reads no latch, and clears BUSY, so that none means anything after it. -/
theorem SameVisible.completeTransform : SameOut (completeTransform s) (completeTransform t) := by
  rw [h.eq_withLatches]
  unfold Machine.completeTransform State.withLatches
  dsimp only
  split
  · exact .fault _
  · exact .next ⟨rfl, fun hb => by simp at hb, fun hb => by simp at hb⟩

/-- The engine reads a latch only while it means something (R54, R57). -/
theorem SameVisible.engineStep : SameOut (engineStep s) (engineStep t) := by
  cases hb : s.busy with
  | false =>
    rw [engineStep_of_idle hb, engineStep_of_idle (h.busy_eq ▸ hb)]
    exact .next h
  | true =>
    cases hop : s.curOp with
    | phase =>
      obtain rfl := h.eq_of_running_phase hb hop
      exact .refl _
    | transform =>
      refine .ite h.busy_eq ?_ (.next h)
      rw [← h.command hb, hop]
      exact h.completeTransform

theorem SameVisible.withEvents (rest : List Event) :
    SameVisible { s with events := rest } { t with events := rest } :=
  h.update (f := fun u => { u with events := rest }) ⟨fun _ _ _ _ => rfl, fun _ => ⟨rfl, rfl, rfl, rfl⟩⟩

theorem SameVisible.eventStep (event : Event) : SameOut (eventStep event s) (eventStep event t) := by
  cases event with
  | host e => rw [eventStep_host, eventStep_host, h.cfg_eq]; exact h.exec _
  | engine => rw [eventStep_engine, eventStep_engine]; exact h.engineStep
  | reset =>
    rw [eventStep_reset, eventStep_reset, resetStep, resetStep, h.cfg_eq, h.events_eq]
    exact .refl _

/-- The step relation keeps states alike that differ only in latches that mean nothing. -/
theorem SameVisible.step : SameOut (step s) (step t) := by
  refine .ite (by rw [h.cfg_eq]) ?_ (.refused _)
  rw [h.events_eq]
  split
  · exact h.eventStep .engine
  · exact (h.withEvents _).eventStep _

end

/-- Settles O59: the simulation `SameVisible.step`, read off for each outcome. -/
theorem latchesAreHidden : Obligations.LatchesAreHidden := by
  intro s t h
  have hout := h.step
  generalize step s = a, step t = b at hout
  cases hout with
  | next hst => exact ⟨by rintro _ ⟨⟩; exact ⟨_, rfl, hst⟩, by simp, by simp⟩
  | fault f => exact ⟨by simp, fun _ hf => hf, by simp⟩
  | refused r => exact ⟨by simp, by simp, fun _ hr => hr⟩

/-! ### The results (R49, R314) -/

/-- The results of the last PHASE are the same in both states. -/
def SameResults (s t : State) : Prop :=
  t.phase = s.phase ∧ t.oor = s.oor ∧ t.und = s.und ∧ t.nf = s.nf

/-- No instruction writes a result. -/
theorem exec_keeps_results {i : Instr} {s t : State} (h : exec i s = .next t) : SameResults s t := by
  cases exec_did h <;> simp [SameResults]

/-- The engine writes a result only when it completes a PHASE. -/
theorem engineStep_keeps_results {s t : State} (h : engineStep s = .next t)
    (hop : ¬ (s.busy = true ∧ s.curOp = .phase)) : SameResults s t := by
  rcases engineStep_cases h with ⟨-, rfl⟩ | ⟨-, -, x, -, rfl⟩ | ⟨hb, hp, -⟩
  · exact ⟨rfl, rfl, rfl, rfl⟩
  · exact ⟨rfl, rfl, rfl, rfl⟩
  · exact absurd ⟨hb, hp⟩ hop

/-- Settles O57: of the three things a step takes, the hypotheses leave the two that keep the results. -/
theorem onlyPhaseCompletionWritesResults : Obligations.OnlyPhaseCompletionWritesResults := by
  intro s t h hreset hphase
  rcases step_engine_or_host_or_reset h with ⟨hmoves, ht⟩ | ⟨e, rest, -, ht⟩ | ⟨hr, -⟩
  · exact engineStep_keeps_results (s := { s with events := s.events.tail }) ht fun hrun => hphase ⟨hmoves, hrun⟩
  · exact exec_keeps_results (s := { s with events := rest }) ht
  · exact absurd hr hreset

/-! ### BUSY (R36, R37) -/

/-- The instructions that carry the word TRANSFORM or PHASE to CTRL. -/
def StartsCommand (i : Instr) : Prop :=
  i = .transform ∨ i = .phase ∨ i = .wrCtrl 1#32 ∨ i = .wrCtrl 2#32

/-- An instruction raises BUSY only as the acceptance of a command, which clears DONE. -/
theorem exec_raises_busy {i : Instr} {s t : State} (h : exec i s = .next t) (hs : s.busy = false)
    (ht : t.busy = true) : t.done = false ∧ StartsCommand i := by
  cases exec_did h with
  | accept op hb hi =>
    refine ⟨by simp, ?_⟩
    unfold StartsCommand
    tauto
  | _ => simp [hs] at ht

/-- No instruction lowers BUSY. -/
theorem exec_keeps_busy {i : Instr} {s t : State} (h : exec i s = .next t) (hs : s.busy = true) :
    t.busy = true := by
  cases exec_did h <;> simp [hs]

/-- The engine never raises BUSY. -/
theorem engineStep_keeps_idle {s t : State} (h : engineStep s = .next t) (hs : s.busy = false) :
    t.busy = false := by
  rw [engineStep_of_idle hs] at h
  cases h
  exact hs

/-- The engine's step while BUSY is a completion, which sets DONE. -/
theorem engineStep_sets_done {s t : State} (h : engineStep s = .next t) (hs : s.busy = true) :
    t.done = true := by
  rcases engineStep_cases h with ⟨hb, -⟩ | ⟨-, -, x, -, rfl⟩ | ⟨-, -, r, -, rfl⟩
  · simp [hs] at hb
  · rfl
  · rfl

/-- Settles O58: only the acceptance raises BUSY, only the completion and the reset lower it. -/
theorem busyFollowsCommandLifeCycle : Obligations.BusyFollowsCommandLifeCycle := by
  intro s t h
  rcases step_engine_or_host_or_reset h with ⟨hmoves, hx⟩ | ⟨e, rest, he, hx⟩ | ⟨hr, rfl⟩
  · refine ⟨fun hs ht => ?_, fun hs _ => .inr ⟨hmoves, engineStep_sets_done hx hs⟩⟩
    simp [engineStep_keeps_idle hx hs] at ht
  · refine ⟨fun hs ht => ?_, fun hs ht => ?_⟩
    · obtain ⟨hdone, hi⟩ := exec_raises_busy hx hs ht
      exact ⟨hdone, e, rest, he, hi⟩
    · simp [exec_keeps_busy hx hs] at ht
  · exact ⟨fun _ ht => by simp at ht, fun _ _ => .inl hr⟩

/-! ### A full buffer (R51) -/

/-- With the buffer full, a decoded instruction finds the element it reads. -/
theorem exec_next_of_bufferFull {s : State} (hfull : bufferFull s) {i : Instr}
    (hi : bufIndexOk s.cfg.log2n i) : ∃ t, exec i s = .next t := by
  by_contra! hstop
  obtain ⟨e, rfl, -, hnone, -⟩ := exec_stops hstop
  simpa [hnone] using hfull e.toNat hi

/-- A buffer write adds an element and takes none away. -/
theorem exec_keeps_bufferFull {i : Instr} {s t : State} (h : exec i s = .next t) (hfull : bufferFull s) :
    bufferFull t := by
  cases exec_did h with
  | buf e d hi hb => exact fun f hf => readElement_isSome_writeElement (hfull f hf) _ _
  | _ => simpa [bufferFull] using hfull

/-- With the buffer full, PHASE finds the pair of a bin in range (R243). -/
theorem phaseResult_of_bufferFull {s : State} (hfull : bufferFull s) : ∃ r, phaseResult s = some r := by
  unfold phaseResult
  split
  · exact ⟨_, rfl⟩
  · next hk =>
    obtain ⟨re, hre⟩ := Option.isSome_iff_exists.1 (hfull (2 * s.lk.toNat) (by omega))
    obtain ⟨im, him⟩ := Option.isSome_iff_exists.1 (hfull (2 * s.lk.toNat + 1) (by omega))
    exact ⟨_, by rw [readPair_eq_some (p := (re, im)) |>.2 ⟨hre, him⟩, Option.map_some]⟩

/-- With the buffer full, the engine completes either command (R216, R243). -/
theorem engineStep_next_of_bufferFull {s : State} (hfull : bufferFull s) : ∃ t, engineStep s = .next t := by
  unfold engineStep
  split
  · split
    · have hread : (readPairs s.buf 0 s.cfg.size).isSome :=
        readPairs_isSome.2 fun e _ he => hfull e (by simpa using he)
      obtain ⟨x, hx⟩ := Option.isSome_iff_exists.1 hread
      exact ⟨_, by rw [completeTransform, hx]⟩
    · obtain ⟨r, hr⟩ := phaseResult_of_bufferFull hfull
      exact ⟨_, by rw [completePhase, hr]⟩
  · exact ⟨_, rfl⟩

/-- The engine takes no element away. -/
theorem engineStep_keeps_bufferFull {s t : State} (h : engineStep s = .next t) (hfull : bufferFull s) :
    bufferFull t := by
  rcases engineStep_cases h with ⟨-, rfl⟩ | ⟨-, -, x, -, rfl⟩ | ⟨-, -, r, -, rfl⟩
  · exact hfull
  · exact fun f hf => readElement_isSome_writePairs (hfull f hf) _ _
  · exact hfull

/-- With the buffer full, every event has its effect. -/
theorem eventStep_next_of_bufferFull {s : State} (hfull : bufferFull s) (event : Event) :
    ∃ t, eventStep event s = .next t := by
  cases event with
  | host e => rw [eventStep_host]; exact exec_next_of_bufferFull hfull (decode_bufIndexOk _ e)
  | engine => rw [eventStep_engine]; exact engineStep_next_of_bufferFull hfull
  | reset => exact ⟨_, eventStep_reset s⟩

theorem step_next_of_bufferFull {s : State} (hv : s.cfg.valid = true) (hfull : bufferFull s) :
    ∃ t, step s = .next t := by
  cases he : s.events with
  | nil => rw [step_of_events_nil hv he]; exact engineStep_next_of_bufferFull hfull
  | cons event rest =>
    rw [step_of_events_cons hv he]
    exact eventStep_next_of_bufferFull (s := { s with events := rest }) hfull event

theorem step_keeps_bufferFull {s t : State} (h : step s = .next t) (hreset : ¬ resets s)
    (hfull : bufferFull s) : bufferFull t := by
  rcases step_engine_or_host_or_reset h with ⟨-, hx⟩ | ⟨e, rest, -, hx⟩ | ⟨hr, -⟩
  · exact engineStep_keeps_bufferFull hx hfull
  · exact exec_keeps_bufferFull hx hfull
  · exact absurd hr hreset

/-- Settles O60: no step of a full buffer finds an unwritten element, and only a reset unwrites one. -/
theorem fullBufferNeverFaults : Obligations.FullBufferNeverFaults := by
  intro s hv hfull
  obtain ⟨t, ht⟩ := step_next_of_bufferFull hv hfull
  exact ⟨t, ht, fun hreset => step_keeps_bufferFull ht hreset hfull⟩

/-! ### The interrupt output (R56) -/

/-- Settles O8: the Boolean formula of R56, read as a proposition. -/
theorem interruptIsLevelOfEnabledFlags : Obligations.InterruptIsLevelOfEnabledFlags := by
  intro s
  simp only [irq, Bool.or_eq_true, Bool.and_eq_true, or_assoc]

/-! ### Reset (R57, R350) -/

/-- In an accepted build a reset event leaves the state of R57, with the build and the later events. -/
theorem step_of_reset {s : State} {rest : List Event} (hv : s.cfg.valid = true)
    (he : s.events = .reset :: rest) : step s = .next (State.resetOf s.cfg rest) := by
  rw [step_of_events_cons hv he, eventStep_reset, resetStep]

theorem irq_resetOf (c : Config) (l : List Event) : irq (State.resetOf c l) = false := rfl

/-- Settles O49: both halves read the fields of `State.resetOf`. -/
theorem resetGivesResetState : Obligations.ResetGivesResetState := by
  refine ⟨fun s rest hv he => ⟨_, step_of_reset hv he, ?_⟩, ?_⟩
  · exact ⟨rfl, rfl, rfl, rfl, rfl, rfl, rfl, rfl, rfl, rfl, rfl, rfl, rfl, rfl, rfl, irq_resetOf _ _,
      readElement_nil⟩
  · exact ⟨rfl, by decide, by decide, rfl, rfl, rfl, by decide, irq_resetOf _ _, readElement_nil⟩

/-- Settles O51: at reset no byte is written, PHASE is +0 and no flag is set. -/
theorem invariantAtReset : Obligations.InvariantAtReset where
  canonical := reset_buf_wf
  region := fun _ hc => nomatch hc
  whole := fun _ hc => nomatch hc
  phaseRange := by decide
  oneSentinel := ⟨rfl, rfl, rfl⟩
  busyNotDone := rfl

end Sys2Proof.Machine
end

section
/-! SUPPORT. The family 20_memory.md: the regions of the address map, and a running command's hold on the buffer. -/

namespace Sys2Proof.Machine

/-! ### The regions of the address map (R83, R84) -/

/-- From the buffer's base upwards no register is mapped, so only the three indexed regions are. -/
theorem mappedAddress_eq_false_iff {log2n a : Nat} (ha : 0x100000 ≤ a) :
    mappedAddress log2n a = false ↔
      0x100000 + 8 * 2 ^ log2n ≤ a ∧ (0x200000 ≤ a → 0x200000 + 4 * 2 ^ log2n ≤ a) ∧
        (0x300000 ≤ a → 0x300000 + 4 * 2 ^ log2n ≤ a) := by
  have hreg : registerOffset a = false := by simp [registerOffset]; omega
  simp [mappedAddress, hreg, ha, imp_iff_not_or, and_assoc]

/-- An aligned address of index `i` in a region decodes to the region's row at that index, below the
region's bound, and to row 14 of R112 from there on. -/
theorem decode_region {log2n : Nat} {we : Bool} {a : Addr} {d : Word} {w bound i : Nat}
    (row : BitVec w → Instr) (hi : i < 2 ^ w) (haligned : a.toNat % 4 = 0)
    (hrow : ∀ e : BitVec w, e.toNat = i → i < bound → decodeAligned log2n we a d = row e)
    (hrest : bound ≤ i → mappedAddress log2n a.toNat = false) :
    decode log2n (.hostbus (selector we a) d) =
      if i < bound then row (BitVec.ofNat w i) else .unmapped we a d := by
  rw [decode_aligned log2n we a d haligned]
  split
  · next hlt => exact hrow _ (by rw [BitVec.toNat_ofNat, Nat.mod_eq_of_lt hi]) hlt
  · next hge => exact decodeAligned_unmapped _ _ _ _ haligned (hrest (not_lt.1 hge))

/-- Row 11 of R112 takes the elements of the buffer, and row 14 what is left of its region (R83). -/
theorem decode_bufRegion (log2n : Nat) (we : Bool) {a : Addr} (d : Word) {i : Nat} (hi : i < 2 ^ 17)
    (ha : a.toNat = 0x100000 + 4 * i) :
    decode log2n (.hostbus (selector we a) d) =
      if i < 2 * 2 ^ log2n then
        (if we then .wrBuf (BitVec.ofNat 17 i) d else .rdBuf (BitVec.ofNat 17 i))
      else .unmapped we a d :=
  decode_region (fun e => if we then .wrBuf e d else .rdBuf e) hi (by omega)
    (fun e he hlt => decodeAligned_buf _ _ _ _ e (by rw [he, ha]) (by rwa [he]))
    (fun hge => (mappedAddress_eq_false_iff (by omega)).2 (by omega))

/-- Row 12 of R112 takes the entries of the Flat-Top bank, and row 14 what is left of its region (R84). -/
theorem decode_winFtRegion (log2n : Nat) (we : Bool) {a : Addr} (d : Word) {i : Nat} (hi : i < 2 ^ 16)
    (ha : a.toNat = 0x200000 + 4 * i) :
    decode log2n (.hostbus (selector we a) d) =
      if i < 2 ^ log2n then
        (if we then .wrWinFt (BitVec.ofNat 16 i) d else .rdWinFt (BitVec.ofNat 16 i))
      else .unmapped we a d :=
  decode_region (fun e => if we then .wrWinFt e d else .rdWinFt e) hi (by omega)
    (fun e he hlt => decodeAligned_winFt _ _ _ _ e (by rw [he, ha]) (by rwa [he]))
    (fun hge => (mappedAddress_eq_false_iff (by omega)).2 (by omega))

/-- Row 13 of R112 takes the entries of the Hann bank, and row 14 what is left of its region (R84). -/
theorem decode_winHnRegion (log2n : Nat) (we : Bool) {a : Addr} (d : Word) {i : Nat} (hi : i < 2 ^ 16)
    (ha : a.toNat = 0x300000 + 4 * i) :
    decode log2n (.hostbus (selector we a) d) =
      if i < 2 ^ log2n then
        (if we then .wrWinHn (BitVec.ofNat 16 i) d else .rdWinHn (BitVec.ofNat 16 i))
      else .unmapped we a d :=
  decode_region (fun e => if we then .wrWinHn e d else .rdWinHn e) hi (by omega)
    (fun e he hlt => decodeAligned_winHn _ _ _ _ e (by rw [he, ha]) (by rwa [he]))
    (fun hge => (mappedAddress_eq_false_iff (by omega)).2 (by omega))

/-- Settles O14: one decoding lemma per region. -/
theorem addressMapDecodes : Obligations.AddressMapDecodes := fun log2n we _ d _ =>
  ⟨decode_bufRegion log2n we d, decode_winFtRegion log2n we d, decode_winHnRegion log2n we d⟩

/-! ### While a command runs (R95(b), R282, R54) -/

/-- While BUSY every instruction answers a next state: the read of R301 that faults needs an idle block. -/
theorem exec_next_of_busy {s : State} (hb : s.busy = true) (i : Instr) : ∃ t, exec i s = .next t := by
  by_contra! hstop
  obtain ⟨e, -, hidle, -⟩ := exec_stops hstop
  simp [hb] at hidle

/-- The running command, its latches and the buffer it works on are the same in both states. -/
def SameCommand (s t : State) : Prop :=
  t.curOp = s.curOp ∧ t.lk = s.lk ∧ t.lcal = s.lcal ∧ t.buf = s.buf

/-- The instructions that write the buffer or the latches do so only while idle. -/
theorem exec_keeps_command {i : Instr} {s t : State} (h : exec i s = .next t) (hb : s.busy = true) :
    SameCommand s t := by
  cases exec_did h with
  | buf e d hi hidle => simp [hb] at hidle
  | accept op hidle hi => simp [hb] at hidle
  | _ => simp [SameCommand]

/-- Settles O53: while BUSY an instruction answers, and BUSY, the command and the results stay. -/
theorem runningCommandIsUndisturbed : Obligations.RunningCommandIsUndisturbed := by
  intro i s hb
  obtain ⟨t, ht⟩ := exec_next_of_busy hb i
  obtain ⟨hop, hlk, hlcal, hbuf⟩ := exec_keeps_command ht hb
  exact ⟨t, ht, exec_keeps_busy ht hb, hop, hlk, hlcal, hbuf, exec_keeps_results ht⟩

end Sys2Proof.Machine
end

section
/-! SUPPORT. The family 30_encoding.md: the decoder and the encoder are inverse to each other, up to the WDATA of a
read. -/

namespace Sys2Proof.Machine

/-! ### What each row of R112 decodes -/

/-- The library's `extractLsb'_append_eq_right` at the 22 bits of ADDR, where `simp` does not see the sum of widths. -/
@[simp] theorem lowBits_append (w : BitVec 20) (v : BitVec 2) :
    BitVec.extractLsb' 0 2 (w ++ v : Addr) = v :=
  BitVec.extractLsb'_append_eq_right

/-- The library's `extractLsb'_append_eq_left` at the 22 bits of ADDR. -/
@[simp] theorem wordAddr_of_append (w : BitVec 20) (v : BitVec 2) :
    BitVec.extractLsb' 2 20 (w ++ v : Addr) = w :=
  BitVec.extractLsb'_append_eq_left

/-- Row 1 of R112, ADDR[1:0] = 01. -/
theorem decode_misaligned01 (log2n : Nat) (we : Bool) (w : BitVec 20) (d : Word) :
    decode log2n (.hostbus (selector we (w ++ 0b01#2)) d) = .misaligned01 we w d := by
  simp [decode, decodeHostbus]

/-- Row 1 of R112, ADDR[1:0] = 10. -/
theorem decode_misaligned10 (log2n : Nat) (we : Bool) (w : BitVec 20) (d : Word) :
    decode log2n (.hostbus (selector we (w ++ 0b10#2)) d) = .misaligned10 we w d := by
  simp [decode, decodeHostbus]

/-- Row 1 of R112, ADDR[1:0] = 11. -/
theorem decode_misaligned11 (log2n : Nat) (we : Bool) (w : BitVec 20) (d : Word) :
    decode log2n (.hostbus (selector we (w ++ 0b11#2)) d) = .misaligned11 we w d := by
  simp [decode, decodeHostbus]

/-- Row 11 of R112, at the address that the encoder gives an element. -/
theorem decode_bufAddr {log2n : Nat} (we : Bool) {e : BitVec 17} (d : Word) (he : e.toNat < 2 * 2 ^ log2n) :
    decode log2n (.hostbus (selector we (bufAddr e)) d) = if we then .wrBuf e d else .rdBuf e := by
  have ha := toNat_bufAddr e
  rw [decode_aligned _ _ _ _ (by omega), decodeAligned_buf _ _ _ _ e ha he]

/-- Row 12 of R112, at the address that the encoder gives a Flat-Top entry. -/
theorem decode_winFtAddr {log2n : Nat} (we : Bool) {n : BitVec 16} (d : Word) (hn : n.toNat < 2 ^ log2n) :
    decode log2n (.hostbus (selector we (winFtAddr n)) d) = if we then .wrWinFt n d else .rdWinFt n := by
  have ha := toNat_winFtAddr n
  rw [decode_aligned _ _ _ _ (by omega), decodeAligned_winFt _ _ _ _ n ha hn]

/-- Row 13 of R112, at the address that the encoder gives a Hann entry. -/
theorem decode_winHnAddr {log2n : Nat} (we : Bool) {n : BitVec 16} (d : Word) (hn : n.toNat < 2 ^ log2n) :
    decode log2n (.hostbus (selector we (winHnAddr n)) d) = if we then .wrWinHn n d else .rdWinHn n := by
  have ha := toNat_winHnAddr n
  rw [decode_aligned _ _ _ _ (by omega), decodeAligned_winHn _ _ _ _ n ha hn]

/-- Row 14 of R112, at an aligned address outside every region. -/
theorem decode_unmappedAddr {log2n : Nat} (we : Bool) {a : Addr} (d : Word) (h4 : a.toNat % 4 = 0)
    (ha : mappedAddress log2n a.toNat = false) :
    decode log2n (.hostbus (selector we a) d) = .unmapped we a d := by
  rw [decode_aligned _ _ _ _ h4, decodeAligned_unmapped _ _ _ _ h4 ha]

/-- R115: a word from 3 on is reserved. -/
theorem decodeCmd_reserved {w : Word} (hw : 3 ≤ w.toNat) : decodeCmd w = .reservedCmd w := by
  have hne : ∀ k : Word, k.toNat < 3 → w ≠ k := by rintro k hk rfl; omega
  rw [decodeCmd, if_neg (hne _ (by decide)), if_neg (hne _ (by decide)), if_neg (hne _ (by decide))]

/-! ### Encoding, then decoding -/

/-- Settles O43: each row's encoding meets the fixed bits and the bound of its own row of R112, R114 or R115. The
registers' and the named commands' encodings are constants. No bound on LOG2N is
needed, since the index fields are read by their bits. -/
theorem decodeEncodeRoundTrip : Obligations.DecodeEncodeRoundTrip := by
  intro log2n i _ hi
  cases i with
  | misaligned01 we w d => exact decode_misaligned01 log2n we w d
  | misaligned10 we w d => exact decode_misaligned10 log2n we w d
  | misaligned11 we w d => exact decode_misaligned11 log2n we w d
  | rdBuf e => exact decode_bufAddr false _ (of_decide_eq_true hi)
  | wrBuf e d => exact decode_bufAddr true d (of_decide_eq_true hi)
  | rdWinFt n => exact decode_winFtAddr false _ (of_decide_eq_true hi)
  | wrWinFt n d => exact decode_winFtAddr true d (of_decide_eq_true hi)
  | rdWinHn n => exact decode_winHnAddr false _ (of_decide_eq_true hi)
  | wrWinHn n d => exact decode_winHnAddr true d (of_decide_eq_true hi)
  | unmapped we a d =>
    simp only [Instr.wellFormed, Bool.and_eq_true, decide_eq_true_eq, Bool.not_eq_true'] at hi
    obtain ⟨h4, hmap⟩ := hi
    exact decode_unmappedAddr we d h4 hmap
  | reservedCmd w => exact decodeCmd_reserved (of_decide_eq_true hi)
  | _ => rfl

/-! ### Decoding, then encoding -/

/-- The input with the WDATA of a read set to 0, as the encoder writes it (log 3). -/
def withoutReadData : Encoded → Encoded
  | .hostbus t d => .hostbus t (if selectorWe t then d else 0#32)
  | .cmd w => .cmd w

/-- The instruction stands for the input: its operands are in range, and its encoding is the input, or the input
without the WDATA of a read. -/
structure StandsFor (log2n : Nat) (i : Instr) (e : Encoded) : Prop where
  wellFormed : i.wellFormed log2n = true
  encoding : encode i = e ∨ encode i = withoutReadData e

/-- A read and a write row at one address: the write carries WDATA, the read drops it. -/
theorem standsFor_access {log2n : Nat} (we : Bool) {a : Addr} {d : Word} {rd wr : Instr}
    (hrd : rd.wellFormed log2n = true) (hwr : wr.wellFormed log2n = true)
    (erd : encode rd = encodeRead a) (ewr : encode wr = encodeWrite a d) :
    StandsFor log2n (if we then wr else rd) (.hostbus (selector we a) d) := by
  cases we with
  | false => exact ⟨hrd, .inr (by simp [erd, encodeRead, withoutReadData])⟩
  | true => exact ⟨hwr, .inl ewr⟩

/-- The nine registers of R82, each with its two rows of R112. -/
theorem decode_register_standsFor (log2n : Nat) (we : Bool) {a : Addr} (d : Word)
    (ha : registerOffset a.toNat = true) :
    StandsFor log2n (decode log2n (.hostbus (selector we a) d)) (.hostbus (selector we a) d) := by
  have hconst : ∀ k : Nat, a.toNat = k → a = BitVec.ofNat 22 k := by rintro _ rfl; simp
  simp only [registerOffset, Bool.or_eq_true, decide_eq_true_eq, or_assoc] at ha
  rw [decode_aligned _ _ _ _ (by omega)]
  rcases ha with h | h | h | h | h | h | h | h | h <;> obtain rfl := hconst _ h <;>
    exact standsFor_access we rfl rfl rfl rfl

/-- The regions of R81 by the encoder's addresses: a mapped aligned address is a register's, an element's or an
entry's. -/
theorem mappedAddress_cases {log2n : Nat} (hlog : log2n ≤ 16) {a : Addr} (h4 : a.toNat % 4 = 0)
    (h : mappedAddress log2n a.toNat = true) :
    registerOffset a.toNat = true ∨ (∃ e, e.toNat < 2 * 2 ^ log2n ∧ a = bufAddr e) ∨
      (∃ n, n.toNat < 2 ^ log2n ∧ a = winFtAddr n) ∨ (∃ n, n.toNat < 2 ^ log2n ∧ a = winHnAddr n) := by
  have hsize : 2 ^ log2n ≤ 2 ^ 16 := Nat.pow_le_pow_right (by decide) hlog
  simp only [mappedAddress, Bool.or_eq_true, Bool.and_eq_true, decide_eq_true_eq, or_assoc] at h
  rcases h with hreg | ⟨hlo, hhi⟩ | ⟨hlo, hhi⟩ | ⟨hlo, hhi⟩
  · exact .inl hreg
  · refine .inr (.inl ⟨BitVec.ofNat 17 ((a.toNat - 0x100000) / 4), ?_, BitVec.eq_of_toNat_eq ?_⟩)
    · rw [BitVec.toNat_ofNat]; omega
    · rw [toNat_bufAddr, BitVec.toNat_ofNat]; omega
  · refine .inr (.inr (.inl ⟨BitVec.ofNat 16 ((a.toNat - 0x200000) / 4), ?_, BitVec.eq_of_toNat_eq ?_⟩))
    · rw [BitVec.toNat_ofNat]; omega
    · rw [toNat_winFtAddr, BitVec.toNat_ofNat]; omega
  · refine .inr (.inr (.inr ⟨BitVec.ofNat 16 ((a.toNat - 0x300000) / 4), ?_, BitVec.eq_of_toNat_eq ?_⟩))
    · rw [BitVec.toNat_ofNat]; omega
    · rw [toNat_winHnAddr, BitVec.toNat_ofNat]; omega

/-- Rows 2 to 14 of R112: the address is mapped, and its region gives the row, or it is not. -/
theorem decode_aligned_standsFor {log2n : Nat} (hlog : log2n ≤ 16) (we : Bool) {a : Addr} (d : Word)
    (h4 : a.toNat % 4 = 0) :
    StandsFor log2n (decode log2n (.hostbus (selector we a) d)) (.hostbus (selector we a) d) := by
  cases hmap : mappedAddress log2n a.toNat with
  | false =>
    rw [decode_unmappedAddr we d h4 hmap]
    exact ⟨by simp [Instr.wellFormed, h4, hmap], .inl rfl⟩
  | true =>
    rcases mappedAddress_cases hlog h4 hmap with hreg | ⟨e, he, rfl⟩ | ⟨n, hn, rfl⟩ | ⟨n, hn, rfl⟩
    · exact decode_register_standsFor log2n we d hreg
    · rw [decode_bufAddr we d he]
      exact standsFor_access we (decide_eq_true he) (decide_eq_true he) rfl rfl
    · rw [decode_winFtAddr we d hn]
      exact standsFor_access we (decide_eq_true hn) (decide_eq_true hn) rfl rfl
    · rw [decode_winHnAddr we d hn]
      exact standsFor_access we (decide_eq_true hn) (decide_eq_true hn) rfl rfl

/-- R112: the two low bits of ADDR choose between row 1 and the rows of an aligned address. -/
theorem decode_hostbus_standsFor {log2n : Nat} (hlog : log2n ≤ 16) (we : Bool) (a : Addr) (d : Word) :
    StandsFor log2n (decode log2n (.hostbus (selector we a) d)) (.hostbus (selector we a) d) := by
  obtain ⟨w, v, rfl⟩ : ∃ (w : BitVec 20) (v : BitVec 2), a = w ++ v := ⟨_, _, (wordAddr_append a _ rfl).symm⟩
  have hv : ∀ v : BitVec 2, v = 0b00#2 ∨ v = 0b01#2 ∨ v = 0b10#2 ∨ v = 0b11#2 := by decide
  rcases hv v with rfl | rfl | rfl | rfl
  · exact decode_aligned_standsFor hlog we d ((lowBits_eq_iff _ _).1 (lowBits_append w _))
  · rw [decode_misaligned01]; exact ⟨rfl, .inl rfl⟩
  · rw [decode_misaligned10]; exact ⟨rfl, .inl rfl⟩
  · rw [decode_misaligned11]; exact ⟨rfl, .inl rfl⟩

/-- R114, R115: three words are named, and every other is at least 3. -/
theorem decode_cmd_standsFor (log2n : Nat) (w : Word) :
    StandsFor log2n (decode log2n (.cmd w)) (.cmd w) := by
  by_cases hw : 3 ≤ w.toNat
  · rw [show decode log2n (.cmd w) = .reservedCmd w from decodeCmd_reserved hw]
    exact ⟨decide_eq_true hw, .inl rfl⟩
  · have hnamed : w = 0#32 ∨ w = 1#32 ∨ w = 2#32 := by bv_omega
    rcases hnamed with rfl | rfl | rfl <;> exact ⟨rfl, .inl rfl⟩

/-- R110 to R115: what an input decodes to stands for it, in every build up to the largest. -/
theorem decode_standsFor {log2n : Nat} (hlog : log2n ≤ 16) (e : Encoded) :
    StandsFor log2n (decode log2n e) e := by
  cases e with
  | hostbus t d => rw [← selector_eta t]; exact decode_hostbus_standsFor hlog _ _ d
  | cmd w => exact decode_cmd_standsFor log2n w

/-- A window index field holds no index that the largest build leaves out (R116). -/
theorem winIndex_lt {log2n : Nat} (h : 16 ≤ log2n) (n : BitVec 16) : n.toNat < 2 ^ log2n :=
  n.isLt.trans_le (Nat.pow_le_pow_right two_pos h)

/-- A buffer index field holds no index that the largest build leaves out (R116). -/
theorem bufIndex_lt {log2n : Nat} (h : 16 ≤ log2n) (e : BitVec 17) : e.toNat < 2 * 2 ^ log2n :=
  e.isLt.trans_le (Nat.mul_le_mul_left 2 (Nat.pow_le_pow_right two_pos h))

/-- From LOG2N = 16 on, the bounds of R112 exclude no index, so the decoder tells no larger builds apart. -/
theorem decode_of_sixteen_le {log2n : Nat} (h : 16 ≤ log2n) (e : Encoded) : decode log2n e = decode 16 e := by
  cases e with
  | hostbus t d =>
    simp only [decode, decodeHostbus, decodeAligned, winIndex_lt h, winIndex_lt le_rfl, bufIndex_lt h,
      bufIndex_lt le_rfl]
  | cmd w => rfl

/-- Settles O44: an input decodes to a well-formed instruction that stands for it. -/
theorem decodeIsWellFormed : Obligations.DecodeIsWellFormed := fun _ e _ hlog =>
  (decode_standsFor hlog e).wellFormed

/-- In a build of any size, encoding what an input decodes to gives it back, up to the WDATA of a read. -/
theorem encode_decode (log2n : Nat) (e : Encoded) :
    encode (decode log2n e) = e ∨ encode (decode log2n e) = withoutReadData e := by
  rcases le_total log2n 16 with hlog | hlog
  · exact (decode_standsFor hlog e).encoding
  · rw [decode_of_sixteen_le hlog]
    exact (decode_standsFor le_rfl e).encoding

/-- Settles O45: `encode_decode` at a transaction, where only a read loses its WDATA. -/
theorem encodeDecodeKeepsTransaction : Obligations.EncodeDecodeKeepsTransaction := by
  intro log2n t d
  rcases encode_decode log2n (.hostbus t d) with h | h
  · exact ⟨d, h, .inl rfl⟩
  · refine ⟨_, h, ?_⟩
    cases hwe : selectorWe t with
    | false => exact .inr ⟨hwe, rfl⟩
    | true => exact .inl rfl

/-- Settles O46: the decoder evaluated on the nine inputs. -/
theorem sampleWordsDecode : Obligations.SampleWordsDecode := by
  unfold Obligations.SampleWordsDecode
  decide

end Sys2Proof.Machine
end

section
/-! SUPPORT. The family 40_numerics.md: the arithmetic primitives on finite numbers, signed zeros, infinities and
NaNs, and the arctangent of every build. -/

namespace Sys2Proof.Machine

/-! ### The exact operations by value class -/

theorem Num.eq_fin_of_isFinite {x : Num} (h : x.isFinite = true) : ∃ neg m e, x = .fin neg m e := by
  cases x with
  | nan => cases h
  | inf neg => cases h
  | fin neg m e => exact ⟨neg, m, e, rfl⟩

@[simp] theorem Num.nan_add (x : Num) : Num.nan.add x = .nan := rfl

@[simp] theorem Num.add_nan (x : Num) : x.add .nan = .nan := by cases x <;> rfl

@[simp] theorem Num.nan_mul (x : Num) : Num.nan.mul x = .nan := rfl

@[simp] theorem Num.mul_nan (x : Num) : x.mul .nan = .nan := by cases x <;> rfl

@[simp] theorem Num.negate_nan : Num.nan.negate = .nan := rfl

@[simp] theorem Num.negate_inf (a : Bool) : (Num.inf a).negate = .inf !a := rfl

theorem Num.isFinite_negate {x : Num} (h : x.isFinite = true) : x.negate.isFinite = true := by
  obtain ⟨neg, m, e, rfl⟩ := eq_fin_of_isFinite h
  rfl

theorem Num.inf_add_inf (a b : Bool) : (Num.inf a).add (.inf b) = if a = b then .inf a else .nan := rfl

theorem Num.inf_mul_inf (a b : Bool) : (Num.inf a).mul (.inf b) = .inf (a ^^ b) := rfl

/-- An infinity absorbs a finite number, on either side. -/
theorem Num.inf_add_of_isFinite (a : Bool) {x : Num} (h : x.isFinite = true) :
    (Num.inf a).add x = .inf a ∧ x.add (.inf a) = .inf a := by
  obtain ⟨neg, m, e, rfl⟩ := eq_fin_of_isFinite h
  exact ⟨rfl, rfl⟩

/-- A product with an infinity has the sign of both, and is none when the other factor is zero. -/
theorem Num.inf_mul_fin (a neg : Bool) (m : Nat) (e : Int) :
    (Num.inf a).mul (.fin neg m e) = (if m = 0 then .nan else .inf (a ^^ neg)) ∧
      (Num.fin neg m e).mul (.inf a) = (if m = 0 then .nan else .inf (a ^^ neg)) := by
  refine ⟨rfl, ?_⟩
  rw [Bool.xor_comm a neg]
  rfl

theorem Num.value_fin_eq_zero_iff (neg : Bool) (m : Nat) (e : Int) :
    (Num.fin neg m e).value = 0 ↔ m = 0 := by
  have hp := (two_zpow_pos e).ne'
  cases neg <;> simp [Num.value, hp]

theorem Num.value_fin_true_nonpos (m : Nat) (e : Int) : (Num.fin true m e).value ≤ 0 := by
  have hp : (0 : ℚ) ≤ m * 2 ^ e := mul_nonneg (Nat.cast_nonneg _) (two_zpow_pos e).le
  simpa [value_fin] using hp

/-- Two numbers with a zero sum are both negative only when both are −0. -/
theorem Num.both_negative_iff {a b : Bool} {m n : Nat} {e f : Int}
    (h : (Num.fin a m e).value + (Num.fin b n f).value = 0) :
    (a && b) = true ↔ (a = true ∧ m = 0) ∧ (b = true ∧ n = 0) := by
  rw [Bool.and_eq_true]
  refine ⟨?_, fun ⟨ha, hb⟩ => ⟨ha.1, hb.1⟩⟩
  rintro ⟨rfl, rfl⟩
  have hm := value_fin_true_nonpos m e
  have hn := value_fin_true_nonpos n f
  exact ⟨⟨rfl, (value_fin_eq_zero_iff true m e).1 (by linarith)⟩,
    rfl, (value_fin_eq_zero_iff true n f).1 (by linarith)⟩

/-! ### S -/

/-- A finite S pattern is its sign with a mantissa and an exponent, and the mantissa is 0 in the two zero
patterns only. -/
theorem numOfS_eq_fin {v : SBits} (h : (numOfS v).isFinite = true) :
    ∃ m e, numOfS v = .fin v.msb m e ∧ ∀ neg, v.msb = neg ∧ m = 0 ↔ v = packS neg 0 := by
  obtain ⟨-, m, e, hn, -, -, -, -, hmag⟩ := numOfS_finite h
  refine ⟨m, e, hn, fun neg => ?_⟩
  rw [hmag]
  constructor
  · rintro ⟨rfl, h0⟩
    rw [← h0, packS_eta]
  · rintro rfl
    exact ⟨msb_packS neg 0 (by norm_num), by cases neg <;> rfl⟩

/-- The sum of two finite numbers, rounded to S (R147): an exact zero is −0 only when both are −0. -/
theorem roundS_add_fin (a b : Bool) (m n : Nat) (e f : Int) :
    RoundsToS ((Num.fin a m e).value + (Num.fin b n f).value) (roundS ((Num.fin a m e).add (.fin b n f))) ∧
      ((Num.fin a m e).value + (Num.fin b n f).value = 0 →
        roundS ((Num.fin a m e).add (.fin b n f)) =
          if (a = true ∧ m = 0) ∧ (b = true ∧ n = 0) then 0x80000000#32 else 0#32) := by
  obtain ⟨neg, mant, hadd, hvalue, hzero⟩ := add_fin a b m n e f
  refine ⟨hadd ▸ hvalue ▸ (roundS_fin neg mant _).1, fun h => ?_⟩
  obtain ⟨rfl, rfl⟩ := hzero h
  simp only [hadd, ← Num.both_negative_iff h]
  cases (a && b) <;> rfl

/-- R147, addS of finite operands. -/
theorem addS_finite {a b : SBits} (ha : (numOfS a).isFinite = true) (hb : (numOfS b).isFinite = true) :
    RoundsToS ((numOfS a).value + (numOfS b).value) (addS a b) ∧
      ((numOfS a).value + (numOfS b).value = 0 →
        addS a b = if a = packS true 0 ∧ b = packS true 0 then 0x80000000#32 else 0#32) := by
  obtain ⟨m, e, hna, za⟩ := numOfS_eq_fin ha
  obtain ⟨n, f, hnb, zb⟩ := numOfS_eq_fin hb
  have h := roundS_add_fin a.msb b.msb m n e f
  simp only [za, zb] at h
  rwa [← hna, ← hnb] at h

/-- R147, subS of finite operands. -/
theorem subS_finite {a b : SBits} (ha : (numOfS a).isFinite = true) (hb : (numOfS b).isFinite = true) :
    RoundsToS ((numOfS a).value - (numOfS b).value) (subS a b) ∧
      ((numOfS a).value - (numOfS b).value = 0 →
        subS a b = if a = packS true 0 ∧ b = packS false 0 then 0x80000000#32 else 0#32) := by
  obtain ⟨m, e, hna, za⟩ := numOfS_eq_fin ha
  obtain ⟨n, f, hnb, zb⟩ := numOfS_eq_fin hb
  have h := roundS_add_fin a.msb (!b.msb) m n e f
  simp only [Bool.not_eq_true', za, zb] at h
  rwa [show Num.fin (!b.msb) n f = (numOfS b).negate by rw [hnb]; rfl, ← hna, value_negate,
    ← sub_eq_add_neg] at h

@[simp] theorem numOfS_roundS_inf (neg : Bool) : numOfS (roundS (.inf neg)) = .inf neg := numOfS_packS_inf neg

@[simp] theorem roundS_nan : roundS .nan = 0x7FC00000#32 := rfl

/-- Settles O40: `addS_finite` and `subS_finite`, and the other classes of `Num.add`. -/
theorem storageSumAndDifference : Obligations.StorageSumAndDifference := by
  intro a b
  refine ⟨fun ha hb => ?_, fun neg ha hb => ?_, fun neg ha hb => ?_, fun neg ha hb => ?_, fun hnan => ?_⟩
  · obtain ⟨hadd, hadd0⟩ := addS_finite ha hb
    obtain ⟨hsub, hsub0⟩ := subS_finite ha hb
    exact ⟨hadd, hsub, hadd0, hsub0⟩
  · have hplus (s : Bool) := Num.inf_add_of_isFinite s hb
    have hminus := Num.inf_add_of_isFinite neg (Num.isFinite_negate hb)
    simp [addS, subS, ha, hplus, hminus]
  · simp [addS, subS, ha, hb, Num.inf_add_inf]
  · simp [addS, subS, ha, hb, Num.inf_add_inf]
  · rcases hnan with h | h <;> simp [addS, subS, h]

/-! ### W -/

/-- A finite W pattern is its sign with a mantissa and an exponent, and the mantissa is 0 in the two zero
patterns only. -/
theorem numOfW_eq_fin {v : WBits} (h : (numOfW v).isFinite = true) :
    ∃ m e, numOfW v = .fin v.msb m e ∧ ∀ neg, v.msb = neg ∧ m = 0 ↔ v = packW neg 0 := by
  obtain ⟨-, m, e, hn, -, -, -, -, hmag⟩ := numOfW_finite h
  refine ⟨m, e, hn, fun neg => ?_⟩
  rw [hmag]
  constructor
  · rintro ⟨rfl, h0⟩
    rw [← h0, packW_eta]
  · rintro rfl
    exact ⟨msb_packW neg 0 (by norm_num), by cases neg <;> rfl⟩

/-- The sum of two finite numbers, rounded to W (R148): an exact zero is −0 only when both are −0. -/
theorem roundW_add_fin (a b : Bool) (m n : Nat) (e f : Int) :
    RoundsToW ((Num.fin a m e).value + (Num.fin b n f).value) (roundW ((Num.fin a m e).add (.fin b n f))) ∧
      ((Num.fin a m e).value + (Num.fin b n f).value = 0 →
        roundW ((Num.fin a m e).add (.fin b n f)) =
          if (a = true ∧ m = 0) ∧ (b = true ∧ n = 0) then 0x8000000000000000#64 else 0#64) := by
  obtain ⟨neg, mant, hadd, hvalue, hzero⟩ := add_fin a b m n e f
  refine ⟨hadd ▸ hvalue ▸ (roundW_fin neg mant _).1, fun h => ?_⟩
  obtain ⟨rfl, rfl⟩ := hzero h
  simp only [hadd, ← Num.both_negative_iff h]
  cases (a && b) <;> rfl

/-- R148, addW of finite operands. -/
theorem addW_finite {a b : WBits} (ha : (numOfW a).isFinite = true) (hb : (numOfW b).isFinite = true) :
    RoundsToW ((numOfW a).value + (numOfW b).value) (addW a b) ∧
      ((numOfW a).value + (numOfW b).value = 0 →
        addW a b = if a = packW true 0 ∧ b = packW true 0 then 0x8000000000000000#64 else 0#64) := by
  obtain ⟨m, e, hna, za⟩ := numOfW_eq_fin ha
  obtain ⟨n, f, hnb, zb⟩ := numOfW_eq_fin hb
  have h := roundW_add_fin a.msb b.msb m n e f
  simp only [za, zb] at h
  rwa [← hna, ← hnb] at h

/-- R148, subW of finite operands. -/
theorem subW_finite {a b : WBits} (ha : (numOfW a).isFinite = true) (hb : (numOfW b).isFinite = true) :
    RoundsToW ((numOfW a).value - (numOfW b).value) (subW a b) ∧
      ((numOfW a).value - (numOfW b).value = 0 →
        subW a b = if a = packW true 0 ∧ b = packW false 0 then 0x8000000000000000#64 else 0#64) := by
  obtain ⟨m, e, hna, za⟩ := numOfW_eq_fin ha
  obtain ⟨n, f, hnb, zb⟩ := numOfW_eq_fin hb
  have h := roundW_add_fin a.msb (!b.msb) m n e f
  simp only [Bool.not_eq_true', za, zb] at h
  rwa [show Num.fin (!b.msb) n f = (numOfW b).negate by rw [hnb]; rfl, ← hna, value_negate,
    ← sub_eq_add_neg] at h

/-- R148, mulW of finite operands: the sign is the exclusive or also where the product is zero or overflows. -/
theorem mulW_finite {a b : WBits} (ha : (numOfW a).isFinite = true) (hb : (numOfW b).isFinite = true) :
    RoundsToW ((numOfW a).value * (numOfW b).value) (mulW a b) ∧ (mulW a b).msb = (a.msb ^^ b.msb) := by
  obtain ⟨m, e, hna, -⟩ := numOfW_eq_fin ha
  obtain ⟨n, f, hnb, -⟩ := numOfW_eq_fin hb
  have hmul : mulW a b = roundW (.fin (a.msb ^^ b.msb) (m * n) (e + f)) := by rw [mulW, hna, hnb]; rfl
  rw [hna, hnb, ← mul_fin_value, hmul]
  exact roundW_fin _ _ _

@[simp] theorem numOfW_roundW_inf (neg : Bool) : numOfW (roundW (.inf neg)) = .inf neg := numOfW_packW_inf neg

@[simp] theorem roundW_nan : roundW .nan = 0x7FF8000000000000#64 := rfl

/-- R148, mulW of an infinity and a finite operand. -/
theorem mulW_inf_finite {a b : WBits} {neg : Bool} (ha : numOfW a = .inf neg)
    (hb : (numOfW b).isFinite = true) :
    ((numOfW b).value = 0 → mulW a b = 0x7FF8000000000000#64 ∧ mulW b a = 0x7FF8000000000000#64) ∧
      ((numOfW b).value ≠ 0 →
        numOfW (mulW a b) = .inf (neg ^^ b.msb) ∧ numOfW (mulW b a) = .inf (neg ^^ b.msb)) := by
  obtain ⟨n, f, hnb, -⟩ := numOfW_eq_fin hb
  obtain ⟨hleft, hright⟩ := Num.inf_mul_fin neg b.msb n f
  rw [mulW, mulW, ha, hnb, ne_eq, Num.value_fin_eq_zero_iff, hleft, hright]
  exact ⟨fun h0 => by simp [h0], fun h0 => by simp [h0]⟩

/-- Settles O41: the lemmas of addW, subW and mulW on finite operands, and the other classes of `Num.add` and
`Num.mul`. -/
theorem wideArithmetic : Obligations.WideArithmetic := by
  intro a b
  refine ⟨fun ha hb => ?_, fun neg ha hb => ?_, fun neg other ha hb => ⟨?_, ?_, ?_⟩, fun hnan => ?_⟩
  · obtain ⟨hadd, hadd0⟩ := addW_finite ha hb
    obtain ⟨hsub, hsub0⟩ := subW_finite ha hb
    exact ⟨hadd, hsub, hadd0, hsub0, mulW_finite ha hb⟩
  · have hplus (s : Bool) := Num.inf_add_of_isFinite s hb
    have hminus := Num.inf_add_of_isFinite neg (Num.isFinite_negate hb)
    obtain ⟨hmul0, hmul⟩ := mulW_inf_finite ha hb
    refine ⟨?_, ?_, ?_, ?_, hmul0, hmul⟩ <;> simp [addW, subW, ha, hplus, hminus]
  · simp [mulW, ha, hb, Num.inf_mul_inf]
  · rintro rfl
    simp [addW, subW, ha, hb, Num.inf_add_inf]
  · intro hne
    obtain rfl : other = !neg := by simpa [Bool.eq_not] using hne
    simp [addW, subW, ha, hb, Num.inf_add_inf]
  · rcases hnan with h | h <;> simp [addW, subW, mulW, h]

/-! ### The conversions -/

/-- A finite S number lies below the overflow threshold of W. -/
theorem mantS_lt_threshold_W {mant : Nat} {exp : Int} (hm : mant < 2 ^ 24) (he : exp ≤ 104) :
    (mant : ℚ) * 2 ^ exp < (2 ^ 53 - 1 / 2) * 2 ^ 971 := by
  have hm' : (mant : ℚ) < 2 ^ 53 - 1 / 2 := by
    have : (mant : ℚ) < 2 ^ 24 := by exact_mod_cast hm
    linarith
  have he' : (2 : ℚ) ^ exp ≤ 2 ^ 971 := by
    rw [← zpow_natCast]
    exact zpow_le_zpow_right₀ (by norm_num) (by omega)
  exact mul_lt_mul hm' he' (two_zpow_pos exp) (by norm_num)

/-- Settles O38: W holds every finite S number, so that the one rounding changes nothing. -/
theorem wideningIsExact : Obligations.WideningIsExact := by
  intro s
  refine ⟨fun hs => ?_, fun neg hs => ?_, fun hs => ?_⟩
  · obtain ⟨-, m, e, hn, hm, hlo, hhi, -⟩ := numOfS_finite hs
    obtain ⟨hfin, hvalue⟩ := roundW_fin_exact s.msb m e (by omega) (by omega) (mantS_lt_threshold_W hm hhi)
    rw [toW, hn]
    exact ⟨hfin, hvalue, (roundW_fin _ _ _).2⟩
  · simp [toW, hs]
  · simp [toW, hs]

/-- Settles O39: `roundS_fin` at the finite number of the W pattern. -/
theorem narrowingRoundsToNearestEven : Obligations.NarrowingRoundsToNearestEven := by
  intro w
  refine ⟨fun hw => ?_, fun neg hw => ?_, fun hw => ?_⟩
  · obtain ⟨m, e, hn, -⟩ := numOfW_eq_fin hw
    rw [toS, hn]
    exact roundS_fin _ _ _
  · simp [toS, hw]
  · simp [toS, hw]

/-! ### The remainder -/

/-- A mantissa at a scale below its exponent stands for the same number. -/
theorem Num.value_rescale (neg : Bool) (m : Nat) {e scale : Int} (h : scale ≤ e) :
    (Num.fin neg m e).value = (Num.fin neg (m * 2 ^ (e - scale).toNat) scale).value := by
  rw [← value_signedMant neg m e scale h, ← value_signedMant neg _ scale scale le_rfl]
  simp [signedMant]

/-- The remainder of two mantissas at the smaller exponent is no larger than one of the mantissas, so that it
needs no more bits. -/
theorem rescaled_mod_lt {m n bound : Nat} (e f : Int) (hm : m < bound) (hn : n < bound) (hn0 : n ≠ 0) :
    m * 2 ^ (e - min e f).toNat % (n * 2 ^ (f - min e f).toNat) < bound := by
  rcases le_total e f with h | h
  · rw [min_eq_left h, sub_self, Int.toNat_zero, pow_zero, mul_one]
    exact (Nat.mod_le _ _).trans_lt hm
  · rw [min_eq_right h, sub_self, Int.toNat_zero, pow_zero, mul_one]
    exact (Nat.mod_lt _ (Nat.pos_of_ne_zero hn0)).trans hn

/-- The quotient of two numbers with one exponent, truncated toward zero. -/
def truncQuotient (a b : Bool) (m n : Nat) : Int := (if a ^^ b then -1 else 1) * (m / n : Nat)

/-- `truncQuotient` is the quotient rounded toward zero, and leaves the remainder of the mantissas. -/
theorem truncQuotient_spec (a b : Bool) (m : Nat) {n : Nat} (e : Int) (hn : n ≠ 0) :
    (Num.fin a (m % n) e).value = (Num.fin a m e).value - (Num.fin b n e).value * truncQuotient a b m n ∧
      |(truncQuotient a b m n : ℚ)| = ⌊|(Num.fin a m e).value / (Num.fin b n e).value|⌋ ∧
      0 ≤ truncQuotient a b m n * ((Num.fin a m e).value / (Num.fin b n e).value) := by
  have hp := (two_zpow_pos e).ne'
  have hn' : (n : ℚ) ≠ 0 := by exact_mod_cast hn
  have hcast : (truncQuotient a b m n : ℚ) = (if a ^^ b then -1 else 1) * (m / n : Nat) := by
    unfold truncQuotient; push_cast; rfl
  have hquot : (Num.fin a m e).value / (Num.fin b n e).value = (if a ^^ b then -1 else 1) * (m / n) := by
    rw [value_fin, value_fin]
    cases a <;> cases b <;> simp <;> field_simp
  have hdiv : (m : ℚ) = n * (m / n : Nat) + (m % n : Nat) := by exact_mod_cast (Nat.div_add_mod m n).symm
  rw [hquot, hcast]
  refine ⟨?_, ?_, ?_⟩
  · rw [value_fin, value_fin, value_fin, hdiv]
    cases a <;> cases b <;> simp <;> ring
  · rw [abs_signed _ (by positivity), abs_signed _ (by positivity), Rat.floor_natCast_div_natCast]
    rfl
  · have : (0 : ℚ) ≤ (m / n : Nat) * (m / n) := by positivity
    cases (a ^^ b) <;> simpa using this

theorem Num.abs_value_fin (neg : Bool) (m : Nat) (e : Int) : |(Num.fin neg m e).value| = m * 2 ^ e := by
  rw [value_fin, abs_signed neg (mul_nonneg (Nat.cast_nonneg _) (two_zpow_pos e).le)]

/-- A remainder at the exponent of a finite divisor is below the divisor, so that it is kept by rounding when it
has no more than 53 bits. -/
theorem roundW_mod_exact (a b : Bool) (m : Nat) {n : Nat} {e : Int} (hn : n ≠ 0) (hbits : m % n < 2 ^ 53)
    (he : -1074 ≤ e) (hmax : |(Num.fin b n e).value| ≤ (2 ^ 53 - 1) * 2 ^ 971) :
    (numOfW (roundW (.fin a (m % n) e))).isFinite = true ∧
      (numOfW (roundW (.fin a (m % n) e))).value = (Num.fin a (m % n) e).value ∧
      |(Num.fin a (m % n) e).value| < |(Num.fin b n e).value| := by
  have hbelow : ((m % n : Nat) : ℚ) * 2 ^ e < n * 2 ^ e :=
    mul_lt_mul_of_pos_right (by exact_mod_cast Nat.mod_lt m (Nat.pos_of_ne_zero hn)) (two_zpow_pos e)
  rw [Num.abs_value_fin] at hmax
  obtain ⟨hfin, hvalue⟩ :=
    roundW_fin_exact a (m % n) e hbits he (hbelow.trans (hmax.trans_lt max_lt_threshold_W))
  rw [Num.abs_value_fin, Num.abs_value_fin]
  exact ⟨hfin, hvalue, hbelow⟩

/-- Settles O42: at the smaller exponent both operands are integers, whose remainder W holds exactly. -/
theorem remainderIsExact : Obligations.RemainderIsExact := by
  intro x y hx hy hy0
  obtain ⟨-, m, e, hnx, hm, he, -⟩ := numOfW_finite hx
  obtain ⟨-, n, f, hny, hn, hf, -⟩ := numOfW_finite hy
  have hn0 : n ≠ 0 := by rwa [hny, ne_eq, Num.value_fin_eq_zero_iff] at hy0
  have hmod : fmodW x y = roundW (.fin x.msb
      (m * 2 ^ (e - min e f).toNat % (n * 2 ^ (f - min e f).toNat)) (min e f)) := by
    simp [fmodW, hnx, hny, Num.fmod, hn0]
  have hdivisor : n * 2 ^ (f - min e f).toNat ≠ 0 := by positivity
  have hmax := abs_value_numOfW_lt hy
  rw [hny, Num.value_rescale _ _ (min_le_right e f)] at hmax
  rw [hmod, hnx, hny, Num.value_rescale _ _ (min_le_left e f), Num.value_rescale _ _ (min_le_right e f)]
  obtain ⟨hfin, hvalue, hbelow⟩ := roundW_mod_exact x.msb y.msb (m * 2 ^ (e - min e f).toNat) hdivisor
    (rescaled_mod_lt e f hm hn hn0) (le_min he hf) hmax
  rw [hvalue]
  exact ⟨hfin, (roundW_fin _ _ _).2, hbelow, _, truncQuotient_spec _ _ _ _ hdivisor⟩

/-! ### The arctangent (R153 to R157) -/

/-- R156(e) and R157, for the real angle `θ` and the result `v` of a build. -/
def MeetsAngle (cfg : Config) (θ : ℝ) (v : WBits) : Prop :=
  (1 / 2 ≤ cfg.atan2Ulps → WithinUlps cfg.atan2Ulps θ v) ∧
    (cfg.atan2 = .correctlyRounded → NearestW θ v ∧ WithinUlps (1 / 2) θ v)

/-- The rounded angle will do in every build. -/
theorem Middles.meetsAngle {θ : ℝ} {mag : Nat} (h : Middles θ mag) (hpos : 0 < θ) (hirr : Irrational θ)
    (cfg : Config) (neg : Bool) : MeetsAngle cfg ((if neg then -1 else 1) * θ) (packW neg mag) :=
  ⟨h.half_ulp hpos neg, fun _ => ⟨h.nearest hpos hirr neg, h.half_ulp hpos neg le_rfl⟩⟩

/-- A zero of either sign is the angle 0, exactly. -/
theorem meetsAngle_zero (cfg : Config) (neg : Bool) : MeetsAngle cfg 0 (packW neg 0) := by
  obtain ⟨hfin, hvalue⟩ := value_packW (neg := neg) (mag := 0) (by norm_num [infMagW])
  have h0 : (numOfW (packW neg 0)).value = 0 := by simp [hvalue, magValue]
  have hwithin (ulps : ℚ) (hu : 1 / 2 ≤ ulps) : WithinUlps ulps 0 (packW neg 0) := by
    have hu' : (0 : ℝ) ≤ ulps := by exact_mod_cast (by linarith : 0 ≤ ulps)
    refine ⟨-1074, le_rfl, .inl rfl, by simp, ?_⟩
    rw [h0, Rat.cast_zero, sub_zero, abs_zero]
    positivity
  refine ⟨hwithin _, fun _ => ⟨⟨hfin, fun u _ => ?_⟩, hwithin _ le_rfl⟩⟩
  rw [h0, Rat.cast_zero, sub_zero, abs_zero]
  exact ⟨abs_nonneg _, fun h => .inl (by simpa using h.symm)⟩

/-- Off the axes, what a build answers will do for the angle of the ray. -/
theorem Ray.magOf_meetsAngle (r : Ray) (cfg : Config) (y x : WBits) (neg : Bool) :
    MeetsAngle cfg ((if neg then -1 else 1) * rayAngle r) (packW neg (r.magOf cfg y x)) := by
  refine ⟨fun hu => magOf_within r cfg y x hu neg, fun hdefault => ?_⟩
  rw [magOf_default r cfg y x hdefault]
  exact ((rounded_middles r).meetsAngle (rayAngle_pos r) (irrational_rayAngle r) cfg neg).2 hdefault

/-- The sign bit of a finite W value other than zero. -/
theorem msb_of_value_ne_zero {v : WBits} (h : (numOfW v).isFinite = true) (h0 : (numOfW v).value ≠ 0) :
    v.msb = decide ((numOfW v).value < 0) := by
  have hmag := magValue_nonneg 52 (-1074) (v.toNat % 2 ^ 63)
  rw [value_numOfW h] at h0 ⊢
  cases hs : v.msb with
  | false => simpa using hmag
  | true =>
    rw [hs] at h0
    simpa using lt_of_le_of_ne hmag (by simpa [eq_comm] using h0)

/-- R155 on the x axis. -/
theorem atan2R_x_axis {y x : WBits} (hy0 : (numOfW y).value = 0) :
    atan2R y x = if (numOfW x).value < 0 then Real.pi else 0 := by
  rw [atan2R, hy0, Rat.cast_zero]
  split
  · next h => exact Complex.arg_ofReal_of_neg (by exact_mod_cast h)
  · next h => exact Complex.arg_ofReal_of_nonneg (by exact_mod_cast not_lt.1 h)

/-- R155 on the y axis. -/
theorem atan2R_y_axis {y x : WBits} (hy : (numOfW y).isFinite = true) (hy0 : (numOfW y).value ≠ 0)
    (hx0 : (numOfW x).value = 0) : atan2R y x = (if y.msb then -1 else 1) * (Real.pi / 2) := by
  have hs := msb_of_value_ne_zero hy hy0
  have hpi := Real.pi_pos
  rw [atan2R, hx0, Rat.cast_zero]
  rcases lt_or_gt_of_ne hy0 with h | h
  · rw [decide_eq_true h] at hs
    have hcast : ((numOfW y).value : ℝ) < 0 := by exact_mod_cast h
    refine arg_of_polar (neg_pos.2 hcast) ?_ ?_ ?_ ?_ <;> simp [hs] <;> linarith
  · rw [decide_eq_false h.not_gt] at hs
    have hcast : (0 : ℝ) < (numOfW y).value := by exact_mod_cast h
    refine arg_of_polar hcast ?_ ?_ ?_ ?_ <;> simp [hs] <;> linarith

section
variable (cfg : Config) {y x : WBits} (hy : (numOfW y).isFinite = true) (hx : (numOfW x).isFinite = true)
include hy hx

/-- R156(c) on the x axis. -/
theorem atan2_x_axis (hy0 : (numOfW y).value = 0) (hx0 : (numOfW x).value ≠ 0) :
    atan2 cfg y x = packW y.msb (if (numOfW x).value < 0 then pi64 else 0) := by
  obtain ⟨m, e, hny, -⟩ := numOfW_eq_fin hy
  obtain ⟨n, f, hnx, -⟩ := numOfW_eq_fin hx
  have hm : m = 0 := by rwa [hny, Num.value_fin_eq_zero_iff] at hy0
  have hn : n ≠ 0 := by rwa [hnx, ne_eq, Num.value_fin_eq_zero_iff] at hx0
  have hatan : atan2 cfg y x = if x.msb then packW y.msb pi64 else packW y.msb 0 := by
    simp only [atan2, hny, hnx, hm, hn, dite_true, if_false]
  rw [hatan, msb_of_value_ne_zero hx hx0, apply_ite (packW y.msb)]
  simp only [decide_eq_true_eq]

/-- R156(c) on the y axis. -/
theorem atan2_y_axis (hy0 : (numOfW y).value ≠ 0) (hx0 : (numOfW x).value = 0) :
    atan2 cfg y x = packW y.msb halfPi64 := by
  obtain ⟨m, e, hny, -⟩ := numOfW_eq_fin hy
  obtain ⟨n, f, hnx, -⟩ := numOfW_eq_fin hx
  have hm : m ≠ 0 := by rwa [hny, ne_eq, Num.value_fin_eq_zero_iff] at hy0
  have hn : n = 0 := by rwa [hnx, Num.value_fin_eq_zero_iff] at hx0
  simp only [atan2, hny, hnx, hm, hn, dite_true, dite_false]

/-- The result is the sign of y with a magnitude that R156(b) allows, and it is near the real angle, but for
(−0, x) with x < 0. -/
theorem atan2_packW (hne : (numOfW y).value ≠ 0 ∨ (numOfW x).value ≠ 0) :
    ∃ mag ≤ pi64, atan2 cfg y x = packW y.msb mag ∧
      ((numOfW y).value ≠ 0 ∨ 0 < (numOfW x).value ∨ y.msb = false →
        MeetsAngle cfg (atan2R y x) (packW y.msb mag)) := by
  by_cases hy0 : (numOfW y).value = 0
  · refine ⟨_, ?_, atan2_x_axis cfg hy hx hy0 (hne.resolve_left (not_not_intro hy0)), fun h => ?_⟩
    · split <;> simp [pi64]
    · rw [atan2R_x_axis hy0]
      split
      · next hneg =>
        have hs : y.msb = false := (h.resolve_left (not_not_intro hy0)).resolve_left hneg.not_gt
        simpa [hs] using middles_pi.meetsAngle Real.pi_pos irrational_pi cfg false
      · exact meetsAngle_zero cfg y.msb
  · by_cases hx0 : (numOfW x).value = 0
    · refine ⟨halfPi64, by decide, atan2_y_axis cfg hy hx hy0 hx0, fun _ => ?_⟩
      rw [atan2R_y_axis hy hy0 hx0]
      exact middles_half_pi.meetsAngle Real.pi_div_two_pos (irrational_pi.div_natCast two_ne_zero) cfg y.msb
    · obtain ⟨r, hatan, hangle⟩ := atan2_off_axes cfg y x hy hx hy0 hx0
      exact ⟨_, magOf_le r cfg y x, hatan, fun _ => hangle ▸ r.magOf_meetsAngle cfg y x y.msb⟩

end

/-- Settles O36: (c) is what ATAN2 does on the axes, and the rest follows from the sign and the magnitude of
`atan2_packW`. -/
theorem arctangentBoundsInEveryBuild : Obligations.ArctangentBoundsInEveryBuild := by
  intro cfg y x hy hx hne
  obtain ⟨mag, hmag, hatan, hangle⟩ := atan2_packW cfg hy hx hne
  have hlt : mag < 2 ^ 63 := hmag.trans_lt (by norm_num [pi64])
  refine ⟨?_, fun hy0 hpos => ?_, fun hy0 hneg => ?_, fun hx0 => ?_, fun _ => ?_, fun h => ?_⟩
  · rw [hatan, toNat_packW _ _ hlt]
    unfold pi64 at hmag
    split <;> omega
  · rw [atan2_x_axis cfg hy hx hy0 hpos.ne', if_neg hpos.not_gt]
  · rw [atan2_x_axis cfg hy hx hy0 hneg.ne, if_pos hneg]
    rfl
  · exact atan2_y_axis cfg hy hx (hne.resolve_right (not_not_intro hx0)) hx0
  · rw [hatan, msb_packW _ _ hlt]
  · rw [hatan]
    exact hangle h

end Sys2Proof.Machine
end

section
/-! SUPPORT. The family 41_window.md: what the two window banks hold, and the reads of their entries. -/

namespace Sys2Proof.Machine

/-! ### The reads of an entry (R186, R187) -/

/-- A selector whose address is given by its region, index and low bits: WE comes first (R111). -/
theorem selector_append (we : Bool) (region : BitVec 4) (n : BitVec 16) (low : BitVec 2) :
    selector we (region ++ n ++ low) = BitVec.cons we region ++ n ++ low := by
  rw [BitVec.cons_append_append, BitVec.cast_eq, selector]

theorem exec_rdWinFt (n : BitVec 16) (s : State) :
    exec (.rdWinFt n) s = .next (respond .okay (winFt s.cfg.log2n n.toNat) s) := rfl

theorem exec_rdWinHn (n : BitVec 16) (s : State) :
    exec (.rdWinHn n) s = .next (respond .okay (winHn s.cfg.log2n n.toNat) s) := rfl

/-- Settles O13: the selectors are those of the entries' addresses, which rows 12 and 13 of R112 decode, and each
read answers the ROM's entry whatever BUSY is. -/
theorem windowRead : Obligations.WindowRead := by
  intro n s
  refine ⟨fun log2n d hn => ⟨?_, ?_⟩, exec_rdWinFt n s, exec_rdWinHn n s⟩
  · exact selector_append false 0b1000#4 n 0b00#2 ▸ decode_winFtAddr false d hn
  · exact selector_append false 0b1100#4 n 0b00#2 ▸ decode_winHnAddr false d hn

/-! ### Symmetry and ends of the banks (R185) -/

/-- Mirrored indices share the index of the first half. -/
theorem windowIndex_mirror {log2n n : Nat} (hn : n < 2 ^ log2n) :
    windowIndex log2n (2 ^ log2n - 1 - n) = windowIndex log2n n := by
  simp only [windowIndex]
  omega

@[simp] theorem windowIndex_zero (log2n : Nat) : windowIndex log2n 0 = 0 := Nat.zero_min _

/-- An entry of the Flat-Top bank depends on the index of the first half only. -/
theorem winFt_congr {log2n m n : Nat} (h : windowIndex log2n m = windowIndex log2n n) :
    winFt log2n m = winFt log2n n := by
  simp only [winFt, h]

/-- An entry of the Hann bank depends on the index of the first half only. -/
theorem winHn_congr {log2n m n : Nat} (h : windowIndex log2n m = windowIndex log2n n) :
    winHn log2n m = winHn log2n n := by
  simp only [winHn, h]

@[simp] theorem winFt_zero (log2n : Nat) : winFt log2n 0 = 0#32 := by simp [winFt]

@[simp] theorem winHn_zero (log2n : Nat) : winHn log2n 0 = 0#32 := by simp [winHn]

/-- Settles O15: mirrored entries are one coefficient, and the ends are the index 0. -/
theorem windowSymmetricWithZeroEnds : Obligations.WindowSymmetricWithZeroEnds := by
  intro log2n n hn
  have hmirror := (windowIndex_mirror hn).symm
  exact ⟨winFt_congr hmirror, winHn_congr hmirror, winFt_zero log2n, winHn_zero log2n⟩

/-! ### The entries at N = 4 (R180 to R184) -/

/-- The Flat-Top window (R180, R182) as a polynomial in the cosine of its angle. -/
def flatTopOfCos (c : ℚ) : ℚ :=
  1 - 1.93 * c + 1.29 * (2 * c ^ 2 - 1) - 0.388 * (4 * c ^ 3 - 3 * c) + 0.028 * (2 * (2 * c ^ 2 - 1) ^ 2 - 1)

/-- The Hann window (R181) as a polynomial in the cosine of its angle. -/
def hannOfCos (c : ℚ) : ℚ := 0.5 * (1 - c)

/-- R180 at an angle whose cosine is rational. -/
theorem cast_flatTopOfCos {θ : ℝ} {c : ℚ} (hc : Real.cos θ = c) :
    (flatTopOfCos c : ℝ) = 1 - 1.93 * Real.cos θ + 1.29 * Real.cos (2 * θ) - 0.388 * Real.cos (3 * θ)
      + 0.028 * Real.cos (4 * θ) := by
  have h4 : Real.cos (4 * θ) = 2 * (2 * Real.cos θ ^ 2 - 1) ^ 2 - 1 := by
    rw [show 4 * θ = 2 * (2 * θ) by ring, Real.cos_two_mul, Real.cos_two_mul]
  rw [h4, Real.cos_two_mul, Real.cos_three_mul, hc]
  norm_num [flatTopOfCos]

/-- R181 at an angle whose cosine is rational. -/
theorem cast_hannOfCos {θ : ℝ} {c : ℚ} (hc : Real.cos θ = c) :
    (hannOfCos c : ℝ) = 0.5 * (1 - Real.cos θ) := by
  rw [hc]
  norm_num [hannOfCos]

/-- θ of R180 and R181 at N = 4, where n is an end: no turn or a whole one. -/
theorem cos_end {n : Nat} (hn : n = 0 ∨ n = 3) : Real.cos (2 * Real.pi * n / 3) = ((1 : ℚ) : ℝ) := by
  rcases hn with rfl | rfl <;> simp

/-- θ of R180 and R181 at N = 4, where n is inside: a third of a turn from an end. -/
theorem cos_inside {n : Nat} (hn : n = 1 ∨ n = 2) : Real.cos (2 * Real.pi * n / 3) = ((-1 / 2 : ℚ) : ℝ) := by
  have hthird : Real.cos (2 * Real.pi / 3) = -1 / 2 := by
    rw [show 2 * Real.pi / 3 = Real.pi - Real.pi / 3 by ring, Real.cos_pi_sub, Real.cos_pi_div_three, neg_div]
  push_cast
  rcases hn with rfl | rfl
  · rwa [Nat.cast_one, mul_one]
  · rw [← hthird, ← Real.cos_two_pi_sub]
    congr 1
    push_cast
    ring

/-- Only a number below the overflow threshold rounds to a finite value of S. -/
theorem RoundsToS.abs_lt_threshold {r : ℚ} {v : SBits} (hv : (numOfS v).isFinite = true) (h : RoundsToS r v) :
    |r| < (2 ^ 24 - 1 / 2) * 2 ^ 104 := by
  by_contra hge
  rw [RoundsToS, if_neg hge] at h
  rw [h, numOfS_packS_inf] at hv
  exact Bool.noConfusion hv

/-- What is as near to the lower of two values as to the upper is so downwards too, and a tie is at that point only. -/
theorem nearer_of_le {x y r s : ℚ} (hxy : x < y) (hrs : r ≤ s) (hs : |x - s| ≤ |y - s|) :
    |x - r| ≤ |y - r| ∧ (|x - r| = |y - r| → s = r) := by grind

/-- What is as near to the upper of two values as to the lower is so upwards too, and a tie is at that point only. -/
theorem nearer_of_ge {x y r s : ℚ} (hyx : y < x) (hsr : s ≤ r) (hs : |x - s| ≤ |y - s|) :
    |x - r| ≤ |y - r| ∧ (|x - r| = |y - r| → s = r) := by grind

/-- A number between two that round to one finite value of S rounds to it: against a value above it the upper of
the two bounds is the witness, against a value below it the lower. -/
theorem RoundsToS.of_between {lo r hi : ℚ} {v : SBits} (hlo : RoundsToS lo v) (hhi : RoundsToS hi v)
    (hv : (numOfS v).isFinite = true) (hlr : lo ≤ r) (hrh : r ≤ hi) : RoundsToS r v := by
  have hltLo := hlo.abs_lt_threshold hv
  have hltHi := hhi.abs_lt_threshold hv
  have hlt : |r| < (2 ^ 24 - 1 / 2) * 2 ^ 104 :=
    abs_lt.2 ⟨(abs_lt.1 hltLo).1.trans_le hlr, hrh.trans_lt (abs_lt.1 hltHi).2⟩
  rw [RoundsToS, if_pos hltLo] at hlo
  rw [RoundsToS, if_pos hltHi] at hhi
  rw [RoundsToS, if_pos hlt]
  refine ⟨hv, fun u hu => ?_⟩
  obtain ⟨hnearLo, htieLo⟩ := hlo.2 u hu
  obtain ⟨hnearHi, htieHi⟩ := hhi.2 u hu
  rcases lt_trichotomy (numOfS v).value (numOfS u).value with habove | heq | hbelow
  · obtain ⟨hnear, hpoint⟩ := nearer_of_le habove hrh hnearHi
    exact ⟨hnear, fun htie => htieHi (hpoint htie ▸ htie)⟩
  · exact ⟨heq ▸ le_rfl, fun _ => .inl heq.symm⟩
  · obtain ⟨hnear, hpoint⟩ := nearer_of_ge hbelow hlr hnearLo
    exact ⟨hnear, fun htie => htieLo (hpoint htie ▸ htie)⟩

/-- A non-negative dyadic number rounds to the pattern that `roundS` answers for it. -/
theorem roundsToS_of_eq_fin {mant : Nat} {exp : Int} {r : ℚ} {v : SBits} (hv : roundS (.fin false mant exp) = v)
    (hr : r = mant * 2 ^ exp) : RoundsToS r v := by
  have hvalue : (Num.fin false mant exp).value = r := by simp [Num.value, hr]
  exact hv ▸ hvalue ▸ (roundS_fin false mant exp).1

/-- At the ends both windows are 0. -/
theorem roundsToS_flatTop_end : RoundsToS (flatTopOfCos 1) 0#32 :=
  roundsToS_of_eq_fin (mant := 0) (exp := 0) rfl (by norm_num [flatTopOfCos])

theorem roundsToS_hann_end : RoundsToS (hannOfCos 1) 0#32 :=
  roundsToS_of_eq_fin (mant := 0) (exp := 0) rfl (by norm_num [hannOfCos])

/-- Inside, the Hann window is 0.75, an S value. -/
theorem roundsToS_hann_inside : RoundsToS (hannOfCos (-1 / 2)) 0x3F400000#32 :=
  roundsToS_of_eq_fin (mant := 3) (exp := -2) (by decide +kernel) (by norm_num [hannOfCos])

/-- Inside, the Flat-Top window is 0.918, between an S value with an even fraction and the middle to the next one. -/
theorem roundsToS_flatTop_inside : RoundsToS (flatTopOfCos (-1 / 2)) 0x3F6B020C#32 := by
  have hlo : RoundsToS (0xEB020C * 2 ^ (-24 : Int)) 0x3F6B020C#32 :=
    roundsToS_of_eq_fin (mant := 0xEB020C) (exp := -24) (by decide +kernel) (by norm_num)
  have hhi : RoundsToS (0x1D60419 * 2 ^ (-25 : Int)) 0x3F6B020C#32 :=
    roundsToS_of_eq_fin (mant := 0x1D60419) (exp := -25) (by decide +kernel) (by norm_num)
  exact hlo.of_between hhi (by decide) (by norm_num [flatTopOfCos]) (by norm_num [flatTopOfCos])

theorem winFt_two_one : winFt 2 1 = 0x3F6B020C#32 := by decide +kernel

theorem winHn_two_one : winHn 2 1 = 0x3F400000#32 := by decide +kernel

/-- Settles O16: the cosines of the ends and of the inside are 1 and −1/2, each pair of mirrored entries is one
coefficient, and the four rational window values round to the four patterns. -/
theorem windowMatchesFormulaAtSizeFour : Obligations.WindowMatchesFormulaAtSizeFour := by
  intro n hn
  obtain hend | hinside : (n = 0 ∨ n = 3) ∨ (n = 1 ∨ n = 2) := by omega
  · have hindex : windowIndex 2 n = windowIndex 2 0 := by rcases hend with rfl | rfl <;> rfl
    have hcos := cos_end hend
    refine ⟨_, _, cast_flatTopOfCos hcos, cast_hannOfCos hcos, ?_⟩
    rw [winFt_congr hindex, winHn_congr hindex, winFt_zero, winHn_zero]
    exact ⟨roundsToS_flatTop_end, roundsToS_hann_end⟩
  · have hindex : windowIndex 2 n = windowIndex 2 1 := by rcases hinside with rfl | rfl <;> rfl
    have hcos := cos_inside hinside
    refine ⟨_, _, cast_flatTopOfCos hcos, cast_hannOfCos hcos, ?_⟩
    rw [winFt_congr hindex, winHn_congr hindex, winFt_two_one, winHn_two_one]
    exact ⟨roundsToS_flatTop_inside, roundsToS_hann_inside⟩

end Sys2Proof.Machine
end

section
/-! SUPPORT. The family 42_transform.md: the butterfly, the twiddles of a pass, the bit reversal, and the completion
of TRANSFORM. -/

namespace Sys2Proof.Machine

/-! ### The butterfly (R208, R209) -/

/-- A write at one position leaves the others, wherever the list ends. -/
theorem pairAt_set_of_ne {x : List Pair} {i j : Nat} (p : Pair) (hij : i ≠ j) :
    pairAt (x.set i p) j = pairAt x j := by
  simp [pairAt, List.getD_eq_getElem?_getD, hij]

/-- A butterfly leaves the pairs that it does not combine, wherever the list ends. -/
theorem pairAt_butterfly_of_ne {x : List Pair} {a c i : Nat} (w : Twiddle) (ha : i ≠ a) (hc : i ≠ c) :
    pairAt (butterfly x a c w) i = pairAt x i := by
  simp only [butterfly, pairAt_set_of_ne _ ha.symm, pairAt_set_of_ne _ hc.symm]

/-- Settles O27: the far pair is set first and the near pair next, each from the old list. -/
theorem butterflyCombinesOldValues : Obligations.ButterflyCombinesOldValues := by
  intro x a c w hac ha hc xr xi tr ti
  refine ⟨?_, ?_, butterfly_length x a c w, fun i => pairAt_butterfly_of_ne w⟩
  · rw [butterfly, pairAt_set_of_ne _ hac, pairAt_set _ _ _ _ hc, if_pos rfl]
    rfl
  · rw [butterfly, pairAt_set _ _ _ _ (by simpa using ha), if_pos rfl]
    rfl

/-- A write outside a butterfly's pairs may come before or after it. -/
theorem butterfly_set {x : List Pair} {a c i : Nat} (p : Pair) (w : Twiddle) (ha : i ≠ a) (hc : i ≠ c) :
    butterfly (x.set i p) a c w = (butterfly x a c w).set i p := by
  simp only [butterfly, pairAt_set_of_ne p ha, pairAt_set_of_ne p hc]
  rw [List.set_comm _ _ hc, List.set_comm _ _ ha]

/-- Settles O28: the two writes of the first butterfly go past the second one, which leaves what they are made of. -/
theorem disjointButterfliesCommute : Obligations.DisjointButterfliesCommute := by
  intro x a c b d w v hab had hcb hcd
  rw [butterfly.eq_def x a c w, butterfly_set _ v hab had, butterfly_set _ v hcb hcd]
  rw [butterfly.eq_def (butterfly x b d v) a c w, pairAt_butterfly_of_ne v hab had, pairAt_butterfly_of_ne v hcb hcd]

/-! ### The twiddles of a pass (R204, R206) -/

/-- A fold that carries along a value of a recurrence, as a fold that takes the recurrence's value for each index. -/
theorem foldl_carrying {α β : Type} (f : α → β → Nat → α) (next : β → β) (value : Nat → β)
    (hnext : ∀ t, next (value t) = value (t + 1)) (a : α) (n : Nat) :
    (List.range n).foldl (fun acc t => (f acc.1 acc.2 t, next acc.2)) (a, value 0) =
      ((List.range n).foldl (fun y t => f y (value t) t) a, value n) := by
  induction n with
  | zero => rfl
  | succ n ih => simp [List.range_succ, List.foldl_append, ih, hnext]

@[simp] theorem twiddle_zero (p : Nat) : twiddle p 0 = twiddleOne := rfl

theorem twiddle_succ (p t : Nat) : twiddle p (t + 1) = twiddleStep (twiddle p t) (seed p) :=
  Function.iterate_succ_apply' _ t twiddleOne

/-- Settles O26: the twiddle that a pass carries along from index to index is w_t. -/
theorem passUsesTwiddleRecurrence : Obligations.PassUsesTwiddleRecurrence := by
  intro log2n p x
  refine ⟨?_, twiddle_zero p, twiddle_succ p⟩
  exact congrArg Prod.fst <| foldl_carrying (fun y w t => passBlocks log2n p t w y)
    (fun w => twiddleStep w (seed p)) (twiddle p) (fun t => (twiddle_succ p t).symm) x (2 ^ p)

/-! ### rev_L (R13) -/

/-- The low bit of i is the high bit of its reversal. -/
theorem bitReverse_succ (bits i : Nat) :
    bitReverse (bits + 1) i = 2 ^ bits * (i % 2) + bitReverse bits (i / 2) := by
  rw [bitReverse, Nat.mul_comm]

theorem testBit_bitReverse {bits b : Nat} (i : Nat) (hb : b < bits) :
    (bitReverse bits i).testBit b = i.testBit (bits - 1 - b) := by
  induction bits generalizing i with
  | zero => omega
  | succ bits ih =>
    rw [bitReverse_succ, Nat.testBit_two_pow_mul_add _ (bitReverse_lt bits _)]
    split
    · next hlow => rw [ih (i / 2) hlow, Nat.testBit_div_two]; congr 1; omega
    · next hhigh =>
      obtain rfl : b = bits := by omega
      simp [Nat.testBit_zero]

/-- rev_L is an involution below 2^L. -/
theorem bitReverse_bitReverse {bits i : Nat} (hi : i < 2 ^ bits) : bitReverse bits (bitReverse bits i) = i := by
  refine Nat.eq_of_testBit_eq fun b => ?_
  by_cases hb : b < bits
  · rw [testBit_bitReverse _ hb, testBit_bitReverse _ (by omega)]
    congr 1
    omega
  · have hpow : 2 ^ bits ≤ 2 ^ b := Nat.pow_le_pow_right Nat.two_pos (not_lt.1 hb)
    rw [Nat.testBit_lt_two_pow ((bitReverse_lt bits _).trans_le hpow), Nat.testBit_lt_two_pow (hi.trans_le hpow)]

theorem bitReverse_eq_iff {bits i j : Nat} (hi : i < 2 ^ bits) (hj : j < 2 ^ bits) :
    bitReverse bits i = j ↔ i = bitReverse bits j :=
  ⟨fun h => by rw [← h, bitReverse_bitReverse hi], fun h => by rw [h, bitReverse_bitReverse hj]⟩

@[simp] theorem bitReverse_zero (bits : Nat) : bitReverse bits 0 = 0 := by
  induction bits with
  | zero => rfl
  | succ bits ih => simp [bitReverse_succ, ih]

/-! ### The swaps of R202 -/

/-- The pairs after the swaps of R202 for the indices below `count`. -/
def swapsBelow (log2n : Nat) (x : List Pair) (count : Nat) : List Pair :=
  (List.range count).foldl
    (fun y i => if i < bitReverse log2n i then swapPairs y i (bitReverse log2n i) else y) x

theorem bitReversePairs_eq_swapsBelow (log2n : Nat) (x : List Pair) :
    bitReversePairs log2n x = swapsBelow log2n x (2 ^ log2n) := rfl

@[simp] theorem swapsBelow_zero (log2n : Nat) (x : List Pair) : swapsBelow log2n x 0 = x := rfl

theorem swapsBelow_succ (log2n : Nat) (x : List Pair) (n : Nat) :
    swapsBelow log2n x (n + 1) =
      if n < bitReverse log2n n then swapPairs (swapsBelow log2n x n) n (bitReverse log2n n)
      else swapsBelow log2n x n := by
  simp [swapsBelow, List.range_succ]

@[simp] theorem swapsBelow_length (log2n : Nat) (x : List Pair) (n : Nat) :
    (swapsBelow log2n x n).length = x.length := by
  induction n with
  | zero => rfl
  | succ n ih => rw [swapsBelow_succ]; split <;> simp [ih]

/-- The swaps are disjoint transpositions: the pair at `i` has moved once the lower of `i` and rev_L(i) has come. -/
theorem pairAt_swapsBelow {log2n n i : Nat} {x : List Pair} (hx : x.length = 2 ^ log2n) (hn : n ≤ 2 ^ log2n)
    (hi : i < 2 ^ log2n) :
    pairAt (swapsBelow log2n x n) i =
      if i < n ∨ bitReverse log2n i < n then pairAt x (bitReverse log2n i) else pairAt x i := by
  induction n generalizing i with
  | zero => simp
  | succ n ih =>
    have hrev : bitReverse log2n n < 2 ^ log2n := bitReverse_lt log2n n
    have hinv : bitReverse log2n (bitReverse log2n n) = n := bitReverse_bitReverse hn
    have hpartner : bitReverse log2n i = n ↔ i = bitReverse log2n n := bitReverse_eq_iff hi hn
    rw [swapsBelow_succ]
    split
    · next hswap =>
      rw [pairAt_swapPairs _ _ _ _ (by simpa [hx] using hn) (by simpa [hx] using hrev)]
      split
      · next hfar => rw [hfar, ih (by omega) hn, hinv, if_neg (by omega), if_pos (by omega)]
      · split
        · next hnear => rw [hnear, ih (by omega) hrev, hinv, if_neg (by omega), if_pos (by omega)]
        · rw [ih (by omega) hi]
          congr 1
          simp only [eq_iff_iff]
          omega
    · rw [ih (by omega) hi]
      by_cases hfix : bitReverse log2n i = i
      · simp [hfix]
      · have hsame : i = n → bitReverse log2n i = bitReverse log2n n := congrArg _
        congr 1
        simp only [eq_iff_iff]
        omega

/-- Settles O24: the bits of rev_L, and the swaps for all N indices. -/
theorem bitReversalPermutation : Obligations.BitReversalPermutation := by
  refine fun log2n i hi => ⟨⟨bitReverse_lt log2n i, fun b => testBit_bitReverse i⟩, fun x hx => ⟨?_, ?_⟩⟩
  · rw [bitReversePairs_length, hx]
  · rw [bitReversePairs_eq_swapsBelow, pairAt_swapsBelow hx le_rfl hi, if_pos (.inl hi)]

/-! ### The incremental technique (R203) -/

/-- Clearing ones from the high bit down and setting the next zero adds 1 in the reversed order of bits. -/
theorem incrementReversed_bitReverse (bits i : Nat) :
    incrementReversed bits (bitReverse bits i) = bitReverse bits (i + 1) := by
  induction bits generalizing i with
  | zero => rfl
  | succ bits ih =>
    have hlt := bitReverse_lt bits (i / 2)
    rw [bitReverse_succ, bitReverse_succ, incrementReversed]
    rcases Nat.mod_two_eq_zero_or_one i with heven | hodd
    · rw [heven, show (i + 1) % 2 = 1 by omega, show (i + 1) / 2 = i / 2 by omega, if_neg (by omega)]
      omega
    · rw [hodd, show (i + 1) % 2 = 0 by omega, show (i + 1) / 2 = i / 2 + 1 by omega, if_pos (by omega), ← ih]
      simp

/-- Settles O25: the index carried along by R203 is rev_L of the loop's index. -/
theorem incrementalReversalAgrees : Obligations.IncrementalReversalAgrees := by
  intro log2n x
  have hcarry := foldl_carrying (fun y j i => if i < j then swapPairs y i j else y) (incrementReversed log2n)
    (bitReverse log2n) (incrementReversed_bitReverse log2n) x (2 ^ log2n)
  rw [bitReverse_zero] at hcarry
  exact congrArg Prod.fst hcarry

/-! ### Acceptance and completion (R200, R216, R217) -/

/-- TRANSFORM while idle is accepted (R282). -/
theorem exec_transform_of_idle {s : State} (hb : s.busy = false) :
    exec .transform s = .next (respond .okay 0#32 (accept .transform s)) := by
  rw [exec, execTransform, ctrlWrite_eq, hb]
  rfl

/-- While TRANSFORM runs, the engine's step is its completion. -/
theorem engineStep_of_transform {s : State} (hb : s.busy = true) (hop : s.curOp = .transform) :
    engineStep s = completeTransform s := by
  rw [engineStep, if_pos hb, hop]

theorem completeTransform_of_some {s : State} {x : List Pair} (hx : readPairs s.buf 0 s.cfg.size = some x) :
    completeTransform s =
      .next (complete { s with buf := writePairs s.buf 0 (transformPairs s.cfg.log2n x) }) := by
  rw [completeTransform, hx]

theorem completeTransform_eq_fault_iff (s : State) :
    completeTransform s = .fault .unwrittenTransform ↔ readPairs s.buf 0 s.cfg.size = none := by
  cases hx : readPairs s.buf 0 s.cfg.size with
  | none => simp [completeTransform, hx]
  | some x => simp [completeTransform_of_some hx]

/-- The N pairs can be read exactly when the buffer is full. -/
theorem readPairs_isSome_iff_bufferFull (s : State) :
    (readPairs s.buf 0 s.cfg.size).isSome ↔ bufferFull s := by
  simp [readPairs_isSome, bufferFull]

/-- Settles O22: the completion writes the N transformed pairs over the N pairs read, and `complete` does the rest. -/
theorem transformReplacesBuffer : Obligations.TransformReplacesBuffer := by
  refine ⟨fun s hb => exec_transform_of_idle hb, fun s x hb hop hx => ?_⟩
  have hlen : (transformPairs s.cfg.log2n x).length = s.cfg.size := by
    rw [transformPairs_length, readPairs_length hx]
  refine ⟨writePairs s.buf 0 (transformPairs s.cfg.log2n x), ?_, ?_, fun a ha => ?_⟩
  · rw [engineStep_of_transform hb hop, completeTransform_of_some hx]
    rfl
  · rw [← hlen]
    exact readPairs_writePairs s.buf 0 _
  · exact readByte_writePairs_outside (by simpa [hlen] using ha)

/-- Settles O23: the completion faults unless it can read all N pairs, and it takes no element away. -/
theorem transformFaultsOnUnwritten : Obligations.TransformFaultsOnUnwritten := by
  intro s hb hop
  have hfault : engineStep s = .fault .unwrittenTransform ↔ ¬ bufferFull s := by
    rw [engineStep_of_transform hb hop, completeTransform_eq_fault_iff, ← Option.not_isSome_iff_eq_none,
      readPairs_isSome_iff_bufferFull]
  have hunwritten : (∃ e < 2 * s.cfg.size, readElement s.buf e = none) ↔ ¬ bufferFull s := by simp [bufferFull]
  refine ⟨hunwritten.trans hfault.symm, fun t ht => engineStep_keeps_bufferFull ht ?_⟩
  by_contra hfull
  simp [hfault.2 hfull] at ht

end Sys2Proof.Machine
end

section
/-! SUPPORT. The family 43_phase.md: the PHASE completion, the normalised phase, the butterfly on zeros, and the
invariant of the machine. -/

namespace Sys2Proof.Machine

/-! ### The completion of PHASE (R240 to R250) -/

/-- While PHASE runs, the engine's step is its completion. -/
theorem engineStep_of_phase {s : State} (hb : s.busy = true) (hop : s.curOp = .phase) :
    engineStep s = completePhase s := by
  rw [engineStep, if_pos hb, hop]

theorem completePhase_of_some {s : State} {r : PhaseResult} (hr : phaseResult s = some r) :
    completePhase s =
      .next (complete { s with phase := r.value, oor := r.oor, und := r.und, nf := r.nf }) := by
  rw [completePhase, hr]

theorem completePhase_eq_fault_iff (s : State) :
    completePhase s = .fault .unwrittenPhase ↔ phaseResult s = none := by
  cases hr : phaseResult s with
  | none => simp [completePhase, hr]
  | some r => simp [completePhase_of_some hr]

/-- R242: no element is read. -/
theorem phaseResult_of_outOfRange {s : State} (hk : s.cfg.size / 2 ≤ s.lk.toNat) :
    phaseResult s = some { value := 0#64, oor := true, und := false, nf := false } := by
  rw [phaseResult, if_pos hk]

theorem phaseResult_of_inRange {s : State} (hk : s.lk.toNat < s.cfg.size / 2) :
    phaseResult s = (readPair s.buf s.lk.toNat).map (phaseOfBin s.cfg s.lcal) := by
  rw [phaseResult, if_neg hk.not_ge]

/-- Settles O31: the result does not depend on the buffer. -/
theorem phaseOutOfRangeSentinel : Obligations.PhaseOutOfRangeSentinel := by
  intro s hb hop hk
  rw [engineStep_of_phase hb hop, completePhase_of_some (phaseResult_of_outOfRange hk)]
  rfl

/-- Settles O32: the pair of the bin cannot be read exactly when one of its two elements is unwritten. -/
theorem phaseFaultsOnUnwrittenBin : Obligations.PhaseFaultsOnUnwrittenBin := by
  intro s hb hop hk
  rw [engineStep_of_phase hb hop, completePhase_eq_fault_iff, phaseResult_of_inRange hk, Option.map_eq_none_iff,
    readPair_eq_none]

/-- PHASE while idle is accepted (R282), with its operands latched (R54). -/
theorem exec_phase_of_idle {s : State} (hb : s.busy = false) :
    exec .phase s = .next (respond .okay 0#32 (accept .phase s)) := by
  rw [exec, execPhase, ctrlWrite_eq, hb]
  rfl

/-- Settles O30: acceptance latches the operands that the completion then computes with. -/
theorem phaseWritesResult : Obligations.PhaseWritesResult := by
  intro s hb hbin
  have hcomplete {r : PhaseResult} (hr : phaseResult (respond .okay 0#32 (accept .phase s)) = some r) :
      engineStep (respond .okay 0#32 (accept .phase s)) = _ :=
    (engineStep_of_phase (by simp) (by simp)).trans (completePhase_of_some hr)
  rcases le_or_gt (s.cfg.size / 2) s.binK.toNat with hk | hk
  · exact ⟨_, _, exec_phase_of_idle hb, hcomplete (phaseResult_of_outOfRange hk), fun _ => rfl,
      fun _ hlt => absurd hk hlt.not_ge⟩
  · obtain ⟨bin, hread⟩ := Option.isSome_iff_exists.1 (hbin.resolve_left hk.not_ge)
    have hresult : phaseResult (respond .okay 0#32 (accept .phase s)) = some (phaseOfBin s.cfg s.cal bin) :=
      (phaseResult_of_inRange hk).trans (congrArg (Option.map _) hread)
    refine ⟨_, _, exec_phase_of_idle hb, hcomplete hresult, fun hge => absurd hk hge.not_gt, fun _ _ hbin' => ?_⟩
    rw [Option.some.inj (hread.symm.trans hbin')]

/-! ### The checks of a bin in range (R244, R245) -/

/-- The exact comparison of magnitudes is the one of the real values (R151). -/
theorem Num.magLt_iff (x y : Num) :
    x.magLt y = true ↔ x.isFinite = true ∧ y.isFinite = true ∧ |x.value| < |y.value| := by
  cases x with
  | nan | inf => simp [Num.magLt, Num.isFinite]
  | fin a m e =>
    cases y with
    | nan | inf => simp [Num.magLt, Num.isFinite]
    | fin b n f =>
      have hp := two_zpow_pos (min e f)
      rw [Num.value_rescale a m (min_le_left e f), Num.value_rescale b n (min_le_right e f), Num.abs_value_fin,
        Num.abs_value_fin, mul_lt_mul_iff_left₀ hp, Nat.cast_lt]
      simp [Num.magLt, Num.isFinite]

/-- R244 in an accepted build: both components are real numbers below EPS in magnitude. -/
theorem phaseUndefined_iff {cfg : Config} (hv : cfg.valid = true) (re im : SBits) :
    phaseUndefined cfg.eps (re, im) = true ↔
      (numOfS re).isFinite = true ∧ (numOfS im).isFinite = true ∧
        |(numOfS re).value| < (numOfW cfg.eps).value ∧ |(numOfS im).value| < (numOfW cfg.eps).value := by
  obtain ⟨-, -, hfin, hpos, -⟩ := (valid_iff_in_range cfg).1 hv
  simp only [phaseUndefined, Bool.and_eq_true, Num.magLt_iff, hfin, abs_of_pos hpos]
  tauto

/-- R245 as a conjunction. -/
theorem phaseFinite_iff (cal : WBits) (re im : SBits) :
    phaseFinite cal (re, im) = true ↔
      (numOfS re).isFinite = true ∧ (numOfS im).isFinite = true ∧ (numOfW cal).isFinite = true := by
  simp only [phaseFinite, Bool.and_eq_true, and_assoc]

/-- R244 comes first. -/
theorem phaseOfBin_of_undefined {cfg : Config} {bin : Pair} (h : phaseUndefined cfg.eps bin = true)
    (cal : WBits) : phaseOfBin cfg cal bin = { value := 0#64, oor := false, und := true, nf := false } := by
  rw [phaseOfBin, if_pos h]

theorem phaseOfBin_of_not_finite {cfg : Config} {cal : WBits} {bin : Pair}
    (hu : ¬ phaseUndefined cfg.eps bin = true) (hf : ¬ phaseFinite cal bin = true) :
    phaseOfBin cfg cal bin = { value := 0#64, oor := false, und := false, nf := true } := by
  rw [phaseOfBin, if_neg hu, if_neg hf]

theorem phaseOfBin_of_finite {cfg : Config} {cal : WBits} {bin : Pair}
    (hu : ¬ phaseUndefined cfg.eps bin = true) (hf : phaseFinite cal bin = true) :
    phaseOfBin cfg cal bin = { value := measure cfg cal bin, oor := false, und := false, nf := false } := by
  rw [phaseOfBin, if_neg hu, if_pos hf]

/-- The completion of a PHASE whose bin is in range and written. -/
theorem engineStep_of_bin {s : State} {re im : SBits} {r : PhaseResult} (hb : s.busy = true)
    (hop : s.curOp = .phase) (hk : s.lk.toNat < s.cfg.size / 2)
    (hre : readElement s.buf (2 * s.lk.toNat) = some re) (him : readElement s.buf (2 * s.lk.toNat + 1) = some im)
    (hr : phaseOfBin s.cfg s.lcal (re, im) = r) :
    engineStep s = .next (complete { s with phase := r.value, oor := r.oor, und := r.und, nf := r.nf }) := by
  have hresult : phaseResult s = some r := by
    rw [phaseResult_of_inRange hk, readPair_eq_some (p := (re, im)) |>.2 ⟨hre, him⟩, Option.map_some, hr]
  rw [engineStep_of_phase hb hop, completePhase_of_some hresult]

/-- Settles O33: the test of R244 holds. -/
theorem phaseUndefinedSentinel : Obligations.PhaseUndefinedSentinel := by
  intro s re im hv hb hop hk hre him hfre hfim hlre hlim
  have hu := (phaseUndefined_iff hv re im).2 ⟨hfre, hfim, hlre, hlim⟩
  exact engineStep_of_bin hb hop hk hre him (phaseOfBin_of_undefined hu _)

/-- Settles O34: the test of R244 fails, and so does the one of R245. -/
theorem phaseNonFiniteSentinel : Obligations.PhaseNonFiniteSentinel := by
  intro s re im hv hb hop hk hre him hu hf
  rw [← phaseUndefined_iff hv] at hu
  rw [← phaseFinite_iff] at hf
  exact engineStep_of_bin hb hop hk hre him (phaseOfBin_of_not_finite hu hf)

/-- Settles O35: the test of R244 fails and the one of R245 holds, which leaves the measurement. -/
theorem phaseMeasurement : Obligations.PhaseMeasurement := by
  intro s re im hv hb hop hk hre him hlarge hfre hfim hfcal
  have hu : ¬ phaseUndefined s.cfg.eps (re, im) = true := fun hu =>
    hlarge ((phaseUndefined_iff hv re im).1 hu).2.2
  have hf := (phaseFinite_iff s.lcal re im).2 ⟨hfre, hfim, hfcal⟩
  exact engineStep_of_bin hb hop hk hre him (phaseOfBin_of_finite hu hf)

/-! ### The constants and the fix-ups of Normalise (R249) -/

theorem isFinite_w360 : (numOfW w360).isFinite = true := by decide

theorem value_w360 : (numOfW w360).value = 360 := by
  have hnum : numOfW w360 = .fin false 0x16800000000000 (-44) := by decide
  norm_num [hnum, Num.value]

theorem value_minus_360 : (numOfW 0xC076800000000000#64).value = -360 := by
  have hnum : numOfW 0xC076800000000000#64 = .fin true 0x16800000000000 (-44) := by decide
  norm_num [hnum, Num.value]

theorem value_numOfW_zero : (numOfW 0#64).value = 0 := by
  have hnum : numOfW 0#64 = .fin false 0 (-1074) := by decide
  simp [hnum, Num.value]

/-- The two fix-ups at the end of Normalise (R249). -/
def foldTurn (v : WBits) : WBits := if v = w360 ∨ isZero v = true then 0#64 else v

theorem normalise_eq (x : WBits) :
    normalise x =
      foldTurn (if isNegative (fmodW x w360) then addW (fmodW x w360) w360 else fmodW x w360) := by
  simp only [normalise, foldTurn]
  generalize (if isNegative (fmodW x w360) then addW (fmodW x w360) w360 else fmodW x w360) = v
  by_cases h : v = w360 <;> simp [h]

/-- A W value in [+0, 360), never −0 (R249). -/
def InTurn (v : WBits) : Prop := (numOfW v).isFinite = true ∧ v.msb = false ∧ (numOfW v).value < 360

theorem inTurn_zero : InTurn 0#64 := ⟨by decide, by decide, by rw [value_numOfW_zero]; norm_num⟩

/-- The only W pattern of the value 360. -/
theorem eq_w360_of_value {v : WBits} (hf : (numOfW v).isFinite = true) (h : (numOfW v).value = 360) :
    v = w360 := by
  have hmsb : v.msb = false := by rw [msb_of_value_ne_zero hf (by simp [h]), h]; norm_num
  exact eq_of_value_eq hf isFinite_w360 hmsb (by decide) (h.trans value_w360.symm)

/-- What the fix-ups make of a value in [0, 360]: 360 and the zeros become +0, and every other stays. -/
theorem foldTurn_cases {v : WBits} (hf : (numOfW v).isFinite = true) (h0 : 0 ≤ (numOfW v).value)
    (h360 : (numOfW v).value ≤ 360) :
    InTurn (foldTurn v) ∧
      (foldTurn v = v ∨ (numOfW v).value = 0 ∧ foldTurn v = 0#64 ∨ v = w360 ∧ foldTurn v = 0#64) := by
  have hzero := isZero_eq v hf
  unfold foldTurn
  split
  · next h =>
    refine ⟨inTurn_zero, .inr ?_⟩
    rcases h with rfl | h
    · exact .inr ⟨rfl, rfl⟩
    · exact .inl ⟨by simpa [hzero] using h, rfl⟩
  · next h =>
    obtain ⟨hne360, hne0⟩ := not_or.1 h
    rw [hzero, decide_eq_true_eq] at hne0
    refine ⟨⟨hf, ?_, lt_of_le_of_ne h360 fun he => hne360 (eq_w360_of_value hf he)⟩, .inl rfl⟩
    rw [msb_of_value_ne_zero hf hne0, decide_eq_false h0.not_gt]

/-- A real number that rounds to −0 rounds to +0 as well, since both are even. -/
theorem RoundsToW.zero_of_value_eq_zero {r : ℚ} {v : WBits} (h : RoundsToW r v)
    (hlt : |r| < (2 ^ 53 - 1 / 2) * 2 ^ 971) (hv : (numOfW v).value = 0) : RoundsToW r 0#64 := by
  unfold RoundsToW at h ⊢
  rw [if_pos hlt, hv] at h
  rw [if_pos hlt, value_numOfW_zero]
  exact ⟨by decide, fun u hu => ⟨(h.2 u hu).1, fun _ => .inr (by decide)⟩⟩

/-! ### Rounding within a turn -/

/-- A turn is far below half a unit in the last place of the largest W value. -/
theorem turn_lt_half_unit_W : (360 : ℚ) < 1 / 2 * 2 ^ 971 :=
  calc (360 : ℚ) < 1 / 2 * 2 ^ 10 := by norm_num
    _ ≤ 1 / 2 * 2 ^ 971 := by gcongr <;> norm_num

theorem turn_lt_threshold_W : (360 : ℚ) < (2 ^ 53 - 1 / 2) * 2 ^ 971 :=
  turn_lt_half_unit_W.trans_le (by gcongr; norm_num)

theorem RoundsToW.isFinite_of_lt {r : ℚ} {v : WBits} (h : RoundsToW r v)
    (hlt : |r| < (2 ^ 53 - 1 / 2) * 2 ^ 971) : (numOfW v).isFinite = true := by
  unfold RoundsToW at h
  rw [if_pos hlt] at h
  exact h.1

/-- Rounding a number of [−360, 360] stays in it. -/
theorem RoundsToW.abs_le_turn {r : ℚ} {v : WBits} (h : RoundsToW r v) (hr : |r| ≤ 360) :
    (numOfW v).isFinite = true ∧ |(numOfW v).value| ≤ 360 := by
  have hlt := hr.trans_lt turn_lt_threshold_W
  obtain ⟨hlo, hhi⟩ := abs_le.1 hr
  have hge := h.ge hlt (u := 0xC076800000000000#64) (by decide) (by rwa [value_minus_360])
  have hle := h.le hlt isFinite_w360 (by rwa [value_w360])
  rw [value_minus_360] at hge
  rw [value_w360] at hle
  exact ⟨h.isFinite_of_lt hlt, abs_le.2 ⟨hge, hle⟩⟩

/-- Rounding a number of [0, 360] stays in it. -/
theorem RoundsToW.mem_turn {r : ℚ} {v : WBits} (h : RoundsToW r v) (h0 : 0 ≤ r) (h360 : r ≤ 360) :
    (numOfW v).isFinite = true ∧ 0 ≤ (numOfW v).value ∧ (numOfW v).value ≤ 360 := by
  have hr : |r| ≤ 360 := (abs_of_nonneg h0).trans_le h360
  obtain ⟨hf, hturn⟩ := h.abs_le_turn hr
  have hge := h.ge (hr.trans_lt turn_lt_threshold_W) (u := 0#64) (by decide) (by rwa [value_numOfW_zero])
  rw [value_numOfW_zero] at hge
  exact ⟨hf, hge, (abs_le.1 hturn).2⟩

/-! ### The remainder by 360 and its normalisation (R249) -/

/-- Two finite W values with one sign have no negative product. -/
theorem value_mul_nonneg_of_msb_eq {v u : WBits} (hv : (numOfW v).isFinite = true)
    (hu : (numOfW u).isFinite = true) (h : v.msb = u.msb) : 0 ≤ (numOfW v).value * (numOfW u).value := by
  have hmag := mul_nonneg (magValue_nonneg 52 (-1074) (v.toNat % 2 ^ 63))
    (magValue_nonneg 52 (-1074) (u.toNat % 2 ^ 63))
  rw [value_numOfW hv, value_numOfW hu, h]
  cases u.msb <;> simpa using hmag

/-- Normalise of an operand whose remainder by 360 is not negative. -/
theorem normalise_of_nonneg {x : WBits} (hf : (numOfW (fmodW x w360)).isFinite = true)
    (h0 : 0 ≤ (numOfW (fmodW x w360)).value) (h360 : (numOfW (fmodW x w360)).value < 360) :
    InTurn (normalise x) ∧ (numOfW (normalise x)).value = (numOfW (fmodW x w360)).value := by
  rw [normalise_eq, isNegative_eq _ hf, decide_eq_false h0.not_gt, if_neg Bool.false_ne_true]
  obtain ⟨hturn, hsame | ⟨hzero, hres⟩ | ⟨hw, -⟩⟩ := foldTurn_cases hf h0 h360.le
  · exact ⟨hturn, by rw [hsame]⟩
  · exact ⟨hturn, by rw [hres, hzero, value_numOfW_zero]⟩
  · rw [hw, value_w360] at h360; exact absurd h360 (lt_irrefl _)

/-- Normalise of an operand whose remainder by 360 is negative: one turn more, rounded once. -/
theorem normalise_of_neg {x : WBits} (hf : (numOfW (fmodW x w360)).isFinite = true)
    (h0 : (numOfW (fmodW x w360)).value < 0) (h360 : -360 < (numOfW (fmodW x w360)).value) :
    InTurn (normalise x) ∧
      (RoundsToW ((numOfW (fmodW x w360)).value + 360) (normalise x) ∨
        RoundsToW ((numOfW (fmodW x w360)).value + 360) w360 ∧ normalise x = 0#64) := by
  rw [normalise_eq, isNegative_eq _ hf, decide_eq_true h0, if_pos rfl]
  have hround := (addW_finite hf isFinite_w360).1
  rw [value_w360] at hround
  have hsum : |(numOfW (fmodW x w360)).value + 360| < (2 ^ 53 - 1 / 2) * 2 ^ 971 :=
    (abs_le.2 ⟨by linarith, by linarith⟩).trans_lt turn_lt_threshold_W
  obtain ⟨hfin, hge, hle⟩ := hround.mem_turn (by linarith) (by linarith)
  obtain ⟨hturn, hsame | ⟨hzero, hres⟩ | ⟨hw, hres⟩⟩ := foldTurn_cases hfin hge hle
  · exact ⟨hturn, .inl (by rwa [hsame])⟩
  · exact ⟨hturn, .inl (by rw [hres]; exact hround.zero_of_value_eq_zero hsum hzero)⟩
  · exact ⟨hturn, .inr ⟨by rwa [hw] at hround, hres⟩⟩

/-- Settles O37: the remainder of R152, with its quotient as the number of turns, and the two cases of its sign. -/
theorem normaliseReducesModulo360 : Obligations.NormaliseReducesModulo360 := by
  intro x hx
  obtain ⟨hf, hmsb, hbelow, turns, heq, -, -⟩ :=
    remainderIsExact x w360 hx isFinite_w360 (by rw [value_w360]; norm_num)
  rw [value_w360] at hbelow heq
  rw [abs_of_pos (by norm_num : (0 : ℚ) < 360)] at hbelow
  obtain ⟨hlo, hhi⟩ := abs_lt.1 hbelow
  refine ⟨turns, (numOfW (fmodW x w360)).value, by linarith, hbelow, value_mul_nonneg_of_msb_eq hf hx hmsb,
    fun h0 => (normalise_of_nonneg hf h0 hhi).2, fun h0 => (normalise_of_neg hf h0 hlo).2, ?_⟩
  rcases le_or_gt 0 (numOfW (fmodW x w360)).value with h0 | h0
  · exact (normalise_of_nonneg hf h0 hhi).1
  · exact (normalise_of_neg hf h0 hlo).1

/-! ### The measurement (R246 to R249) -/

theorem normalise_toNat_lt {x : WBits} (hx : (numOfW x).isFinite = true) : (normalise x).toNat < w360.toNat := by
  obtain ⟨-, -, -, -, -, -, -, hf, hmsb, hlt⟩ := normaliseReducesModulo360 x hx
  exact toNat_lt_of_value_lt hf isFinite_w360 hmsb (by decide) (by rwa [value_w360])

/-- R156(b), as values: ATAN2 answers a finite angle below 4 in magnitude. -/
theorem atan2_abs_le (cfg : Config) {y x : WBits} (hy : (numOfW y).isFinite = true)
    (hx : (numOfW x).isFinite = true) (hne : (numOfW y).value ≠ 0 ∨ (numOfW x).value ≠ 0) :
    (numOfW (atan2 cfg y x)).isFinite = true ∧ |(numOfW (atan2 cfg y x)).value| ≤ 4 := by
  obtain ⟨mag, hmag, hatan, -⟩ := atan2_packW cfg hy hx hne
  obtain ⟨hf, hvalue⟩ := value_packW (neg := y.msb) (hmag.trans_lt (by norm_num [pi64, infMagW]))
  have hpi : magValue 52 (-1074) pi64 ≤ 4 := by norm_num [magValue, pi64]
  rw [hatan, hvalue, abs_signed _ (magValue_nonneg _ _ _)]
  exact ⟨hf, ((magValue_strictMono 52 (-1074)).monotone hmag).trans hpi⟩

theorem isFinite_rad2deg : (numOfW rad2deg).isFinite = true := by decide

theorem abs_value_rad2deg_le : |(numOfW rad2deg).value| ≤ 90 := by
  have hnum : numOfW rad2deg = .fin false 0x1CA5DC1A63C1F8 (-47) := by decide
  rw [hnum, Num.abs_value_fin]
  norm_num

/-- A turn added to a finite W value stays below the overflow threshold, half a unit in the last place above the
largest. -/
theorem isFinite_addW_of_abs_le_turn {a b : WBits} (ha : (numOfW a).isFinite = true)
    (hturn : |(numOfW a).value| ≤ 360) (hb : (numOfW b).isFinite = true) : (numOfW (addW a b)).isFinite = true := by
  have hround := (addW_finite ha hb).1
  have hlt : |(numOfW a).value + (numOfW b).value| < (2 ^ 53 - 1 / 2) * 2 ^ 971 :=
    calc |(numOfW a).value + (numOfW b).value|
        ≤ 360 + (2 ^ 53 - 1) * 2 ^ 971 := (abs_add_le _ _).trans (add_le_add hturn (abs_value_numOfW_lt hb))
      _ < 1 / 2 * 2 ^ 971 + (2 ^ 53 - 1) * 2 ^ 971 := add_lt_add_left turn_lt_half_unit_W _
      _ = (2 ^ 53 - 1 / 2) * 2 ^ 971 := by rw [← add_mul]; congr 1; norm_num
  exact hround.isFinite_of_lt hlt

/-- The measurement of finite components that are not both zero, with a finite offset, is a phase of R251. -/
theorem measure_toNat_lt (cfg : Config) {cal : WBits} {re im : SBits} (hre : (numOfS re).isFinite = true)
    (him : (numOfS im).isFinite = true) (hcal : (numOfW cal).isFinite = true)
    (hne : (numOfS im).value ≠ 0 ∨ (numOfS re).value ≠ 0) : (measure cfg cal (re, im)).toNat < w360.toNat := by
  obtain ⟨hfre, hvre, -⟩ := (wideningIsExact re).1 hre
  obtain ⟨hfim, hvim, -⟩ := (wideningIsExact im).1 him
  obtain ⟨hfangle, hangle⟩ := atan2_abs_le cfg hfim hfre (by rwa [hvim, hvre])
  have hdegrees : |(numOfW (atan2 cfg (toW im) (toW re))).value * (numOfW rad2deg).value| ≤ 360 := by
    rw [abs_mul]
    calc _ ≤ (4 : ℚ) * 90 := mul_le_mul hangle abs_value_rad2deg_le (abs_nonneg _) (by norm_num)
      _ = 360 := by norm_num
  obtain ⟨hfdegrees, hturn⟩ := (mulW_finite hfangle isFinite_rad2deg).1.abs_le_turn hdegrees
  exact normalise_toNat_lt (isFinite_addW_of_abs_le_turn hfdegrees hturn hcal)

/-! ### The results of PHASE (R251, R253) -/

/-- A result that PHASE may leave: a value in [+0, 360.0) and at most one sentinel. -/
structure PhaseResult.Proper (r : PhaseResult) : Prop where
  range : r.value.toNat < w360.toNat
  oneSentinel : (r.oor && r.und) = false ∧ (r.oor && r.nf) = false ∧ (r.und && r.nf) = false

/-- A sentinel comes alone, with the value +0. -/
theorem PhaseResult.proper_of_zero {r : PhaseResult} (hvalue : r.value = 0#64)
    (hone : (r.oor && r.und) = false ∧ (r.oor && r.nf) = false ∧ (r.und && r.nf) = false) : r.Proper :=
  ⟨by rw [hvalue]; decide, hone⟩

/-- In an accepted build the components of a bin that gets to the measurement are not both zero. -/
theorem phaseOfBin_proper {cfg : Config} (hv : cfg.valid = true) (cal : WBits) (bin : Pair) :
    (phaseOfBin cfg cal bin).Proper := by
  obtain ⟨re, im⟩ := bin
  by_cases hu : phaseUndefined cfg.eps (re, im) = true
  · rw [phaseOfBin_of_undefined hu]
    exact PhaseResult.proper_of_zero rfl ⟨rfl, rfl, rfl⟩
  by_cases hf : phaseFinite cal (re, im) = true
  · rw [phaseOfBin_of_finite hu hf]
    obtain ⟨hre, him, hcal⟩ := (phaseFinite_iff _ _ _).1 hf
    refine ⟨measure_toNat_lt cfg hre him hcal ?_, rfl, rfl, rfl⟩
    by_contra! hzero
    obtain ⟨-, -, -, hpos, -⟩ := (valid_iff_in_range cfg).1 hv
    exact hu ((phaseUndefined_iff hv re im).2 ⟨hre, him, by simpa [hzero.2] using hpos, by simpa [hzero.1] using hpos⟩)
  · rw [phaseOfBin_of_not_finite hu hf]
    exact PhaseResult.proper_of_zero rfl ⟨rfl, rfl, rfl⟩

theorem phaseResult_proper {s : State} (hv : s.cfg.valid = true) {r : PhaseResult} (hr : phaseResult s = some r) :
    r.Proper := by
  rcases le_or_gt (s.cfg.size / 2) s.lk.toNat with hk | hk
  · rw [phaseResult_of_outOfRange hk] at hr
    cases hr
    exact PhaseResult.proper_of_zero rfl ⟨rfl, rfl, rfl⟩
  · rw [phaseResult_of_inRange hk] at hr
    obtain ⟨bin, -, rfl⟩ := Option.map_eq_some_iff.1 hr
    exact phaseOfBin_proper hv _ _

/-! ### The invariant, part by part -/

/-- The memory's part of the invariant (R51, R81). -/
structure Memory.Proper (log2n : Nat) (m : Memory) : Prop where
  canonical : m.wf
  region : m.inRegion log2n
  whole : m.wholeElements

theorem Memory.proper_nil (log2n : Nat) : Memory.Proper log2n [] where
  canonical := .nil
  region := fun _ hc => nomatch hc
  whole := fun _ hc => nomatch hc

theorem Memory.Proper.writeElement {log2n : Nat} {m : Memory} (h : m.Proper log2n) {e : Nat}
    (he : e < 2 * 2 ^ log2n) (w : Word) : Memory.Proper log2n (writeElement m e w) :=
  ⟨writeElement_wf h.canonical e w, writeElement_inRegion h.region he w, writeElement_whole h.whole e w⟩

theorem Memory.Proper.writePairs {log2n : Nat} {m : Memory} (h : m.Proper log2n) {x : List Pair}
    (hx : x.length = 2 ^ log2n) : Memory.Proper log2n (writePairs m 0 x) :=
  ⟨writePairs_wf h.canonical 0 x, writePairs_inRegion h.region 0 x (by omega), writePairs_whole h.whole 0 x⟩

/-- What the registers say of the last PHASE (R49, R41 to R43). -/
def State.result (s : State) : PhaseResult := ⟨s.phase, s.oor, s.und, s.nf⟩

theorem SameResults.result_eq {s t : State} (h : SameResults s t) : t.result = s.result := by
  obtain ⟨hphase, hoor, hund, hnf⟩ := h
  simp only [State.result, hphase, hoor, hund, hnf]

theorem inv_iff (s : State) :
    Inv s ↔ s.buf.Proper s.cfg.log2n ∧ s.result.Proper ∧ (s.busy && s.done) = false :=
  ⟨fun h => ⟨⟨h.canonical, h.region, h.whole⟩, ⟨h.phaseRange, h.oneSentinel⟩, h.busyNotDone⟩,
    fun ⟨hmem, hres, hbusy⟩ => ⟨hmem.canonical, hmem.region, hmem.whole, hres.range, hres.oneSentinel, hbusy⟩⟩

/-! ### The invariant, step by step -/

theorem exec_keeps_cfg {i : Instr} {s t : State} (h : exec i s = .next t) : t.cfg = s.cfg := by
  cases exec_did h <;> simp

/-- An instruction writes at most the element of its own index. -/
theorem exec_keeps_memory {i : Instr} {s t : State} (h : exec i s = .next t) (hi : bufIndexOk s.cfg.log2n i)
    (hmem : s.buf.Proper s.cfg.log2n) : t.buf.Proper t.cfg.log2n := by
  rw [exec_keeps_cfg h]
  cases exec_did h with
  | buf e d hwr hb =>
    subst hwr
    exact hmem.writeElement hi d
  | _ => simpa using hmem

/-- Acceptance raises BUSY and clears DONE, and no instruction sets DONE. -/
theorem exec_keeps_busyNotDone {i : Instr} {s t : State} (h : exec i s = .next t)
    (hbusy : (s.busy && s.done) = false) : (t.busy && t.done) = false := by
  cases exec_did h with
  | accept op hb hi => simp
  | status d hi => rw [Bool.and_eq_false_iff] at hbusy; rcases hbusy with hb | hd <;> simp [*]
  | _ => simpa using hbusy

/-- A decoded instruction keeps the invariant: it writes no result (R314). -/
theorem exec_keeps_inv {i : Instr} {s t : State} (h : exec i s = .next t) (hi : bufIndexOk s.cfg.log2n i)
    (hinv : Inv s) : Inv t := by
  obtain ⟨hmem, hres, hbusy⟩ := (inv_iff s).1 hinv
  refine (inv_iff t).2 ⟨exec_keeps_memory h hi hmem, ?_, exec_keeps_busyNotDone h hbusy⟩
  rwa [(exec_keeps_results h).result_eq]

/-- The engine keeps the invariant: TRANSFORM writes the N pairs that it read, PHASE writes a proper result, and
either completion clears BUSY. -/
theorem engineStep_keeps_inv {s t : State} (hv : s.cfg.valid = true) (h : engineStep s = .next t) (hinv : Inv s) :
    Inv t := by
  obtain ⟨hmem, hres, hbusy⟩ := (inv_iff s).1 hinv
  rcases engineStep_cases h with ⟨-, rfl⟩ | ⟨-, -, x, hx, rfl⟩ | ⟨-, -, r, hr, rfl⟩
  · exact hinv
  · have hlen : (transformPairs s.cfg.log2n x).length = 2 ^ s.cfg.log2n := by
      rw [transformPairs_length, readPairs_length hx, Config.size]
    exact (inv_iff _).2 ⟨hmem.writePairs hlen, hres, rfl⟩
  · exact (inv_iff _).2 ⟨hmem, phaseResult_proper hv hr, rfl⟩

/-- Every reset keeps the invariant, whatever the build. -/
theorem inv_resetOf (c : Config) (l : List Event) : Inv (State.resetOf c l) :=
  (inv_iff _).2 ⟨Memory.proper_nil c.log2n, PhaseResult.proper_of_zero rfl ⟨rfl, rfl, rfl⟩, rfl⟩

/-- The invariant does not look at the events to come. -/
theorem Inv.withEvents {s : State} (h : Inv s) (l : List Event) : Inv { s with events := l } :=
  (inv_iff _).2 ((inv_iff s).1 h)

/-- Settles O52: each of the three things a step takes keeps the invariant. -/
theorem stepKeepsInvariant : Obligations.StepKeepsInvariant := by
  intro s t hinv h
  obtain ⟨hv, -⟩ := step_cases h
  rcases step_engine_or_host_or_reset h with ⟨-, hx⟩ | ⟨e, rest, -, hx⟩ | ⟨-, rfl⟩
  · exact engineStep_keeps_inv (s := { s with events := s.events.tail }) hv hx (hinv.withEvents _)
  · exact exec_keeps_inv (s := { s with events := rest }) hx (decode_bufIndexOk _ e) (hinv.withEvents rest)
  · exact inv_resetOf _ _

/-! ### The butterfly on zeros (R260) -/

/-- A W value that is a zero of either sign. -/
def IsZeroW (v : WBits) : Prop := (numOfW v).isFinite = true ∧ (numOfW v).value = 0

theorem isZeroW_zero : IsZeroW 0#64 := ⟨by decide, value_numOfW_zero⟩

/-- Zero rounds to a zero. -/
theorem RoundsToW.isZeroW {r : ℚ} {v : WBits} (h : RoundsToW r v) (hr : r = 0) : IsZeroW v := by
  subst hr
  exact h.exact (u := 0#64) (by decide) value_numOfW_zero

theorem isZeroW_mulW {a b : WBits} (ha : (numOfW a).isFinite = true) (hb : IsZeroW b) : IsZeroW (mulW a b) :=
  (mulW_finite ha hb.1).1.isZeroW (by rw [hb.2, mul_zero])

theorem isZeroW_addW {a b : WBits} (ha : IsZeroW a) (hb : IsZeroW b) : IsZeroW (addW a b) :=
  (addW_finite ha.1 hb.1).1.isZeroW (by rw [ha.2, hb.2, add_zero])

theorem isZeroW_subW {a b : WBits} (ha : IsZeroW a) (hb : IsZeroW b) : IsZeroW (subW a b) :=
  (subW_finite ha.1 hb.1).1.isZeroW (by rw [ha.2, hb.2, sub_zero])

/-- Narrowing keeps a zero and its sign. -/
theorem toS_of_isZeroW {v : WBits} (hv : IsZeroW v) : toS v = packS v.msb 0 := by
  obtain ⟨m, e, hn, -⟩ := numOfW_eq_fin hv.1
  have hm : m = 0 := by simpa [hn, Num.value_fin_eq_zero_iff] using hv.2
  rw [toS, hn, hm]
  rfl

/-- A zero of either sign added to +0, or subtracted from it, gives +0 (R147). -/
theorem zero_addS_subS (neg : Bool) : addS 0#32 (packS neg 0) = 0#32 ∧ subS 0#32 (packS neg 0) = 0#32 := by
  cases neg <;> decide

/-- The twiddle product of a zero pair is a zero pair, of unknown signs (R208). -/
theorem twiddleProduct_zero {w : Twiddle} (hre : (numOfW w.1).isFinite = true)
    (him : (numOfW w.2).isFinite = true) :
    ∃ a b, twiddleProduct (0#32, 0#32) w = (packS a 0, packS b 0) := by
  have hzero : toW 0#32 = 0#64 := by decide
  have hmul1 := isZeroW_mulW hre isZeroW_zero
  have hmul2 := isZeroW_mulW him isZeroW_zero
  simp only [twiddleProduct, hzero]
  exact ⟨_, _, congrArg₂ _ (toS_of_isZeroW (isZeroW_subW hmul1 hmul2)) (toS_of_isZeroW (isZeroW_addW hmul1 hmul2))⟩

/-- Settles O29: the near pair is +0, and what is added or subtracted is a zero. -/
theorem zeroButterflyStaysZero : Obligations.ZeroButterflyStaysZero := by
  intro x a c w hac ha hc hxa hxc hre him
  obtain ⟨hfar, hnear, -, -⟩ := butterflyCombinesOldValues x a c w hac ha hc
  obtain ⟨p, q, hprod⟩ := twiddleProduct_zero hre him
  obtain ⟨htr, hti⟩ := Prod.mk.inj hprod
  rw [hnear, hfar, hxa, hxc, htr, hti]
  simp only [zero_addS_subS, and_self]

end Sys2Proof.Machine
end

section
/-! SUPPORT. The family 44_host_access.md: what each host transaction answers, what it writes and what it leaves. -/

namespace Sys2Proof.Machine

/-! ### The shared operations, as records -/

/-- AddressError (R311): a record that differs in ERR_ADDR and the port only. -/
theorem raise_address (s : State) :
    raise .address s = .next { s with errAddr := true, resp := .error, rdata := 0#32 } := rfl

/-- BusyError (R311): a record that differs in ERR_BUSY and the port only. -/
theorem raise_busy (s : State) :
    raise .busy s = .next { s with errBusy := true, resp := .error, rdata := 0#32 } := rfl

section
variable {s : State}

theorem ctrlWrite_of_busy (hb : s.busy = true) (effect : State → State) :
    ctrlWrite effect s = .next { s with errBusy := true, resp := .okay, rdata := 0#32 } := by
  rw [ctrlWrite_eq, if_pos hb]
  rfl

theorem ctrlWrite_of_idle (hb : s.busy = false) (effect : State → State) :
    ctrlWrite effect s = .next (respond .okay 0#32 (effect s)) := by
  simp [ctrlWrite_eq, hb]

/-! ### Command words (R282 to R284) -/

/-- While idle CTRL takes the effect of the word it is given. -/
theorem exec_wrCtrl_of_idle (hb : s.busy = false) (w : Word) :
    exec (.wrCtrl w) s = .next (respond .okay 0#32 (commandEffect w s)) :=
  ctrlWrite_of_idle hb (commandEffect w)

/-- A word of neither 0, 1 nor 2 at an idle CTRL is a CommandError, with the response OKAY (R284). -/
theorem exec_wrCtrl_reserved (hb : s.busy = false) {w : Word} (h0 : w ≠ 0#32) (h1 : w ≠ 1#32) (h2 : w ≠ 2#32) :
    exec (.wrCtrl w) s = .next { s with errCmd := true, resp := .okay, rdata := 0#32 } := by
  rw [exec_wrCtrl_of_idle hb, commandEffect_reserved h0 h1 h2]
  rfl

end

/-- A command word, decoded, means what its delivery to CTRL means (R113, R282): each of R114's three words has
the effect that `commandEffect` gives it, and so has any other. -/
theorem exec_decodeCmd (w : Word) (s : State) : exec (decodeCmd w) s = exec (.wrCtrl w) s := by
  change _ = ctrlWrite (commandEffect w) s
  unfold decodeCmd commandEffect
  split_ifs <;> rfl

/-- Settles O17: NOP is the write of CTRL whose effect is none. -/
theorem nopHasNoEffect : Obligations.NopHasNoEffect :=
  ⟨rfl, fun _ =>
    ⟨fun hb => ⟨ctrlWrite_of_idle hb (fun idle => idle), exec_wrCtrl_of_idle hb 0#32⟩,
      fun hb => ctrlWrite_of_busy hb (fun idle => idle)⟩⟩

/-- Settles O18: a word from 3 on is none of R114's three. -/
theorem reservedCommandSetsErrCmd : Obligations.ReservedCommandSetsErrCmd := by
  intro w s hb
  have hexec : exec (.reservedCmd w) s = .next { s with errCmd := true, resp := .okay, rdata := 0#32 } :=
    ctrlWrite_of_idle hb (setFlag .command)
  refine ⟨hexec, fun hw => ?_⟩
  have hdecode := decodeCmd_reserved hw
  refine ⟨hdecode, ?_⟩
  rw [← exec_decodeCmd, hdecode, hexec]

/-- Settles O19: while idle CTRL takes `accept` of either command. -/
theorem commandAcceptance : Obligations.CommandAcceptance := fun _ hb =>
  ⟨ctrlWrite_of_idle hb (accept .transform), ctrlWrite_of_idle hb (accept .phase)⟩

/-- Settles O20: while BUSY the effect of the word is not looked at. -/
theorem ctrlWriteWhileBusy : Obligations.CtrlWriteWhileBusy := fun _ _ hb =>
  ⟨ctrlWrite_of_busy hb _, ctrlWrite_of_busy hb (fun idle => idle), ctrlWrite_of_busy hb _,
    ctrlWrite_of_busy hb _, ctrlWrite_of_busy hb _⟩

/-- Settles O21: one case per effect of a command word. -/
theorem ctrlWriteDeliversCommand : Obligations.CtrlWriteDeliversCommand := by
  intro log2n w s
  refine ⟨rfl, fun hb => ctrlWrite_of_busy hb _, fun hb => ⟨?_, ?_, ?_, exec_wrCtrl_reserved hb⟩⟩
  · rintro rfl
    exact exec_wrCtrl_of_idle hb 0#32
  · rintro rfl
    exact exec_wrCtrl_of_idle hb 1#32
  · rintro rfl
    exact exec_wrCtrl_of_idle hb 2#32

/-! ### The step (R280) -/

/-- In an accepted build a host input at the head of the events is decoded and executed. -/
theorem step_of_host {s : State} {e : Encoded} {rest : List Event} (hv : s.cfg.valid = true)
    (he : s.events = .host e :: rest) : step s = exec (decode s.cfg.log2n e) { s with events := rest } := by
  rw [step_of_events_cons hv he, eventStep_host]

/-- Settles O47: the step runs the decoded input, and a command word runs as its delivery to CTRL. -/
theorem stepRunsDecodedInstruction : Obligations.StepRunsDecodedInstruction := by
  intro s e rest hv he
  refine ⟨step_of_host hv he, ?_⟩
  rintro w rfl
  calc
    step s = exec (decodeCmd w) { s with events := rest } := step_of_host hv he
    _ = exec (.wrCtrl w) { s with events := rest } := exec_decodeCmd w _
    _ = step { s with events := .host (.hostbus 0x400000#23 w) :: rest } :=
      (step_of_host (s := { s with events := .host (.hostbus 0x400000#23 w) :: rest }) hv rfl).symm

/-! ### Address errors (R303, R304, R290, R299, R300, R190) -/

/-- The two low bits of a selector are those of its address (R111). -/
theorem toNat_selectorAddr_mod_four (t : Selector) : (selectorAddr t).toNat % 4 = t.toNat % 4 := by
  rw [selectorAddr, BitVec.toNat_setWidth]
  omega

/-- A selector with ADDR[1:0] ≠ 00 decodes to one of the three forms of row 1 of R112. -/
theorem decode_misaligned (log2n : Nat) {t : Selector} (d : Word) (ht : t.toNat % 4 ≠ 0) :
    ∃ we w, decode log2n (.hostbus t d) = .misaligned01 we w d ∨
      decode log2n (.hostbus t d) = .misaligned10 we w d ∨ decode log2n (.hostbus t d) = .misaligned11 we w d := by
  have hlow : (selectorAddr t).toNat % 4 ≠ 0 := toNat_selectorAddr_mod_four t ▸ ht
  refine ⟨selectorWe t, (selectorAddr t).extractLsb' 2 20, ?_⟩
  simp only [decode, decodeHostbus]
  split_ifs with h1 h2 h3
  · exact .inl rfl
  · exact .inr (.inl rfl)
  · exact .inr (.inr rfl)
  · simp only [lowBits_eq_iff, BitVec.reduceToNat] at h1 h2 h3
    omega

/-- Settles O1: row 1 of R112 has three forms, and each raises AddressError. -/
theorem misalignedRaisesAddressError : Obligations.MisalignedRaisesAddressError := by
  refine ⟨fun _ _ _ s => ⟨raise_address s, raise_address s, raise_address s⟩, fun log2n t d s ht => ?_⟩
  obtain ⟨we, w, h | h | h⟩ := decode_misaligned log2n d ht <;> rw [h] <;> exact raise_address s

/-- Settles O2: what no region holds falls to row 14 of R112, which raises AddressError. -/
theorem unmappedRaisesAddressError : Obligations.UnmappedRaisesAddressError :=
  ⟨fun _ _ _ s => raise_address s, fun _ we _ d _ h4 ha => decode_unmappedAddr we d h4 ha⟩

/-- Settles O3: the five selectors, and AddressError at each. -/
theorem readOnlyWritesRaiseAddressError : Obligations.ReadOnlyWritesRaiseAddressError := by
  refine ⟨fun log2n d => ⟨rfl, rfl, rfl, fun n hn => ⟨?_, ?_⟩⟩, fun n d s =>
    ⟨raise_address s, raise_address s, raise_address s, raise_address s, raise_address s⟩⟩
  · exact selector_append true 0b1000#4 n 0b00#2 ▸ decode_winFtAddr true d hn
  · exact selector_append true 0b1100#4 n 0b00#2 ▸ decode_winHnAddr true d hn

/-! ### The halves of a 64-bit register (R12) -/

theorem toNat_lowHalf (v : WBits) : (lowHalf v).toNat = v.toNat % 2 ^ 32 := by
  rw [lowHalf, BitVec.extractLsb'_toNat, Nat.shiftRight_zero]

theorem toNat_highHalf (v : WBits) : (highHalf v).toNat = v.toNat / 2 ^ 32 := by
  rw [highHalf, BitVec.extractLsb'_toNat, Nat.shiftRight_eq_div_pow]
  omega

theorem toNat_joinHalves (high low : Word) : (joinHalves high low).toNat = high.toNat * 2 ^ 32 + low.toNat :=
  toNat_append_lt high low

/-! ### Registers (R281 to R298) -/

/-- CFG of a build that LOG2N fits (R46). -/
theorem toNat_cfgWord {s : State} (h : s.cfg.log2n < 32) : (cfgWord s).toNat = s.cfg.log2n + 0x100 := by
  have hor := Nat.two_pow_add_eq_or_of_lt (i := 8) (h.trans (by norm_num)) 1
  simp only [cfgWord, BitVec.toNat_or, BitVec.toNat_ofNat]
  rw [Nat.mod_eq_of_lt (by omega : s.cfg.log2n < 2 ^ 5), Nat.mod_eq_of_lt (by omega), Nat.or_comm, Nat.add_comm]
  exact hor.symm

/-- Settles O4: the selectors, and the value of each word that is read. -/
theorem readOnlyRegistersRead : Obligations.ReadOnlyRegistersRead := by
  intro log2n d s
  refine ⟨⟨rfl, rfl, rfl, rfl⟩, rfl, ⟨cfgWord s, rfl, fun hv => toNat_cfgWord ?_⟩,
    ⟨_, rfl, toNat_lowHalf s.phase⟩, ⟨_, rfl, toNat_highHalf s.phase⟩⟩
  obtain ⟨-, hlog, -⟩ := (Config.valid_iff _).1 hv
  omega

/-- Settles O5: the bits of `statusWord`, one flag each. -/
theorem statusReadShowsEveryFlag : Obligations.StatusReadShowsEveryFlag := by
  intro log2n d s
  refine ⟨rfl, statusWord s, rfl, ?_⟩
  simp only [statusWord_getLsbD]
  refine ⟨by simp, by simp, by simp, by simp, by simp, by simp, by simp, by simp, fun b hb => ?_⟩
  have hne : ∀ k, k < 5 ∨ 8 ≤ k ∧ k ≤ 10 → b ≠ k := by omega
  simp [hne]

/-- R286's update of the four flags, by cases of the bit written. -/
theorem clearStatus_eq_ite (d : Word) (s : State) :
    clearStatus d s =
      { s with
        done := if d.getLsbD 1 then false else s.done
        errCmd := if d.getLsbD 2 then false else s.errCmd
        errBusy := if d.getLsbD 3 then false else s.errBusy
        errAddr := if d.getLsbD 4 then false else s.errAddr } := by
  have hclear : ∀ flag bit : Bool, (flag && !bit) = if bit then false else flag := by decide
  simp only [clearStatus, hclear]

theorem exec_wrStatus (d : Word) (s : State) :
    exec (.wrStatus d) s = .next (respond .okay 0#32 (clearStatus d s)) := rfl

/-- Settles O6: the write answers OKAY with `clearStatus`. -/
theorem statusWriteClearsSelectedFlags : Obligations.StatusWriteClearsSelectedFlags := by
  intro log2n d s
  refine ⟨rfl, ?_⟩
  rw [exec_wrStatus, clearStatus_eq_ite]
  rfl

/-- Settles O7: the two bits of `irqEnWord`. -/
theorem irqEnableReadAndWrite : Obligations.IrqEnableReadAndWrite := by
  intro log2n d s
  refine ⟨rfl, rfl, rfl, irqEnWord s, rfl, ?_⟩
  simp only [irqEnWord_getLsbD]
  refine ⟨by simp, by simp, fun b hb => ?_⟩
  have hne : b ≠ 0 ∧ b ≠ 1 := by omega
  simp [hne]

/-- Settles O9: a read and a write of the whole register. -/
theorem binKReadAndWrite : Obligations.BinKReadAndWrite := fun _ _ _ => ⟨rfl, rfl, rfl, rfl⟩

/-- Settles O10: a write joins the new half to the half that stays. -/
theorem calHalvesReadAndWrite : Obligations.CalHalvesReadAndWrite := by
  intro log2n d s
  refine ⟨⟨rfl, rfl, rfl, rfl⟩, ⟨_, rfl, toNat_lowHalf s.cal⟩, ⟨_, rfl, toNat_highHalf s.cal⟩,
    ⟨_, rfl, ?_⟩, ⟨_, rfl, ?_⟩⟩
  · rw [toNat_joinHalves, toNat_highHalf]
  · rw [toNat_joinHalves, toNat_lowHalf]

/-! ### The sample buffer (R301, R302) -/

/-- A selector whose address is given by the buffer's region, an element's index and the low bits (R111). -/
theorem selector_append_bufIndex (we : Bool) (region : BitVec 3) (e : BitVec 17) (low : BitVec 2) :
    selector we (region ++ e ++ low) = BitVec.cons we region ++ e ++ low := by
  rw [BitVec.cons_append_append, BitVec.cast_eq, selector]

section
variable {s : State} (e : BitVec 17)

theorem exec_rdBuf_of_busy (hb : s.busy = true) : exec (.rdBuf e) s = raise .busy s := if_pos hb

theorem exec_rdBuf_of_written (hb : s.busy = false) {w : Word} (hw : readElement s.buf e.toNat = some w) :
    exec (.rdBuf e) s = .next (respond .okay w s) := by
  simp [exec, execRdBuf, hb, hw]

theorem exec_rdBuf_of_unwritten (hb : s.busy = false) (hw : readElement s.buf e.toNat = none) :
    exec (.rdBuf e) s = .fault .unwrittenRead := by
  simp [exec, execRdBuf, hb, hw]

theorem exec_wrBuf_of_busy (hb : s.busy = true) (d : Word) : exec (.wrBuf e d) s = raise .busy s := if_pos hb

theorem exec_wrBuf_of_idle (hb : s.busy = false) (d : Word) :
    exec (.wrBuf e d) s = .next (respond .okay 0#32 { s with buf := writeElement s.buf e.toNat d }) := by
  simp [exec, execWrBuf, hb]

end

/-- Settles O11: the three cases of R301, each by its lemma. -/
theorem bufferRead : Obligations.BufferRead := by
  intro e s
  refine ⟨fun log2n d he => ?_, fun hb w hw => exec_rdBuf_of_written e hb hw, fun hb => ?_,
    fun hb hw => exec_rdBuf_of_unwritten e hb hw⟩
  · exact selector_append_bufIndex false 0b010#3 e 0b00#2 ▸ decode_bufAddr false d he
  · rw [exec_rdBuf_of_busy e hb, raise_busy]

/-- A written element's four lanes hold its bytes in rising order (R86). -/
theorem readByte_writeElement_lane (m : Memory) (e : Nat) (w : Word) {lane : Nat} (hlane : lane < 4) :
    readByte (writeElement m e w) (elementAddr e + lane) = some (w.extractLsb' (8 * lane) 8) := by
  rw [readByte_writeElement, if_pos (by omega), Nat.add_sub_cancel_left]

/-- A write of an element leaves the bytes outside its four. -/
theorem readByte_writeElement_outside (m : Memory) (e : Nat) (w : Word) {a : Nat}
    (ha : a < elementAddr e ∨ elementAddr e + 4 ≤ a) : readByte (writeElement m e w) a = readByte m a := by
  rw [readByte_writeElement, if_neg (by omega)]

/-- Settles O12: the rules of `writeElement` at the element's own bytes and outside them. -/
theorem bufferWrite : Obligations.BufferWrite := by
  intro e d s
  refine ⟨fun log2n he => ?_, fun hb => ⟨_, exec_wrBuf_of_idle e hb d, ?_, fun lane hlane => ?_, fun a ha => ?_⟩,
    fun hb => ?_⟩
  · exact selector_append_bufIndex true 0b010#3 e 0b00#2 ▸ decode_bufAddr true d he
  · rw [readElement_writeElement, if_pos rfl]
  · exact readByte_writeElement_lane _ _ _ hlane
  · exact readByte_writeElement_outside _ _ _ ha
  · rw [exec_wrBuf_of_busy e hb, raise_busy]

end Sys2Proof.Machine
end

section
/-! SUPPORT. The family 60_exceptions.md: which condition a transaction raises, and how an error flag falls. -/

namespace Sys2Proof.Machine

/-! ### The flag of a condition (R311) -/

/-- The error flag that a condition sets. -/
def Condition.flag (c : Condition) (s : State) : Bool :=
  match c with
  | .command => s.errCmd
  | .busy => s.errBusy
  | .address => s.errAddr

/-- The code of a condition: the number of its flag's bit in STATUS. -/
def Condition.code : Condition → Nat
  | .command => 2
  | .busy => 3
  | .address => 4

@[simp] theorem flag_respond (c : Condition) (r : Resp) (d : Word) (s : State) :
    c.flag (respond r d s) = c.flag s := rfl

/-- R313: a condition sets its own flag, whatever the old value, and no other. -/
@[simp] theorem flag_setFlag (c raised : Condition) (s : State) :
    c.flag (setFlag raised s) = (c.flag s || raised == c) := by
  cases c with
  | command => exact setFlag_errCmd raised s
  | busy => exact setFlag_errBusy raised s
  | address => exact setFlag_errAddr raised s

/-- R286: a STATUS write clears the flags whose bits are 1. -/
@[simp] theorem flag_clearStatus (c : Condition) (d : Word) (s : State) :
    c.flag (clearStatus d s) = (c.flag s && !d.getLsbD c.code) := by
  cases c <;> rfl

@[simp] theorem flag_accept (c : Condition) (op : Op) (s : State) : c.flag (accept op s) = c.flag s := by
  cases op <;> rfl

/-! ### What an instruction and the engine do to the error flags -/

/-- An instruction leaves the error flags, or raises one condition, or is a STATUS write. -/
theorem exec_flag {i : Instr} {s t : State} (h : exec i s = .next t) :
    (∀ c : Condition, c.flag t = c.flag s) ∨
      (∃ raised, ∀ c : Condition, c.flag t = (c.flag s || raised == c)) ∨
      ∃ d, i = .wrStatus d ∧ ∀ c : Condition, c.flag t = (c.flag s && !d.getLsbD c.code) := by
  cases exec_did h with
  | addressError => exact .inr (.inl ⟨.address, by simp⟩)
  | busyError | busyCommand => exact .inr (.inl ⟨.busy, by simp⟩)
  | commandError => exact .inr (.inl ⟨.command, by simp⟩)
  | status d hi => exact .inr (.inr ⟨d, hi, by simp⟩)
  | accept op => exact .inl (by simp)
  | _ => exact .inl fun _ => rfl

/-- Two clear flags that one instruction sets are one flag: that of the condition it raises. -/
theorem exec_raised_unique {i : Instr} {s t : State} (h : exec i s = .next t) {c c' : Condition}
    (hs : c.flag s = false) (hs' : c'.flag s = false) (ht : c.flag t = true) (ht' : c'.flag t = true) :
    c = c' := by
  rcases exec_flag h with hkeep | ⟨raised, hraise⟩ | ⟨d, -, hclear⟩
  · simp [hkeep, hs] at ht
  · have hc : raised = c := by simpa [hraise, hs] using ht
    have hc' : raised = c' := by simpa [hraise, hs'] using ht'
    exact hc.symm.trans hc'
  · simp [hclear, hs] at ht

/-- Of the instructions only a STATUS write with the flag's bit clears an error flag. -/
theorem exec_clears_flag {i : Instr} {s t : State} (h : exec i s = .next t) {c : Condition}
    (hs : c.flag s = true) (ht : c.flag t = false) : ∃ d, i = .wrStatus d ∧ d.getLsbD c.code = true := by
  rcases exec_flag h with hkeep | ⟨raised, hraise⟩ | ⟨d, hi, hclear⟩
  · simp [hkeep, hs] at ht
  · simp [hraise, hs] at ht
  · exact ⟨d, hi, by simpa [hclear, hs] using ht⟩

/-- A completion leaves the error flags: what it reports are the result sentinels. -/
theorem engineStep_flag {s t : State} (h : engineStep s = .next t) (c : Condition) : c.flag t = c.flag s := by
  rcases engineStep_cases h with ⟨-, rfl⟩ | ⟨-, -, x, -, rfl⟩ | ⟨-, -, r, -, rfl⟩ <;> rfl

/-- A step that is no reset clears an error flag only as a STATUS write with the flag's bit (R313). -/
theorem step_clears_flag {s t : State} (h : step s = .next t) (hreset : ¬ resets s) (c : Condition)
    (hs : c.flag s = true) (ht : c.flag t = false) :
    ∃ e d rest, s.events = .host e :: rest ∧ decode s.cfg.log2n e = .wrStatus d ∧ d.getLsbD c.code = true := by
  rcases step_engine_or_host_or_reset h with ⟨-, hx⟩ | ⟨e, rest, he, hx⟩ | ⟨hr, -⟩
  · have hkeep : c.flag t = c.flag s := engineStep_flag hx c
    simp [hkeep, hs] at ht
  · obtain ⟨d, hi, hd⟩ := exec_clears_flag hx hs ht
    exact ⟨e, d, rest, he, hi, hd⟩
  · exact absurd hr hreset

/-! ### Errors of a transaction (R310, R322) and their flags (R313) -/

/-- Settles O54: `exec_raised_unique` at each two of the three conditions. -/
theorem atMostOneConditionPerTransaction : Obligations.AtMostOneConditionPerTransaction := by
  intro i s t hcmd hbusy haddr h
  have notBoth {c c' : Condition} (hne : c ≠ c') (hs : c.flag s = false) (hs' : c'.flag s = false) :
      (c.flag t && c'.flag t) = false := by
    by_contra hboth
    obtain ⟨ht, ht'⟩ := Bool.and_eq_true_iff.1 (Bool.not_eq_false _ ▸ hboth)
    exact hne (exec_raised_unique h hs hs' ht ht')
  exact ⟨notBoth (c := .command) (c' := .busy) (by decide) hcmd hbusy,
    notBoth (c := .command) (c' := .address) (by decide) hcmd haddr,
    notBoth (c := .busy) (c' := .address) (by decide) hbusy haddr⟩

/-- Settles O55: of all that an instruction can do, the two transaction errors answer ERROR. -/
theorem errorResponseSetsOneFlag : Obligations.ErrorResponseSetsOneFlag := by
  intro i s t h hresp
  cases exec_did h with
  | addressError => exact .inl rfl
  | busyError hb hi => exact .inr ⟨rfl, hb, hi⟩
  | _ => cases hresp

/-- Settles O56: `step_clears_flag` at the three conditions. -/
theorem errorFlagsAreSticky : Obligations.ErrorFlagsAreSticky := fun _ _ h hreset =>
  ⟨step_clears_flag h hreset .command, step_clears_flag h hreset .busy, step_clears_flag h hreset .address⟩

end Sys2Proof.Machine
end
